-- ==== Sys2Proof/Word.lean ====
section
/-! DEFINITION. The words of KHVE: bytes, 16-bit entries, 32-bit registers and 19-bit bus offsets
(spec/00_scope.md R9, spec/20_memory.md R46). -/

namespace Sys2Proof

/-- One byte of a buffer, or one HV entry. -/
abbrev Byte := BitVec 8

/-- One entry of PERM (R40). -/
abbrev Half := BitVec 16

/-- One 32-bit register, command word or bus datum (R9). -/
abbrev Word := BitVec 32

/-- A byte offset on the bus-slave port, 0x00000..0x7FFFF (R46, R48). -/
abbrev Offset := BitVec 19

end Sys2Proof
end

