-- ==== Sys2Proof/Syntax.lean ====
section
/-! DEFINITION. The command words of KHVE as an abstract syntax: one constructor per row of
spec/opcode_table.json (spec/30_encoding.md R74). Operands are the numbers the words carry (R73). -/

namespace Sys2Proof

/-- The six commands of R74. -/
inductive Instr where
  /-- NOP, form Z (R95). -/
  | nop
  /-- HASH, form S, with SIZE = w[15:8] (R96). -/
  | hash (size : Nat)
  /-- HEXHV, form Z (R97). -/
  | hexhv
  /-- PERMUTE, form L, with N = w[31:16] (R104). -/
  | permute (n : Nat)
  /-- ENCRYPT, form Z (R117). -/
  | encrypt
  /-- DECRYPT, form Z (R118). -/
  | decrypt
  deriving DecidableEq, Repr

end Sys2Proof
end

