-- ==== Sys2Proof/WellFormed.lean ====
section
/-! DEFINITION. Which commands a word can carry: SIZE in 0..255 and N in 0..65535 (spec/30_encoding.md
R73). An operand that is in range but that the command rejects is well-formed (R77). -/

namespace Sys2Proof

/-- The operand fits its field (R73; the assembler's range check of R80). -/
def Instr.wellFormed : Instr → Bool
  | .nop => true
  | .hash size => decide (size ≤ 255)
  | .hexhv => true
  | .permute n => decide (n ≤ 65535)
  | .encrypt => true
  | .decrypt => true

/-- `Instr.wellFormed` as a proposition. -/
abbrev Instr.WellFormed (i : Instr) : Prop := i.wellFormed = true

end Sys2Proof
end

