-- ==== Sys2Proof/Decode.lean ====
section
/-! DEFINITION. The total decode function of spec/30_encoding.md R76, rejecting by name, and after it the
encoder of R75 and R80. -/

namespace Sys2Proof

/-- Why a word or a byte string is no command (R76). All four are one ILLEGAL_COMMAND to the host
(R78); `wrongLength` cannot arise from CMD, which always holds 32 bits (R79). -/
inductive DecodeError where
  /-- RSV, w[7:4], is not 0. -/
  | reservedField
  /-- OP, w[3:0], is 0x6..0xF. -/
  | reservedOpcode
  /-- A field that the opcode does not use is not 0. -/
  | unusedField
  /-- A command is exactly one 32-bit word, four bytes (R79). -/
  | wrongLength
  deriving DecidableEq, Repr

/-- OP = w[3:0] (R71). -/
def opField (w : Word) : BitVec 4 := w.extractLsb' 0 4

/-- RSV = w[7:4] (R71). -/
def rsvField (w : Word) : BitVec 4 := w.extractLsb' 4 4

/-- SIZE = w[15:8] (R71, R73). -/
def sizeField (w : Word) : Byte := w.extractLsb' 8 8

/-- N = w[31:16] (R71, R73). -/
def nField (w : Word) : Half := w.extractLsb' 16 16

/-- Accept `i` when the fields its form does not use are 0 (R76). -/
def decodeForm (unusedZero : Bool) (i : Instr) : Except DecodeError Instr :=
  if unusedZero then .ok i else .error .unusedField

/-- `decode(w)` of R76. -/
def decode (w : Word) : Except DecodeError Instr :=
  if rsvField w ≠ 0 then .error .reservedField
  else if opField w = 0x0 then decodeForm (sizeField w == 0 && nField w == 0) .nop
  else if opField w = 0x1 then decodeForm (nField w == 0) (.hash (sizeField w).toNat)
  else if opField w = 0x2 then decodeForm (sizeField w == 0 && nField w == 0) .hexhv
  else if opField w = 0x3 then decodeForm (sizeField w == 0) (.permute (nField w).toNat)
  else if opField w = 0x4 then decodeForm (sizeField w == 0 && nField w == 0) .encrypt
  else if opField w = 0x5 then decodeForm (sizeField w == 0 && nField w == 0) .decrypt
  else .error .reservedOpcode

/-- The word whose bytes lie at ascending offsets, the first least significant (R50). -/
def wordOfBytes (b0 b1 b2 b3 : Byte) : Word := b3 ++ b2 ++ b1 ++ b0

/-- The bytes of a word at ascending offsets (R50). -/
def bytesOfWord (w : Word) : List Byte :=
  [w.extractLsb' 0 8, w.extractLsb' 8 8, w.extractLsb' 16 8, w.extractLsb' 24 8]

/-- Decode the bytes of one command as a host's 4-byte write lays them out: exactly four (R79). -/
def decodeBytes : List Byte → Except DecodeError Instr
  | [b0, b1, b2, b3] => decode (wordOfBytes b0 b1 b2 b3)
  | _ => .error .wrongLength

/-- The instruction whose bits are `w`, of which the table gives `nbits`; the bits above are 0. -/
def decodeTableWord (nbits w : Nat) : Option Instr :=
  (decodeBytes (bytesOfWord (BitVec.ofNat 32 (w % 2 ^ nbits)))).toOption

/-- The MATCH column of R75. -/
def matchWord : Instr → Word
  | .nop => 0x00000000
  | .hash _ => 0x00000001
  | .hexhv => 0x00000002
  | .permute _ => 0x00000003
  | .encrypt => 0x00000004
  | .decrypt => 0x00000005

/-- The MASK column of R75. -/
def maskWord : Instr → Word
  | .nop => 0xFFFFFFFF
  | .hash _ => 0xFFFF00FF
  | .hexhv => 0xFFFFFFFF
  | .permute _ => 0x0000FFFF
  | .encrypt => 0xFFFFFFFF
  | .decrypt => 0xFFFFFFFF

/-- The operand field of a command's word, in its place (R73, R80). -/
def operandWord : Instr → Word
  | .nop => 0
  | .hash size => BitVec.ofNat 32 size <<< 8
  | .hexhv => 0
  | .permute n => BitVec.ofNat 32 n <<< 16
  | .encrypt => 0
  | .decrypt => 0

/-- The word of a well-formed command: its match value with its operand in place (R80). -/
def encode (i : Instr) : Word := matchWord i ||| operandWord i

/-- The four bytes of a command's word at ascending offsets (R50). -/
def encodeBytes (i : Instr) : List Byte := bytesOfWord (encode i)

end Sys2Proof
end

