-- ==== Sys2Proof/Config.lean ====
section
/-! DEFINITION. What an implementation of KHVE fixes (the three depths of spec/00_scope.md R8) and the
free values (spec/93_implementation_defined.md section 2): opaque constants that no proof can evaluate. -/

namespace Sys2Proof.Config

/-- The named parameters of R8. They are constants of one machine and are reported by CAP_IN, CAP_OUT
and CAP_PERM (R35). -/
structure Params where
  /-- IN_DEPTH: bytes in IN_BUF. -/
  inDepth : Nat
  /-- OUT_DEPTH: bytes in OUT_BUF. -/
  outDepth : Nat
  /-- PERM_DEPTH: entries in PERM. -/
  permDepth : Nat
  deriving DecidableEq, Repr

/-- The default of each parameter (R8). -/
def Params.default : Params := { inDepth := 4096, outDepth := 16384, permDepth := 8192 }

/-- The legal ranges of R8. -/
abbrev Params.Legal (p : Params) : Prop :=
  (1 ≤ p.inDepth ∧ p.inDepth ≤ 65536) ∧ (510 ≤ p.outDepth ∧ p.outDepth ≤ 131072) ∧
    (1 ≤ p.permDepth ∧ p.permDepth ≤ 65536)

/-- FREE VALUE (V1, V2): the byte that a draw numbered `draw` gives to the never-written buffer byte
at bus offset `off`. No body: a claim holds for every choice. Log 4, log 5. -/
opaque freeByte (draw off : Nat) : Byte

/-- FREE VALUE (V3): what the read numbered `draw` of a busy-window register returns. No body.
Log 6. -/
opaque freeWord (draw : Nat) : Word

end Sys2Proof.Config
end

