-- ==== Sys2Proof/Machine/State.lean ====
section
/-! DEFINITION. The state of KHVE as plain data (spec/10_state.md R20), the events of its one total order
(spec/20_memory.md R62), and the state after reset (spec/10_state.md R43). -/

namespace Sys2Proof.Machine

/-- STATUS (R27), by fields. Bits 7:4 and 31:12 are reserved, read 0 and have no storage. -/
structure Status where
  /-- Bit 0: 1 from acceptance to completion. It is also the engine's phase (R41). -/
  busy : Bool
  /-- Bit 1: 1 after a completion step, until the next acceptance. -/
  done : Bool
  /-- Bit 2: the last completed command ended with an error. -/
  err : Bool
  /-- Bit 3, sticky: a host write was dropped in the busy window (R44). -/
  wbusy : Bool
  /-- Bits 11:8: the error code of the last completed command (R126). -/
  errCode : BitVec 4
  deriving DecidableEq, Repr

/-- One transaction of the bus-slave port (R46): `off` is the byte offset, `n` the size in bytes and
`v` the write data, of which the low `8 * n` bits count. -/
inductive Transaction where
  | read (off : Offset) (n : Nat)
  | write (off : Offset) (n : Nat) (v : Word)
  deriving DecidableEq, Repr

/-- What can happen in one step (R21, R62). DESIGN CHOICE, log 2: the order is a list of these. -/
inductive Event where
  /-- The host performs a transaction. -/
  | bus (t : Transaction)
  /-- The engine has its turn: its completion step, if it has one (R128). -/
  | engine
  /-- `rst_n` goes low (R151). -/
  | resetLow
  /-- `rst_n` goes high (R151). -/
  | resetHigh
  deriving DecidableEq, Repr

/-- The response to a performed transaction (R46). `ERROR` is a fault, not a response (R137, log 7). -/
inductive Response where
  /-- OKAY for a write. -/
  | okayWrite
  /-- OKAY with `rdata`, `8 * n` bits, zero-extended to 32 (log 18). -/
  | okayRead (n : Nat) (rdata : Word)
  deriving DecidableEq, Repr

/-- The stored bytes of IN_BUF, OUT_BUF and PERM by bus offset. An address that is not listed holds no
stored value: it reads as the free value of its buffer's draw (log 4). PERM entry `r` lies at
`0x40000 + 4*r` (low byte) and `0x40000 + 4*r + 1` (high byte) (log 9). -/
abbrev Memory := List Host.Cell

/-- The canonical form: addresses strictly rising. No entry can equal what an unlisted address reads
as, because an unlisted address has no stored value. -/
abbrev Memory.wf (m : Memory) : Prop := m.Pairwise (fun c d => c.1 < d.1)

/-- The state of KHVE (R20), the level of `rst_n`, and the model's own fields (INVENTORY.md, State). -/
structure State where
  /-- IN_DEPTH, OUT_DEPTH and PERM_DEPTH, constants of the machine, as CAP_* report them (R8, R35). -/
  params : Config.Params
  /-- CMD, the last accepted command word (R26). -/
  cmd : Word
  /-- STATUS (R27). -/
  status : Status
  /-- IN_LEN (R28). -/
  inLen : Word
  /-- OUT_LEN (R29). -/
  outLen : Word
  /-- HV_SIZE[7:0]; bits 31:8 are reserved (R30). -/
  hvSize : Byte
  /-- PERM_LEN (R31). -/
  permLen : Word
  /-- IRQ_EN.DONE_EN (R32). -/
  irqEn : Bool
  /-- IRQ_STATUS.DONE (R33). -/
  irqDone : Bool
  /-- HV[0..254] (R36). -/
  hv : Vector Byte 255
  /-- The stored bytes of IN_BUF (R38), OUT_BUF (R39) and PERM (R40). -/
  mem : Memory
  /-- The level of `rst_n`: true is high (R46, R151). -/
  rstN : Bool
  /-- MODEL: the draw that never-written bytes of IN_BUF take their value from (V1, log 4). -/
  inDraw : Nat
  /-- MODEL: the same for OUT_BUF (V1, V2, log 4, log 5). -/
  outDraw : Nat
  /-- MODEL: the same for PERM (V1, V2, log 4, log 5). -/
  permDraw : Nat
  /-- MODEL: the number of the next fresh draw. -/
  draws : Nat
  /-- MODEL: the events still to happen, the first next (log 2). -/
  schedule : List Event
  /-- MODEL: the port's answer to the latest transaction (R46, log 8). -/
  response : Option Response
  deriving DecidableEq, Repr

/-- Why a step has no next state. -/
inductive Fault where
  /-- A bus error: a transaction that R56 rejects. Raised by a host transaction only, never by a
  command. It ends the host program's run (R137, V7). SAFE: the spec names this reading. -/
  | busError (off : Offset) (n : Nat)
  /-- A host transaction while `rst_n` is low (R151, V6). Raised by a host transaction only. SAFE:
  the spec names this reading. -/
  | busErrorInReset (off : Offset) (n : Nat)
  deriving DecidableEq, Repr

/-- Why an instruction has no meaning. -/
inductive Refusal where
  /-- Raised by an arm of `exec` whose instruction has no meaning yet. No arm raises it in this
  model. SAFE. -/
  | notModelled (mnemonic : String)
  deriving DecidableEq, Repr

/-- STATUS after reset: 0x00000000 (R43). -/
def Status.reset : Status :=
  { busy := false, done := false, err := false, wbusy := false, errCode := 0 }

/-- The state right after reset of a machine with parameters `p` (R43), `rst_n` high again. The
buffers list nothing: every element is unspecified. The model's own fields: log 21. -/
def State.resetWith (p : Config.Params) : State :=
  { params := p, cmd := 0, status := Status.reset, inLen := 0, outLen := 0, hvSize := 0,
    permLen := 0, irqEn := false, irqDone := false, hv := Vector.replicate 255 0, mem := [],
    rstN := true, inDraw := 0, outDraw := 0, permDraw := 0, draws := 1, schedule := [],
    response := none }

/-- The state right after reset, with the default parameters of R8 (R43, log 1). -/
def State.reset : State := State.resetWith Config.Params.default

end Sys2Proof.Machine
end

