-- ==== Sys2Proof/Machine/Flags.lean ====
section
/-! DEFINITION. The flags of KHVE (spec/10_state.md R27, R42): the STATUS word, the error codes
(spec/60_exceptions.md R126), what acceptance, completion, a dropped write and a clearing write do to the
flags, and the interrupt output (R139). -/

namespace Sys2Proof.Machine

/-- The errors of R126; codes 9..15 are reserved and never reported. -/
inductive ErrorCode where
  | invalidKeySize
  | emptyHash
  | malformedCiphertext
  | ciphertextLength
  | malformedText
  | codePointRange
  | capacity
  | illegalCommand
  deriving DecidableEq, Repr

/-- The code of an error in STATUS.ERRCODE (R126). -/
def errorBits : ErrorCode → BitVec 4
  | .invalidKeySize => 1
  | .emptyHash => 2
  | .malformedCiphertext => 3
  | .ciphertextLength => 4
  | .malformedText => 5
  | .codePointRange => 6
  | .capacity => 7
  | .illegalCommand => 8

/-- One flag as a field of width 1. -/
def bit (b : Bool) : BitVec 1 := BitVec.ofBool b

/-- STATUS as the 32-bit register of R27, reserved bits 0. -/
def statusWord (st : Status) : Word :=
  (0 : BitVec 20) ++ st.errCode ++ (0 : BitVec 4) ++ bit st.wbusy ++ bit st.err ++ bit st.done ++ bit st.busy

/-- STATUS at the acceptance of a command (R127): WBUSY is left as it is. -/
def acceptedStatus (st : Status) : Status :=
  { busy := true, done := false, err := false, wbusy := st.wbusy, errCode := 0 }

/-- STATUS after `complete()` (R128, R129). -/
def completedStatus (st : Status) : Status :=
  { busy := false, done := true, err := false, wbusy := st.wbusy, errCode := 0 }

/-- STATUS after `raise e` (R128, R130). -/
def raisedStatus (e : ErrorCode) (st : Status) : Status :=
  { busy := false, done := true, err := true, wbusy := st.wbusy, errCode := errorBits e }

/-- STATUS after a host write was dropped in the busy window (R44, R136). -/
def droppedStatus (st : Status) : Status := { st with wbusy := true }

/-- STATUS after a host write of `v` to it: writing 1 to bit 3 clears WBUSY (R27). -/
def writtenStatus (v : Word) (st : Status) : Status :=
  { st with wbusy := st.wbusy && !v.getLsbD 3 }

/-- IRQ_STATUS.DONE after a host write of `v` to it: writing 1 to bit 0 clears it (R33). -/
def writtenIrqDone (v : Word) (d : Bool) : Bool := d && !v.getLsbD 0

/-- The interrupt output `irq` (R139): a level, a function of the state. -/
def irq (s : State) : Bool := s.irqEn && s.irqDone

/-- The combinations of STATUS that R27 calls legal: idle before any command, running, done with
success, done with an error code in 1..8. WBUSY is independent. -/
def legalStatus (st : Status) : Bool :=
  (!st.err && st.errCode == 0 && !(st.busy && st.done)) ||
    (!st.busy && st.done && st.err && decide (1 ≤ st.errCode) && decide (st.errCode ≤ 8))

end Sys2Proof.Machine
end

