-- ==== Sys2Proof/Machine/Ops.lean ====
section
/-! DEFINITION. The named operations over memory and registers: reading and writing one stored byte, the
buffers and PERM, the hash vector, the unspecified contents of spec/93_implementation_defined.md V1 and V2,
`complete()` (spec/60_exceptions.md R129), `raise` (R130) with the acceptance that clears it (R127, R135), and
reset (spec/70_reset_and_hazards.md R151). -/

namespace Sys2Proof.Machine

/-! ### Stored bytes -/

/-- The stored byte at an address, if one is listed. -/
def Memory.get? (a : Nat) : Memory → Option Byte
  | [] => none
  | c :: m => if a = c.1 then some c.2 else Memory.get? a m

/-- Store one byte, keeping the canonical form. -/
def Memory.write (a : Nat) (b : Byte) : Memory → Memory
  | [] => [(a, b)]
  | c :: m =>
    if a < c.1 then (a, b) :: c :: m
    else if a = c.1 then (a, b) :: m
    else c :: Memory.write a b m

/-- Store a byte string at ascending addresses from `a` (R51). -/
def Memory.writeBytes (a : Nat) : List Byte → Memory → Memory
  | [], m => m
  | b :: bs, m => Memory.writeBytes (a + 1) bs (m.write a b)

/-- Forget what is stored at the addresses from `lo` below `hi`. -/
def Memory.forget (lo hi : Nat) (m : Memory) : Memory :=
  m.filter fun c => !(decide (lo ≤ c.1) && decide (c.1 < hi))

/-! ### The buffers (R49) -/

/-- The first bus offset of IN_BUF (R38). -/
def inBase : Nat := 0x10000

/-- The first bus offset of OUT_BUF (R39). -/
def outBase : Nat := 0x20000

/-- The first bus offset of PERM (R40). -/
def permBase : Nat := 0x40000

/-- The bus offset past the last one (R48). -/
def offsetEnd : Nat := 0x80000

/-- The draw that a never-written byte at an address takes its value from (log 4). -/
def drawAt (s : State) (a : Nat) : Nat :=
  if a < outBase then s.inDraw else if a < permBase then s.outDraw else s.permDraw

/-- THE READ OF ONE BYTE of IN_BUF, OUT_BUF or PERM by its bus offset: what was stored there, or else the
free value of the buffer's draw, stable until written (V1, V2). -/
def readByte (s : State) (a : Nat) : Byte :=
  (Memory.get? a s.mem).getD (Config.freeByte (drawAt s a) a)

/-- `IN_BUF[o]` (R38). -/
def inByte (s : State) (o : Nat) : Byte := readByte s (inBase + o)

/-- `OUT_BUF[o]` (R39). -/
def outByte (s : State) (o : Nat) : Byte := readByte s (outBase + o)

/-- `PERM[r]` (R40). -/
def permEntry (s : State) (r : Nat) : Half :=
  readByte s (permBase + 4 * r + 1) ++ readByte s (permBase + 4 * r)

/-- `IN_BUF[0 .. len-1]`. -/
def inBytes (s : State) (len : Nat) : List Byte := (List.range len).map (inByte s)

/-- `OUT_BUF[0 .. len-1]`. -/
def outBytes (s : State) (len : Nat) : List Byte := (List.range len).map (outByte s)

/-- `PERM[0 .. len-1]`. -/
def permEntries (s : State) (len : Nat) : List Half := (List.range len).map (permEntry s)

/-- Store a byte string into OUT_BUF from byte 0; the bytes beyond keep their values (R39). -/
def setOut (bs : List Byte) (s : State) : State := { s with mem := s.mem.writeBytes outBase bs }

/-- Store a list of positions as PERM entries, 16 bits each, the first at address `a` and four offsets
apart (R40). -/
def Memory.writeEntries (a : Nat) : List Nat → Memory → Memory
  | [], m => m
  | p :: ps, m =>
    Memory.writeEntries (a + 4) ps
      (m.writeBytes a [(BitVec.ofNat 16 p).extractLsb' 0 8, (BitVec.ofNat 16 p).extractLsb' 8 8])

/-- Store a list of positions into PERM from rank 0; the entries beyond keep their values (R40). -/
def setPerm (ps : List Nat) (s : State) : State := { s with mem := s.mem.writeEntries permBase ps }

/-- Every byte of OUT_BUF becomes unspecified: forgotten, with a fresh draw (R130, V2, log 5). -/
def unspecifyOut (s : State) : State :=
  { s with mem := s.mem.forget outBase permBase, outDraw := s.draws, draws := s.draws + 1 }

/-- Every entry of PERM becomes unspecified: forgotten, with a fresh draw (R130, V2, log 5). -/
def unspecifyPerm (s : State) : State :=
  { s with mem := s.mem.forget permBase offsetEnd, permDraw := s.draws, draws := s.draws + 1 }

/-! ### The hash vector (R36) -/

/-- `HV[0 .. len(r)-1]` take the values of `r`; the other entries keep theirs (R96). -/
def setHv (r : List Byte) (hv : Vector Byte 255) : Vector Byte 255 :=
  Vector.ofFn fun j => (r[j.val]?).getD hv[j]

/-! ### Acceptance, completion and errors (R127 to R130) -/

/-- Acceptance of a command word (R26, R127). It also is what clears the error of the command before:
no other return from an error exists (R135). -/
def accept (w : Word) (s : State) : State := { s with cmd := w, status := acceptedStatus s.status }

/-- A host write dropped in the busy window (R44, R136). -/
def dropWrite (s : State) : State := { s with status := droppedStatus s.status }

/-- `complete()` with the completion effects (R128, R129). -/
def complete (s : State) : State :=
  { s with status := completedStatus s.status, irqDone := true }

/-- The columns "writes on error" of R45. -/
inductive ErrorWrites where
  /-- HASH and illegal words: every other register and array is unchanged. -/
  | nothing
  /-- PERMUTE: PERM_LEN <- 0, PERM contents unspecified. -/
  | perm
  /-- ENCRYPT and DECRYPT: OUT_LEN, PERM_LEN <- 0, OUT_BUF and PERM contents unspecified. -/
  | outAndPerm
  deriving DecidableEq, Repr

/-- What an error does to the results (R45, R130). -/
def errorWrites (w : ErrorWrites) (s : State) : State :=
  match w with
  | .nothing => s
  | .perm => unspecifyPerm { s with permLen := 0 }
  | .outAndPerm => unspecifyPerm (unspecifyOut { s with outLen := 0, permLen := 0 })

/-- `raise e` with the completion effects (R128, R130): THE ONE EXCEPTION ENTRY. It saves the code in
STATUS.ERRCODE and leaves the word in CMD (R134). -/
def raiseError (w : ErrorWrites) (e : ErrorCode) (s : State) : State :=
  { errorWrites w s with status := raisedStatus e s.status, irqDone := true }

/-- A command's meaning that ends with `complete()`. -/
def completed (s : State) : Host.Outcome State Fault Refusal := .next (complete s)

/-- A command's meaning that ends with `raise e`. -/
def raised (w : ErrorWrites) (e : ErrorCode) (s : State) : Host.Outcome State Fault Refusal :=
  .next (raiseError w e s)

/-! ### Reset (R151) -/

/-- `rst_n` goes low: the reset state of R43, with new unspecified contents of IN_BUF, OUT_BUF and PERM;
a running command is abandoned (R151, log 11). -/
def assertReset (s : State) : State :=
  { State.resetWith s.params with
    rstN := false, inDraw := s.draws, outDraw := s.draws, permDraw := s.draws, draws := s.draws + 1,
    schedule := s.schedule }

/-- `rst_n` goes high: the engine is idle and accepts the next CMD write (R151). -/
def releaseReset (s : State) : State := { s with rstN := true }

end Sys2Proof.Machine
end

