-- ==== Sys2Proof/Machine/Operands.lean ====
section
/-! DEFINITION. The operands of the commands (spec/30_encoding.md R73, spec/10_state.md R45): besides SIZE and N,
which the word carries, the hash vector in use and the input bytes, read from the state at acceptance
(spec/00_scope.md R13, spec/20_memory.md R63). -/

namespace Sys2Proof.Machine

/-- `hs`, the length of the hash vector in use: R(HV_SIZE) (R30). -/
def hashSize (s : State) : Nat := s.hvSize.toNat

/-- `HV[0 .. HV_SIZE-1]`, the hash vector in use (R36). -/
def hashVector (s : State) : List Byte := s.hv.toList.take (hashSize s)

/-- `L`, R(IN_LEN) as an unsigned number (R28, R132). -/
def inputLength (s : State) : Nat := s.inLen.toNat

/-- `IN_BUF[0 .. IN_LEN-1]` (R38). -/
def inputBytes (s : State) : List Byte := inBytes s (inputLength s)

/-- The input capacity check fails (R132): `IN_LEN > IN_DEPTH`, all 32 bits. -/
def inputTooLong (s : State) : Bool := decide (s.params.inDepth < inputLength s)

end Sys2Proof.Machine
end

