-- ==== Sys2Proof/Machine/KeyedHash.lean ====
section
/-! DEFINITION. The keyed hash vector engine and the hex encoder (spec/40_keyed_hash.md): the prime ROM, the
keyed hash, the hexadecimal rendering, and the commands NOP, HASH and HEXHV. -/

namespace Sys2Proof.Machine

/-! ### The prime table -/

/-- PRIME_COUNT (R7, R35). -/
def primeCount : Nat := 168

/-- PRIME_BOUND (R7, R35). -/
def primeBound : Nat := 1000

/-- The procedure `generatePrimes(bound)` of R86: each odd candidate below the bound is tested for
divisibility only against the primes already collected. -/
def generatePrimes (bound : Nat) : List Nat :=
  (List.range ((bound - 2) / 2)).foldl
    (fun ps i => if ps.all (fun p => (2 * i + 3) % p != 0) then ps ++ [2 * i + 3] else ps) [2]

/-- The ROM PRIME, the table of R86 (R37). -/
def primeTable : List Nat :=
    [2, 3, 5, 7, 11, 13, 17, 19, 23, 29, 31, 37] ++
    [41, 43, 47, 53, 59, 61, 67, 71, 73, 79, 83, 89] ++
    [97, 101, 103, 107, 109, 113, 127, 131, 137, 139, 149, 151] ++
    [157, 163, 167, 173, 179, 181, 191, 193, 197, 199, 211, 223] ++
    [227, 229, 233, 239, 241, 251, 257, 263, 269, 271, 277, 281] ++
    [283, 293, 307, 311, 313, 317, 331, 337, 347, 349, 353, 359] ++
    [367, 373, 379, 383, 389, 397, 401, 409, 419, 421, 431, 433] ++
    [439, 443, 449, 457, 461, 463, 467, 479, 487, 491, 499, 503] ++
    [509, 521, 523, 541, 547, 557, 563, 569, 571, 577, 587, 593] ++
    [599, 601, 607, 613, 617, 619, 631, 641, 643, 647, 653, 659] ++
    [661, 673, 677, 683, 691, 701, 709, 719, 727, 733, 739, 743] ++
    [751, 757, 761, 769, 773, 787, 797, 809, 811, 821, 823, 827] ++
    [829, 839, 853, 857, 859, 863, 877, 881, 883, 887, 907, 911] ++
    [919, 929, 937, 941, 947, 953, 967, 971, 977, 983, 991, 997]

/-- `P[k]` (R86); the hash and the bus use it for `k < 168` only (R87). -/
def prime (k : Nat) : Nat := primeTable.getD k 0

/-! ### The keyed hash (R88) -/

/-- HASH_MODULUS (R7). -/
def hashModulus : Nat := 255

/-- The inner loop of R88 for one key byte whose term `P[k] * b` is `pb`: each slot in order, with the
accumulator `t` carried across the slots. It answers the new slots and the new `t`. -/
def hashSlots (pb : Nat) : Nat → List Nat → List Nat × Nat
  | t, [] => ([], t)
  | t, r :: rs =>
    let t' := (r + t + pb) % hashModulus
    let rest := hashSlots pb t' rs
    (t' :: rest.1, rest.2)

/-- The outer loop of R88 from prime cursor `k`, accumulator `t` and slots `result`: `t` is carried
across the key bytes and `k` returns to 0 after 168 of them. -/
def hashBytes : List Byte → (k t : Nat) → (result : List Nat) → List Nat
  | [], _, _, result => result
  | b :: key, k, t, result =>
    let row := hashSlots (prime k * b.toNat) t result
    hashBytes key ((k + 1) % primeCount) row.2 row.1

/-- `hash(key, size)` of R88. -/
def keyedHash (key : List Byte) (size : Nat) : List Nat :=
  hashBytes key 0 0 (List.replicate size 0)

/-! ### The hex encoder (R90, R91) -/

/-- `hexdigit(d)` for `d` in 0..15 (R90). -/
def hexDigit (d : Nat) : Byte :=
  if d ≤ 9 then BitVec.ofNat 8 (0x30 + d) else BitVec.ofNat 8 (0x61 + (d - 10))

/-- `hex2(v)`: the high nibble first (R90). -/
def hex2 (v : Byte) : List Byte := [hexDigit (v.toNat / 16), hexDigit (v.toNat % 16)]

/-- `hexstr(s)`, which is `hashToString` (R91). -/
def hexStr (s : List Byte) : List Byte := s.flatMap hex2

/-! ### Commands -/

/-- NOP (R95). -/
def execNop (s : State) : Host.Outcome State Fault Refusal := completed s

/-- The slots of a hash as HV entries: each is in 0..254 (R89). -/
def hashEntries (key : List Byte) (size : Nat) : List Byte :=
  (keyedHash key size).map (BitVec.ofNat 8)

/-- HASH (R96). -/
def execHash (size : Nat) (s : State) : Host.Outcome State Fault Refusal :=
  if size = 0 then raised .nothing .invalidKeySize s
  else if inputTooLong s then raised .nothing .capacity s
  else completed
    { s with hv := setHv (hashEntries (inputBytes s) size) s.hv, hvSize := BitVec.ofNat 8 size }

/-- HEXHV (R97). -/
def execHexhv (s : State) : Host.Outcome State Fault Refusal :=
  completed (setOut (hexStr (hashVector s)) { s with outLen := BitVec.ofNat 32 (2 * hashSize s) })

end Sys2Proof.Machine
end

