-- ==== Sys2Proof/Machine/Permutation.lean ====
section
/-! DEFINITION. The position permutation sort unit (spec/41_permutation.md): the position vector, the stable
permutation, and the command PERMUTE. -/

namespace Sys2Proof.Machine

/-- `tile(hv, N)`: the position vector, `hv[p mod hs]` for `p < N` (R101). -/
def tile (hv : List Byte) (n : Nat) : List Byte :=
  (List.range n).map fun p => hv.getD (p % hv.length) 0

/-- The sort key order of R102: by the tile value, and by the smaller index among equal values. -/
def rankBefore (v : List Byte) (i j : Nat) : Bool :=
  decide (v.getD i 0 < v.getD j 0) || (v.getD i 0 == v.getD j 0 && decide (i ≤ j))

/-- `perm(hv, N)`: `range(N)` sorted ascending by (tile value, index) (R102). -/
def permutation (hv : List Byte) (n : Nat) : List Nat :=
  (List.range n).insertionSort fun i j => rankBefore (tile hv n) i j

/-- The rank of position `p` counted directly (R103). -/
def rankOf (v : List Byte) (p : Nat) : Nat :=
  (List.range v.length).countP (fun q => decide (v.getD q 0 < v.getD p 0)) +
    (List.range p).countP (fun q => v.getD q 0 == v.getD p 0)

/-- Leave a permutation of length `n` in PERM and PERM_LEN (R104, R117, R118). -/
def storePermutation (pm : List Nat) (n : Nat) (s : State) : State :=
  setPerm pm { s with permLen := BitVec.ofNat 32 n }

/-- PERMUTE (R104). -/
def execPermute (n : Nat) (s : State) : Host.Outcome State Fault Refusal :=
  if hashSize s = 0 then raised .perm .emptyHash s
  else if s.params.permDepth < n then raised .perm .capacity s
  else completed (storePermutation (permutation (hashVector s) n) n s)

end Sys2Proof.Machine
end

