-- ==== Sys2Proof/Machine/Cipher.lean ====
section
/-! DEFINITION. The XOR substitution cipher (spec/42_cipher.md): the text codec, encipher and decipher, the hex
decoder, and the commands ENCRYPT and DECRYPT. -/

namespace Sys2Proof.Machine

/-! ### Text codec (R109 to R111) -/

/-- `b` is in `lo..hi`. -/
def inRange (lo hi b : Byte) : Bool := decide (lo ≤ b) && decide (b ≤ hi)

/-- A continuation byte, 0x80..0xBF (R110). -/
def isContinuation (b : Byte) : Bool := inRange 0x80 0xBF b

/-- The row of R110 with one byte. -/
def isOne (b1 : Byte) : Bool := inRange 0x00 0x7F b1

/-- The row of R110 with two bytes. -/
def isTwo (b1 b2 : Byte) : Bool := inRange 0xC2 0xDF b1 && isContinuation b2

/-- The rows of R110 with three bytes. -/
def isThree (b1 b2 b3 : Byte) : Bool :=
  ((b1 == 0xE0 && inRange 0xA0 0xBF b2) || (inRange 0xE1 0xEC b1 && isContinuation b2) ||
      (inRange 0xEE 0xEF b1 && isContinuation b2) || (b1 == 0xED && inRange 0x80 0x9F b2)) &&
    isContinuation b3

/-- The rows of R110 with four bytes. -/
def isFour (b1 b2 b3 b4 : Byte) : Bool :=
  ((b1 == 0xF0 && inRange 0x90 0xBF b2) || (inRange 0xF1 0xF3 b1 && isContinuation b2) ||
      (b1 == 0xF4 && inRange 0x80 0x8F b2)) &&
    isContinuation b3 && isContinuation b4

/-- The code point of a two-byte sequence (R110). -/
def codePoint2 (b1 b2 : Byte) : Nat := ((b1.toNat &&& 0x1F) <<< 6) ||| (b2.toNat &&& 0x3F)

/-- The code point of a three-byte sequence (R110). -/
def codePoint3 (b1 b2 b3 : Byte) : Nat :=
  ((b1.toNat &&& 0x0F) <<< 12) ||| ((b2.toNat &&& 0x3F) <<< 6) ||| (b3.toNat &&& 0x3F)

/-- The code point of a four-byte sequence (R110). -/
def codePoint4 (b1 b2 b3 b4 : Byte) : Nat :=
  ((b1.toNat &&& 0x07) <<< 18) ||| ((b2.toNat &&& 0x3F) <<< 12) ||| ((b3.toNat &&& 0x3F) <<< 6) |||
    (b4.toNat &&& 0x3F)

/-- Put a code point before a decoded rest; `none` is `Malformed`. -/
def consPoint (c : Nat) (rest : Option (List Nat)) : Option (List Nat) := rest.map (c :: ·)

/-- `utf8_decode(b)` of R110, from the front; `none` is `Malformed`. -/
def utf8Decode : List Byte → Option (List Nat)
  | [] => some []
  | b1 :: r1 =>
    if isOne b1 then consPoint b1.toNat (utf8Decode r1)
    else match r1 with
    | [] => none
    | b2 :: r2 =>
      if isTwo b1 b2 then consPoint (codePoint2 b1 b2) (utf8Decode r2)
      else match r2 with
      | [] => none
      | b3 :: r3 =>
        if isThree b1 b2 b3 then consPoint (codePoint3 b1 b2 b3) (utf8Decode r3)
        else match r3 with
        | [] => none
        | b4 :: r4 =>
          if isFour b1 b2 b3 b4 then consPoint (codePoint4 b1 b2 b3 b4) (utf8Decode r4) else none

/-- `utf8_encode(c)` for a code point in 0..0xFF (R111). -/
def utf8Char (c : Byte) : List Byte :=
  if c ≤ 0x7F then [c] else [0xC0 ||| (c >>> 6), 0x80 ||| (c &&& 0x3F)]

/-- `utf8_encode` of a list (R111). -/
def utf8Encode (cs : List Byte) : List Byte := cs.flatMap utf8Char

/-! ### Encipher and decipher (R112, R116) -/

/-- `outputSize`, `hs * (1 + L div hs)` (R112). -/
def outputSize (hs len : Nat) : Nat := hs * (1 + len / hs)

/-- One rank of the XOR pass of R112: `v[pos] <- c xor v[pos]`. -/
def xorAt (v : List Byte) (pos c : Nat) : List Byte := v.set pos (BitVec.ofNat 8 c ^^^ v.getD pos 0)

/-- The XOR pass of R112 over the ranks in order. The ranks at and past `len(cps)` leave their slot
as it is, so the pass ends with the last code point. -/
def xorPass (v : List Byte) (pm cps : List Nat) : List Byte :=
  (pm.zip cps).foldl (fun v rank => xorAt v rank.1 rank.2) v

/-- What `encipher` and `decipher` answer: the bytes and the permutation with its length. -/
structure CipherResult where
  /-- `v` of R112, or `dv` of R116. -/
  bytes : List Byte
  /-- `pm`. -/
  perm : List Nat
  /-- `N`. -/
  size : Nat
  deriving DecidableEq, Repr

/-- `encipher(cps, L, hv)` of R112. -/
def encipher (cps : List Nat) (len : Nat) (hv : List Byte) : CipherResult :=
  let n := outputSize hv.length len
  let pm := permutation hv n
  { bytes := xorPass (tile hv n) pm cps, perm := pm, size := n }

/-- Strip all trailing NUL values (R116, step 7). -/
def stripNuls (dv : List Byte) : List Byte := dv.rdropWhile (· == 0)

/-- `ceil_div(a, m)` (R10). -/
def ceilDiv (a m : Nat) : Nat := (a + m - 1) / m

/-- `decipher(d, hv)` of R116. -/
def decipher (d : List Byte) (hv : List Byte) : CipherResult :=
  let n := hv.length * ceilDiv d.length hv.length
  let v := tile hv n
  let pm := permutation hv n
  { bytes := stripNuls (pm.map fun pos => d.getD pos 0 ^^^ v.getD pos 0), perm := pm, size := n }

/-! ### The hex decoder (R115) -/

/-- `hexval(c)`; `none` when `c` is not a hex character (R115). -/
def hexVal (c : Byte) : Option Nat :=
  if inRange 0x30 0x39 c then some (c.toNat - 0x30)
  else if inRange 0x61 0x66 c then some (c.toNat - 0x61 + 10)
  else if inRange 0x41 0x46 c then some (c.toNat - 0x41 + 10)
  else none

/-- Every byte is a hex character (R115, R118). -/
def allHex (s : List Byte) : Bool := s.all fun c => (hexVal c).isSome

/-- `hexdecode(s)` for a string of hex characters of even length (R115). -/
def hexDecode : List Byte → List Byte
  | c1 :: c2 :: s => BitVec.ofNat 8 (16 * (hexVal c1).getD 0 + (hexVal c2).getD 0) :: hexDecode s
  | _ => []

/-! ### Commands -/

/-- The successful end of ENCRYPT and DECRYPT: `out` to OUT_BUF and OUT_LEN, the permutation to PERM and
PERM_LEN (R117, R118). -/
def storeCipher (out : List Byte) (c : CipherResult) (s : State) : State :=
  storePermutation c.perm c.size
    (setOut out { s with outLen := BitVec.ofNat 32 out.length })

/-- ENCRYPT after its text was decoded (R117). -/
def encryptPoints (cps : List Nat) (s : State) : Host.Outcome State Fault Refusal :=
  let n := outputSize (hashSize s) (inputLength s)
  if cps.any (fun c => decide (0xFF < c)) then raised .outAndPerm .codePointRange s
  else if s.params.permDepth < n ∨ s.params.outDepth < 2 * n then raised .outAndPerm .capacity s
  else
    let c := encipher cps (inputLength s) (hashVector s)
    completed (storeCipher (hexStr c.bytes) c s)

/-- ENCRYPT (R117). -/
def execEncrypt (s : State) : Host.Outcome State Fault Refusal :=
  if hashSize s = 0 then raised .outAndPerm .emptyHash s
  else if inputTooLong s then raised .outAndPerm .capacity s
  else match utf8Decode (inputBytes s) with
    | none => raised .outAndPerm .malformedText s
    | some cps => encryptPoints cps s

/-- DECRYPT after its hex was decoded to `d` (R118). -/
def decryptBytes (d : List Byte) (s : State) : Host.Outcome State Fault Refusal :=
  if d.length % hashSize s ≠ 0 then raised .outAndPerm .ciphertextLength s
  else if s.params.permDepth < d.length then raised .outAndPerm .capacity s
  else
    let c := decipher d (hashVector s)
    let out := utf8Encode c.bytes
    if s.params.outDepth < out.length then raised .outAndPerm .capacity s
    else completed (storeCipher out c s)

/-- DECRYPT (R118). -/
def execDecrypt (s : State) : Host.Outcome State Fault Refusal :=
  if hashSize s = 0 then raised .outAndPerm .emptyHash s
  else if inputTooLong s then raised .outAndPerm .capacity s
  else if inputLength s = 0 ∨ inputLength s % 2 = 1 then raised .outAndPerm .malformedCiphertext s
  else if allHex (inputBytes s) = false then raised .outAndPerm .malformedCiphertext s
  else decryptBytes (hexDecode (inputBytes s)) s

end Sys2Proof.Machine
end

