-- ==== Sys2Proof/Machine/Bus.lean ====
section
/-! DEFINITION. The bus-slave port (spec/20_memory.md): the address map (R49), the bus errors (R54 to R56), the
register map (spec/10_state.md R23 to R35), and the two transactions BusWrite (R57) and BusRead (R58) with the
busy window of R44. -/

namespace Sys2Proof.Machine

/-! ### The address map (R49) -/

/-- The regions of the address map. -/
inductive Region where
  | registers
  | hv
  | prime
  | inBuf
  | outBuf
  | perm
  deriving DecidableEq, Repr

/-- One row of R49: the mapped part of a region, and whether it takes 1- and 2-byte accesses. -/
structure MapRow where
  region : Region
  /-- The first mapped offset. -/
  base : Nat
  /-- How many offsets are mapped. -/
  size : Nat
  /-- 1-, 2- and 4-byte accesses (R54); otherwise 4-byte accesses only. -/
  anyWidth : Bool
  deriving DecidableEq, Repr

/-- The first offset of the HV window (R36). -/
def hvBase : Nat := 0x400

/-- The first offset of the PRIME window (R37). -/
def primeBase : Nat := 0x800

/-- HV_DEPTH (R7, R35). -/
def hvDepth : Nat := 255

/-- The address map of R49. -/
def addressMap (p : Config.Params) : List MapRow :=
  [ { region := .registers, base := 0x000, size := 0x40, anyWidth := false },
    { region := .hv, base := hvBase, size := 4 * hvDepth, anyWidth := false },
    { region := .prime, base := primeBase, size := 4 * primeCount, anyWidth := false },
    { region := .inBuf, base := inBase, size := p.inDepth, anyWidth := true },
    { region := .outBuf, base := outBase, size := p.outDepth, anyWidth := true },
    { region := .perm, base := permBase, size := 4 * p.permDepth, anyWidth := false } ]

/-- The row's mapped part holds the offset. -/
def MapRow.holds (r : MapRow) (a : Nat) : Bool := decide (r.base ≤ a) && decide (a < r.base + r.size)

/-- The row that maps an offset; `none` when the offset is unmapped (R49). -/
def rowAt (p : Config.Params) (a : Nat) : Option MapRow := (addressMap p).find? fun r => r.holds a

/-- The width is allowed for the region (R54). -/
def widthAllowed (r : MapRow) (n : Nat) : Bool := n == 4 || (r.anyWidth && (n == 1 || n == 2))

/-- R56: the row in which an access of `n` bytes at offset `a` is performed, or `none` for a bus error:
(d) `n` is not 1, 2 or 4, (c) it is misaligned, (a) one of its bytes is unmapped, or (b) its width is not
allowed for the region. -/
def accessRow (p : Config.Params) (a n : Nat) : Option MapRow :=
  if !(n == 1 || n == 2 || n == 4) then none
  else if a % n ≠ 0 then none
  else if (List.range n).any (fun i => (rowAt p (a + i)).isNone) then none
  else (rowAt p a).filter fun r => widthAllowed r n

/-! ### The registers (R23) -/

/-- The sixteen registers of R23. -/
inductive Reg where
  | id
  | version
  | cmd
  | status
  | inLen
  | outLen
  | hvSize
  | permLen
  | irqEn
  | irqStatus
  | capIn
  | capOut
  | capPerm
  | primeCount
  | primeBound
  | hvDepth
  deriving DecidableEq, Repr

/-- The registers in the order of their offsets, 4 bytes each from 0x000 (R23). -/
def registerMap : List Reg :=
  [.id, .version, .cmd, .status, .inLen, .outLen, .hvSize, .permLen, .irqEn, .irqStatus, .capIn,
    .capOut, .capPerm, .primeCount, .primeBound, .hvDepth]

/-- The register at an offset (R23). -/
def regAt (a : Nat) : Option Reg := registerMap[a / 4]?

/-- The ID constant (R24). -/
def idValue : Word := 0x4B485645

/-- The VERSION constant (R25). -/
def versionValue : Word := 0x00000001

/-- A register's value with reserved bits 0 (R58, R24 to R35), outside the busy window's exceptions. -/
def regValue (s : State) : Reg → Word
  | .id => idValue
  | .version => versionValue
  | .cmd => s.cmd
  | .status => statusWord s.status
  | .inLen => s.inLen
  | .outLen => s.outLen
  | .hvSize => s.hvSize.setWidth 32
  | .permLen => s.permLen
  | .irqEn => (bit s.irqEn).setWidth 32
  | .irqStatus => (bit s.irqDone).setWidth 32
  | .capIn => BitVec.ofNat 32 s.params.inDepth
  | .capOut => BitVec.ofNat 32 s.params.outDepth
  | .capPerm => BitVec.ofNat 32 s.params.permDepth
  | .primeCount => BitVec.ofNat 32 primeCount
  | .primeBound => BitVec.ofNat 32 primeBound
  | .hvDepth => BitVec.ofNat 32 hvDepth

/-- The registers whose read is unspecified while BUSY = 1 (R44). -/
def regHiddenWhenBusy : Reg → Bool
  | .outLen => true
  | .hvSize => true
  | .permLen => true
  | _ => false

/-- A host write that the busy window drops (R44): performed when idle, dropped with WBUSY set when
BUSY = 1. -/
def guardedWrite (perform : State → State) (s : State) : State :=
  if s.status.busy then dropWrite s else perform s

/-- The register write rules (R24 to R35). -/
def writeReg (r : Reg) (v : Word) (s : State) : State :=
  match r with
  | .cmd => guardedWrite (accept v) s
  | .status => { s with status := writtenStatus v s.status }
  | .inLen => guardedWrite (fun s => { s with inLen := v }) s
  | .hvSize => guardedWrite (fun s => { s with hvSize := v.setWidth 8 }) s
  | .irqEn => { s with irqEn := v.getLsbD 0 }
  | .irqStatus => { s with irqDone := writtenIrqDone v s.irqDone }
  | .id => s
  | .version => s
  | .outLen => s
  | .permLen => s
  | .capIn => s
  | .capOut => s
  | .capPerm => s
  | .primeCount => s
  | .primeBound => s
  | .hvDepth => s

/-! ### Byte order (R50) -/

/-- The bytes of the write data of an `n`-byte access at ascending offsets (R50). -/
def dataBytes (n : Nat) (v : Word) : List Byte := (List.range n).map fun i => v.extractLsb' (8 * i) 8

/-- The data of an access whose bytes at ascending offsets are given: bits `8*i+7 : 8*i` are byte `i`
(R50). -/
def dataOfBytes : List Byte → Nat
  | [] => 0
  | b :: bs => b.toNat + 256 * dataOfBytes bs

/-! ### BusWrite (R57) -/

/-- One HV entry is written (R36, R57). -/
def writeHvEntry (i : Nat) (b : Byte) (s : State) : State :=
  { s with hv := s.hv.setIfInBounds i b }

/-- A byte string is written into IN_BUF from buffer index `o` (R57). -/
def setIn (o : Nat) (bs : List Byte) (s : State) : State :=
  { s with mem := s.mem.writeBytes (inBase + o) bs }

/-- `BusWrite(off, n, v)` that R56 does not reject, in region `g` (R57). -/
def performWrite (g : Region) (a n : Nat) (v : Word) (s : State) : State :=
  match g with
  | .inBuf => guardedWrite (setIn (a - inBase) (dataBytes n v)) s
  | .outBuf => s
  | .perm => s
  | .prime => s
  | .hv => guardedWrite (writeHvEntry ((a - hvBase) / 4) (v.setWidth 8)) s
  | .registers => match regAt a with
    | some r => writeReg r v s
    | none => s

/-! ### BusRead (R58) -/

/-- The value of a read in region `g` outside the busy window's exceptions (R58). -/
def storedData (s : State) (g : Region) (a n : Nat) : Word :=
  match g with
  | .inBuf => BitVec.ofNat 32 (dataOfBytes ((List.range n).map fun i => inByte s (a - inBase + i)))
  | .outBuf => BitVec.ofNat 32 (dataOfBytes ((List.range n).map fun i => outByte s (a - outBase + i)))
  | .perm => (permEntry s ((a - permBase) / 4)).setWidth 32
  | .hv => (s.hv.toList.getD ((a - hvBase) / 4) 0).setWidth 32
  | .prime => BitVec.ofNat 32 (prime ((a - primeBase) / 4))
  | .registers => ((regAt a).map (regValue s)).getD 0

/-- The read returns an unspecified value while BUSY = 1 (R44, R58). -/
def hiddenWhenBusy (g : Region) (a : Nat) : Bool :=
  match g with
  | .inBuf => false
  | .outBuf => true
  | .perm => true
  | .hv => true
  | .prime => false
  | .registers => ((regAt a).map regHiddenWhenBusy).getD false

/-- The low `8 * n` bits of a datum (R46). -/
def lowBytes (n : Nat) (w : Word) : Word := BitVec.ofNat 32 (w.toNat % 2 ^ (8 * n))

/-- `BusRead(off, n)` that R56 does not reject, in region `g` (R58). Nothing of the spec's state changes;
a read in the busy window takes a fresh draw (V3, log 6). -/
def performRead (g : Region) (a n : Nat) (s : State) : State :=
  if s.status.busy && hiddenWhenBusy g a then
    { s with response := some (.okayRead n (lowBytes n (Config.freeWord s.draws))), draws := s.draws + 1 }
  else { s with response := some (.okayRead n (storedData s g a n)) }

/-! ### Transactions -/

/-- A transaction that was not rejected is performed in one step with its response (R46, R47, R59). -/
def performTransaction (g : Region) (t : Transaction) (s : State) : State :=
  match t with
  | .read off n => performRead g off.toNat n s
  | .write off n v => { performWrite g off.toNat n v s with response := some .okayWrite }

/-- The offset of a transaction. -/
def transactionOffset : Transaction → Offset
  | .read off _ => off
  | .write off _ _ => off

/-- The size of a transaction in bytes. -/
def transactionSize : Transaction → Nat
  | .read _ n => n
  | .write _ n _ => n

/-- One transaction of the port: a bus error while `rst_n` is low (R151), a bus error in the cases of R56,
and otherwise its effect. -/
def busStep (t : Transaction) (s : State) : Host.Outcome State Fault Refusal :=
  if s.rstN = false then .fault (.busErrorInReset (transactionOffset t) (transactionSize t))
  else match accessRow s.params (transactionOffset t).toNat (transactionSize t) with
    | none => .fault (.busError (transactionOffset t) (transactionSize t))
    | some r => .next (performTransaction r.region t s)

end Sys2Proof.Machine
end

