-- ==== Sys2Proof/Machine/Dispatch.lean ====
section
/-! DEFINITION. The dispatch of a decoded command to its meaning (spec/60_exceptions.md R128): one arm for
each constructor of Instr, each a direct call of the instruction's own definition. -/

namespace Sys2Proof.Machine

def exec (i : Instr) (s : State) : Host.Outcome State Fault Refusal :=
  match i with
  | .nop => Sys2Proof.Machine.execNop s
  | .hash size => Sys2Proof.Machine.execHash size s
  | .hexhv => Sys2Proof.Machine.execHexhv s
  | .permute n => Sys2Proof.Machine.execPermute n s
  | .encrypt => Sys2Proof.Machine.execEncrypt s
  | .decrypt => Sys2Proof.Machine.execDecrypt s

end Sys2Proof.Machine
end

