-- ==== Sys2Proof/Machine/Engine.lean ====
section
/-! DEFINITION. The engine's completion step (spec/60_exceptions.md R128) and what each event of the total order
does (spec/10_state.md R21, spec/20_memory.md R62). -/

namespace Sys2Proof.Machine

/-- The completion step of R128: decode CMD, and run the command or end with ILLEGAL_COMMAND (R78). -/
def completionStep (s : State) : Host.Outcome State Fault Refusal :=
  match decode s.cmd with
  | .ok i => exec i s
  | .error _ => raised .nothing .illegalCommand s

/-- The engine has a step exactly while BUSY = 1 (R128) and reset is not asserted (R151). -/
def engineEnabled (s : State) : Bool := s.rstN && s.status.busy

/-- The engine's turn. Without an enabled step nothing happens (R128, R146, log 2). -/
def engineTurn (s : State) : Host.Outcome State Fault Refusal :=
  if engineEnabled s then completionStep s else .next s

/-- One event at a state from whose schedule it was taken. -/
def perform (e : Event) (s : State) : Host.Outcome State Fault Refusal :=
  match e with
  | .bus t => busStep t s
  | .engine => engineTurn s
  | .resetLow => .next (assertReset s)
  | .resetHigh => .next (releaseReset s)

/-- One step: the first event of the schedule; once the schedule is used up, the engine's turn, so that
an accepted command always completes (R163, log 2, log 16). -/
def stepEvent (s : State) : Host.Outcome State Fault Refusal :=
  match s.schedule with
  | [] => engineTurn s
  | e :: rest => perform e { s with schedule := rest }

/-- The state in which the engine's next turn runs the command word `w`: `w` is accepted (R127), `rst_n`
is high and the engine's turn comes first (log 3). -/
def placeCommand (w : Word) (s : State) : State :=
  { accept w s with rstN := true, schedule := .engine :: s.schedule }

end Sys2Proof.Machine
end

