-- ==== Sys2Proof/Machine/Step.lean ====
section
/-! DEFINITION. The step of the machine, and the placing of one command word where the next step runs it
(log 3). -/

namespace Sys2Proof.Machine

/-- One step of KHVE: one event of the total order of spec/20_memory.md R62. -/
def step (s : State) : Host.Outcome State Fault Refusal := stepEvent s

/-- `s` with the command word `w` of `nbits` bits (the bits above are 0) accepted and about to run. -/
def State.withFetchWord (s : State) (nbits w : Nat) : State :=
  placeCommand (BitVec.ofNat 32 (w % 2 ^ nbits)) s

end Sys2Proof.Machine
end

