-- ==== Sys2Proof/Machine/Assembler.lean ====
section
/-! DEFINITION. The assembler syntax of spec/30_encoding.md R80 and R81. It is not normative for the hardware
(spec/92_eei_decisions.md D29): no step of the machine uses it. -/

namespace Sys2Proof.Machine

/-- Why the assembler rejects a line (R80). The names are the model's (DESIGN CHOICE, log 19). -/
inductive AsmError where
  /-- No mnemonic of R80. -/
  | unknownMnemonic
  /-- The operand is neither a decimal nor a `0x` hexadecimal number. -/
  | badNumber
  /-- `size` > 255 or `n` > 65535. -/
  | operandOutOfRange
  /-- PERMUTE without its operand. -/
  | missingOperand
  /-- An operand on NOP, HEXHV, ENCRYPT or DECRYPT, or more than one operand. -/
  | unexpectedOperand
  deriving DecidableEq, Repr

/-- The words of a line, separated by spaces; `word` is the word being read, reversed. -/
def splitWords : (word : List Char) → List Char → List (List Char)
  | word, [] => if word.isEmpty then [] else [word.reverse]
  | word, c :: cs =>
    if c = ' ' then (if word.isEmpty then splitWords [] cs else word.reverse :: splitWords [] cs)
    else splitWords (c :: word) cs

/-- The value of a digit character, upper or lower case. -/
def digitValue (c : Char) : Option Nat :=
  if 48 ≤ c.toNat ∧ c.toNat ≤ 57 then some (c.toNat - 48)
  else if 97 ≤ c.toNat ∧ c.toNat ≤ 102 then some (c.toNat - 97 + 10)
  else if 65 ≤ c.toNat ∧ c.toNat ≤ 70 then some (c.toNat - 65 + 10)
  else none

/-- The number whose digits in the given base follow the value `acc` already read. -/
def digitsValue (base : Nat) : (acc : Nat) → List Char → Option Nat
  | acc, [] => some acc
  | acc, c :: cs =>
    match digitValue c with
    | some d => if d < base then digitsValue base (base * acc + d) cs else none
    | none => none

/-- A decimal or `0x` hexadecimal operand (R80). -/
def operandValue : List Char → Option Nat
  | [] => none
  | ['0', 'x'] => none
  | '0' :: 'x' :: cs => digitsValue 16 0 cs
  | cs => digitsValue 10 0 cs

/-- A mnemonic's letters in upper case: mnemonics are case-insensitive (R80). -/
def upperCase (m : List Char) : List Char :=
  m.map fun c => if 97 ≤ c.toNat ∧ c.toNat ≤ 122 then Char.ofNat (c.toNat - 32) else c

/-- A mnemonic that takes no operand. -/
def assembleZ (i : Instr) : List Nat → Except AsmError Instr
  | [] => .ok i
  | _ => .error .unexpectedOperand

/-- HASH: one operand in 0..255, or none, which means HASH 8 (R80, R81). -/
def assembleHash : List Nat → Except AsmError Instr
  | [] => .ok (.hash 8)
  | [size] => if size ≤ 255 then .ok (.hash size) else .error .operandOutOfRange
  | _ => .error .unexpectedOperand

/-- PERMUTE: one operand in 0..65535 (R80). -/
def assemblePermute : List Nat → Except AsmError Instr
  | [] => .error .missingOperand
  | [n] => if n ≤ 65535 then .ok (.permute n) else .error .operandOutOfRange
  | _ => .error .unexpectedOperand

/-- A mnemonic in upper case with its operands (R80). -/
def assembleCommand (m : List Char) (ops : List Nat) : Except AsmError Instr :=
  if m = ['N', 'O', 'P'] then assembleZ .nop ops
  else if m = ['H', 'A', 'S', 'H'] then assembleHash ops
  else if m = ['H', 'E', 'X', 'H', 'V'] then assembleZ .hexhv ops
  else if m = ['P', 'E', 'R', 'M', 'U', 'T', 'E'] then assemblePermute ops
  else if m = ['E', 'N', 'C', 'R', 'Y', 'P', 'T'] then assembleZ .encrypt ops
  else if m = ['D', 'E', 'C', 'R', 'Y', 'P', 'T'] then assembleZ .decrypt ops
  else .error .unknownMnemonic

/-- The operands of a line as numbers; `none` when one is no number. -/
def operandValues : List (List Char) → Option (List Nat)
  | [] => some []
  | w :: ws =>
    match operandValue w, operandValues ws with
    | some n, some ns => some (n :: ns)
    | _, _ => none

/-- The command that a line of assembly names (R80, R81). -/
def parseLine (line : List Char) : Except AsmError Instr :=
  match splitWords [] line with
  | [] => .error .unknownMnemonic
  | m :: ws =>
    match operandValues ws with
    | none => .error .badNumber
    | some ops => assembleCommand (upperCase m) ops

/-- The word that a line of assembly stands for (R80, R84). -/
def assemble (line : List Char) : Except AsmError Word := (parseLine line).map encode

end Sys2Proof.Machine
end

