-- ==== Sys2Proof/Safety.lean ====
section
/-! DEFINITION. The terms that claims use: the invariant of the machine, the address map in plain numbers, the
busy rule a host must keep (spec/70_reset_and_hazards.md R156), the inputs of a command (spec/10_state.md R45) and what
it leaves unchanged, and the table of well-formed UTF-8 (spec/42_cipher.md R110). -/

namespace Sys2Proof.Machine

/-! ### The invariant -/

/-- An address at which a byte of IN_BUF, OUT_BUF or of a PERM entry is stored (R38, R39, R40). -/
def isStored (p : Config.Params) (a : Nat) : Prop :=
  (inBase ≤ a ∧ a < inBase + p.inDepth) ∨ (outBase ≤ a ∧ a < outBase + p.outDepth) ∨
    (permBase ≤ a ∧ a < permBase + 4 * p.permDepth ∧ (a - permBase) % 4 < 2)

/-- The spec's state is that of R43. The model's own fields may be anything. -/
def holdsReset (s : State) : Prop :=
  s.cmd = 0 ∧ s.status = Status.reset ∧ s.inLen = 0 ∧ s.outLen = 0 ∧ s.hvSize = 0 ∧ s.permLen = 0 ∧
    s.irqEn = false ∧ s.irqDone = false ∧ s.hv = Vector.replicate 255 0 ∧ s.mem = []

/-- What holds at reset and is kept by every step. -/
structure Inv (s : State) : Prop where
  /-- The parameters are in their legal ranges (R8). -/
  params : s.params.Legal
  /-- The memory has its canonical form. -/
  canonical : Memory.wf s.mem
  /-- Only buffer bytes are stored. -/
  stored : ∀ c ∈ s.mem, isStored s.params c.1
  /-- STATUS is one of the legal combinations (R27), so ERRCODE is at most 8 (R126). -/
  status : legalStatus s.status = true
  /-- While `rst_n` is low the machine holds the reset state (R151). -/
  reset : s.rstN = false → holdsReset s
  /-- The next draw is a fresh one. -/
  fresh : s.inDraw < s.draws ∧ s.outDraw < s.draws ∧ s.permDraw < s.draws

/-! ### Bus accesses in plain numbers -/

/-- The offset is mapped (R49). -/
def isMapped (p : Config.Params) (a : Nat) : Prop :=
  a < 0x40 ∨ (0x400 ≤ a ∧ a < 0x7FC) ∨ (0x800 ≤ a ∧ a < 0xAA0) ∨ (0x10000 ≤ a ∧ a < 0x10000 + p.inDepth) ∨
    (0x20000 ≤ a ∧ a < 0x20000 + p.outDepth) ∨ (0x40000 ≤ a ∧ a < 0x40000 + 4 * p.permDepth)

/-- The access of `n` bytes at offset `a` is not rejected by R56. -/
def isAccepted (p : Config.Params) (a n : Nat) : Prop :=
  (n = 1 ∨ n = 2 ∨ n = 4) ∧ a % n = 0 ∧ (∀ i < n, isMapped p (a + i)) ∧
    (n = 4 ∨ (0x10000 ≤ a ∧ a < 0x40000))

/-- A write target of the busy window (R44): CMD, IN_LEN, HV_SIZE, HV and IN_BUF. -/
def isBusyWriteTarget (a : Nat) : Prop :=
  a = 0x008 ∨ a = 0x010 ∨ a = 0x018 ∨ (0x400 ≤ a ∧ a < 0x800) ∨ (0x10000 ≤ a ∧ a < 0x20000)

/-- A read target of the busy window (R44): OUT_LEN, HV_SIZE, PERM_LEN, HV, OUT_BUF and PERM. -/
def isBusyReadTarget (a : Nat) : Prop :=
  a = 0x014 ∨ a = 0x018 ∨ a = 0x01C ∨ (0x400 ≤ a ∧ a < 0x800) ∨ 0x20000 ≤ a

/-- The transaction keeps the busy rule of R156 in a state with BUSY = 1. -/
def keepsBusyRule : Transaction → Prop
  | .read off _ => ¬ isBusyReadTarget off.toNat
  | .write off _ _ => ¬ isBusyWriteTarget off.toNat

/-- The transaction is not rejected by R56. -/
def isPerformed (p : Config.Params) (t : Transaction) : Prop :=
  isAccepted p (transactionOffset t).toNat (transactionSize t)

/-! ### The table of well-formed UTF-8 (R110) -/

/-- The rows of R110: the least and the greatest value of each byte of a well-formed sequence. -/
def utf8Rows : List (List (Nat × Nat)) :=
  [ [(0x00, 0x7F)],
    [(0xC2, 0xDF), (0x80, 0xBF)],
    [(0xE0, 0xE0), (0xA0, 0xBF), (0x80, 0xBF)],
    [(0xE1, 0xEC), (0x80, 0xBF), (0x80, 0xBF)],
    [(0xEE, 0xEF), (0x80, 0xBF), (0x80, 0xBF)],
    [(0xED, 0xED), (0x80, 0x9F), (0x80, 0xBF)],
    [(0xF0, 0xF0), (0x90, 0xBF), (0x80, 0xBF), (0x80, 0xBF)],
    [(0xF1, 0xF3), (0x80, 0xBF), (0x80, 0xBF), (0x80, 0xBF)],
    [(0xF4, 0xF4), (0x80, 0x8F), (0x80, 0xBF), (0x80, 0xBF)] ]

/-- The bytes are a sequence of the row: as many as it has, each in its range. -/
def fitsRow : (row : List (Nat × Nat)) → List Byte → Bool
  | [], [] => true
  | r :: row, b :: q => decide (r.1 ≤ b.toNat) && decide (b.toNat ≤ r.2) && fitsRow row q
  | [], _ :: _ => false
  | _ :: _, [] => false

/-- The last column of R110: the code point of a well-formed sequence, by its length. -/
def rowPoint : List Byte → Nat
  | [b1] => b1.toNat
  | [b1, b2] => (b1.toNat &&& 0x1F) <<< 6 ||| (b2.toNat &&& 0x3F)
  | [b1, b2, b3] => (b1.toNat &&& 0x0F) <<< 12 ||| (b2.toNat &&& 0x3F) <<< 6 ||| (b3.toNat &&& 0x3F)
  | [b1, b2, b3, b4] =>
    (b1.toNat &&& 0x07) <<< 18 ||| (b2.toNat &&& 0x3F) <<< 12 ||| (b3.toNat &&& 0x3F) <<< 6 |||
      (b4.toNat &&& 0x3F)
  | _ => 0

/-! ### What a command reads (R45) -/

/-- The two states agree on the inputs in the command's column "reads" of R45; CMD is the command itself. -/
def sameReads (i : Instr) (s t : State) : Prop :=
  match i with
  | .nop => True
  | .hash _ => t.inLen = s.inLen ∧ inputBytes t = inputBytes s
  | .hexhv => t.hvSize = s.hvSize ∧ hashVector t = hashVector s
  | .permute _ => t.hvSize = s.hvSize ∧ hashVector t = hashVector s
  | .encrypt | .decrypt =>
    t.inLen = s.inLen ∧ inputBytes t = inputBytes s ∧ t.hvSize = s.hvSize ∧ hashVector t = hashVector s

/-! ### What is left unchanged -/

/-- The two states read the same byte at every address that `P` admits. -/
def sameBytes (P : Nat → Prop) (s t : State) : Prop := ∀ a, P a → readByte t a = readByte s a

/-- CMD, IN_LEN, IRQ_EN, the parameters and the level of `rst_n` are unchanged, and so are the schedule and
the port's last response: no command touches them (R45, R130). -/
def sameControl (s t : State) : Prop :=
  t.cmd = s.cmd ∧ t.inLen = s.inLen ∧ t.irqEn = s.irqEn ∧ t.params = s.params ∧ t.rstN = s.rstN ∧
    t.schedule = s.schedule ∧ t.response = s.response

/-- HV and HV_SIZE are unchanged. -/
def sameHash (s t : State) : Prop := t.hv = s.hv ∧ t.hvSize = s.hvSize

/-- The inputs of a running command are unchanged (R63): CMD, IN_LEN, HV_SIZE, HV and IN_BUF. -/
def sameInputs (s t : State) : Prop :=
  t.cmd = s.cmd ∧ t.inLen = s.inLen ∧ sameHash s t ∧ t.params = s.params ∧
    sameBytes (fun a => a < outBase) s t

/-- The completion effects of a success (R128, R129), WBUSY unchanged. -/
def endsWell (s t : State) : Prop :=
  t.status = { busy := false, done := true, err := false, wbusy := s.status.wbusy, errCode := 0 } ∧
    t.irqDone = true

/-- The completion effects of an error (R128, R130) with its code, WBUSY unchanged. -/
def endsWithError (code : BitVec 4) (s t : State) : Prop :=
  t.status = { busy := false, done := true, err := true, wbusy := s.status.wbusy, errCode := code } ∧
    t.irqDone = true

end Sys2Proof.Machine
end

