-- ==== Sys2Proof/Certificates/Slice0/Obligations.lean ====
section
/-! DEFINITION. The statements for the provers, from the numbered rules of spec/. Each docstring names the rule. -/

open Sys2Proof Sys2Proof.Machine

/-! ### Encoding (30_encoding.md) -/

/-- R71, R76, R80: decoding the encoding of a well-formed command gives it back, from the word, from its
four bytes, and from the table's numbering of its bits. -/
def Obligations.EncodedCommandsDecode : Prop :=
  ∀ i : Instr, i.WellFormed →
    decode (encode i) = .ok i ∧ decodeBytes (encodeBytes i) = .ok i ∧
      decodeTableWord 32 (encode i).toNat = some i

/-- R71, R73, R76: each word that decodes carries exactly the command's encoding, and the command is
well-formed. -/
def Obligations.DecodedWordsEncodeBack : Prop :=
  ∀ (w : Word) (i : Instr), decode w = .ok i → i.WellFormed ∧ encode i = w

/-- R75: a word selects a command exactly when `(w & mask) = match` for its row, with SIZE and N read from
their fields, and no word matches two rows. -/
def Obligations.DecodeMatchesOpcodeTable : Prop :=
  ∀ w : Word,
    (decode w = .ok .nop ↔ w &&& 0xFFFFFFFF#32 = 0x00000000#32) ∧
    (∀ size, decode w = .ok (.hash size) ↔
      (w &&& 0xFFFF00FF#32 = 0x00000001#32 ∧ size = w.toNat / 2 ^ 8 % 2 ^ 8)) ∧
    (decode w = .ok .hexhv ↔ w &&& 0xFFFFFFFF#32 = 0x00000002#32) ∧
    (∀ n, decode w = .ok (.permute n) ↔
      (w &&& 0x0000FFFF#32 = 0x00000003#32 ∧ n = w.toNat / 2 ^ 16)) ∧
    (decode w = .ok .encrypt ↔ w &&& 0xFFFFFFFF#32 = 0x00000004#32) ∧
    (decode w = .ok .decrypt ↔ w &&& 0xFFFFFFFF#32 = 0x00000005#32) ∧
    (([(0x00000000#32, 0xFFFFFFFF#32), (0x00000001#32, 0xFFFF00FF#32), (0x00000002#32, 0xFFFFFFFF#32),
        (0x00000003#32, 0x0000FFFF#32), (0x00000004#32, 0xFFFFFFFF#32),
        (0x00000005#32, 0xFFFFFFFF#32)] : List (Word × Word)).countP
      (fun row => w &&& row.2 == row.1) ≤ 1)

/-- R84: the example words decode to their commands, and the illegal ones to none. -/
def Obligations.ExampleWordsDecode : Prop :=
  decode 0x00000000 = .ok .nop ∧ decode 0x00000801 = .ok (.hash 8) ∧ decode 0x00000101 = .ok (.hash 1) ∧
    decode 0x0000FF01 = .ok (.hash 255) ∧ decode 0x00000001 = .ok (.hash 0) ∧
    decode 0x00000002 = .ok .hexhv ∧ decode 0x00040003 = .ok (.permute 4) ∧
    decode 0x00100003 = .ok (.permute 16) ∧ decode 0x00000003 = .ok (.permute 0) ∧
    decode 0x00000004 = .ok .encrypt ∧ decode 0x00000005 = .ok .decrypt ∧
    decode 0x00000006 = .error .reservedOpcode ∧ decode 0x00000014 = .error .reservedField ∧
    decode 0x00000104 = .error .unusedField ∧ decode 0x00010801 = .error .unusedField

/-- R80, R81: the word that each of the six mnemonics assembles to, with no operand and with one; the operands
that are rejected; and a line with the mnemonic in any letter case, its operand in decimal or in hexadecimal,
stands for that word or is rejected so. That a rejection is told by one of the names of AsmError is the
model's choice (log 19). -/
def Obligations.AssemblerFollowsEncoding : Prop :=
  (∀ p ∈ ([(['N', 'O', 'P'], 0x00000000#32), (['H', 'E', 'X', 'H', 'V'], 0x00000002#32),
        (['E', 'N', 'C', 'R', 'Y', 'P', 'T'], 0x00000004#32),
        (['D', 'E', 'C', 'R', 'Y', 'P', 'T'], 0x00000005#32)] : List (List Char × Word)),
      (assembleCommand p.1 []).map encode = .ok p.2 ∧
        ∀ k, assembleCommand p.1 [k] = .error .unexpectedOperand) ∧
  (assembleCommand ['H', 'A', 'S', 'H'] []).map encode = .ok 0x00000801#32 ∧
  (∀ size, (assembleCommand ['H', 'A', 'S', 'H'] [size]).map encode =
    if size ≤ 255 then .ok (0x00000001#32 ||| (BitVec.ofNat 32 size <<< 8)) else .error .operandOutOfRange) ∧
  assembleCommand ['P', 'E', 'R', 'M', 'U', 'T', 'E'] [] = .error .missingOperand ∧
  (∀ n, (assembleCommand ['P', 'E', 'R', 'M', 'U', 'T', 'E'] [n]).map encode =
    if n ≤ 65535 then .ok (0x00000003#32 ||| (BitVec.ofNat 32 n <<< 16)) else .error .operandOutOfRange) ∧
  (∀ m a b ops, ∃ e, assembleCommand m (a :: b :: ops) = .error e) ∧
  ∀ name ∈ [['N', 'O', 'P'], ['H', 'A', 'S', 'H'], ['H', 'E', 'X', 'H', 'V'],
      ['P', 'E', 'R', 'M', 'U', 'T', 'E'], ['E', 'N', 'C', 'R', 'Y', 'P', 'T'],
      ['D', 'E', 'C', 'R', 'Y', 'P', 'T']],
    ∀ m : List Char, m.map Char.toUpper = name →
      assemble m = (assembleCommand name []).map encode ∧
        ∀ (k : Nat) (o : List Char), o = Nat.toDigits 10 k ∨ o = '0' :: 'x' :: Nat.toDigits 16 k →
          assemble (m ++ ' ' :: o) = (assembleCommand name [k]).map encode

/-! ### The step -/

/-- R128: at the engine's turn, with BUSY = 1, `rst_n` high and a command in CMD, the step is `exec` of that
command. R62: when the first event is a host transaction, the step is that transaction. R151: when the first
event is `rst_n` going high, the step releases the reset. Around each of them the step takes the event off
the schedule. That the order of the events is a list, and that a list used up gives the engine its turn, is
the model's choice (log 2). -/
def Obligations.StepRunsDecodedCommand : Prop :=
  (∀ (s : State) (i : Instr), s.rstN = true → s.status.busy = true → decode s.cmd = .ok i →
    (s.schedule = [] → step s = exec i s) ∧
      (∀ rest, s.schedule = .engine :: rest → step s = exec i { s with schedule := rest })) ∧
  (∀ (s : State) (x : Transaction) (rest : List Event), s.schedule = .bus x :: rest →
    step s = busStep x { s with schedule := rest }) ∧
  ∀ (s : State) (rest : List Event), s.schedule = .resetHigh :: rest →
    step s = .next { s with schedule := rest, rstN := true }

/-- R78: an illegal word is accepted like any other, and its completion step ends with ILLEGAL_COMMAND
(code 8) and changes nothing but STATUS and IRQ_STATUS.DONE. -/
def Obligations.IllegalWordEndsWithIllegalCommand : Prop :=
  ∀ (s : State) (w : Word) (e : DecodeError), decode w = .error e → s.rstN = true →
    s.status.busy = false → s.schedule = [.bus (.write 0x008 4 w), .engine] →
      ∃ t u, step s = .next t ∧ step t = .next u ∧ t.cmd = w ∧ t.status.busy = true ∧
        endsWithError 8 s u ∧
        u = { s with
          cmd := w, status := u.status, irqDone := true, schedule := [], response := some .okayWrite }

/-- R128, R146: while BUSY = 0 the engine has no completion step and KHVE stays as it is. That the engine's turn is
then a step of the model that changes nothing, also with the schedule used up, is the model's choice
(log 2). -/
def Obligations.EngineIdleWithoutBusy : Prop :=
  ∀ s : State, s.status.busy = false →
    (s.schedule = [] → step s = .next s) ∧
      (∀ rest, s.schedule = .engine :: rest → step s = .next { s with schedule := rest })

/-! ### Results of the commands, with their frames -/

/-- R95: NOP completes and changes no register, buffer or HV entry. -/
def Obligations.NopCompletes : Prop :=
  ∀ s : State, ∃ t, exec .nop s = .next t ∧ endsWell s t ∧ sameControl s t ∧ sameHash s t ∧
    t.outLen = s.outLen ∧ t.permLen = s.permLen ∧ sameBytes (fun _ => True) s t

/-- R96, success: HV[0..size-1] and HV_SIZE take the keyed hash of IN_BUF[0..IN_LEN-1]; the other HV entries
and everything else keep their values. -/
def Obligations.HashWritesHashVector : Prop :=
  ∀ (size : Nat) (s : State), 1 ≤ size → size ≤ 255 → s.inLen.toNat ≤ s.params.inDepth →
    ∃ t, exec (.hash size) s = .next t ∧ endsWell s t ∧ t.hvSize.toNat = size ∧
      (∀ (j : Nat) (h : j < 255), t.hv[j].toNat =
        if j < size then (keyedHash (inBytes s s.inLen.toNat) size).getD j 0 else s.hv[j].toNat) ∧
      sameControl s t ∧ t.outLen = s.outLen ∧ t.permLen = s.permLen ∧ sameBytes (fun _ => True) s t

/-- R97: HEXHV writes two hexadecimal characters for each valid HV entry, the high nibble first; the bytes
beyond and everything else keep their values. -/
def Obligations.HexhvWritesRendering : Prop :=
  ∀ s : State, ∃ t, exec .hexhv s = .next t ∧ endsWell s t ∧ t.outLen.toNat = 2 * s.hvSize.toNat ∧
    (∀ (j : Nat) (h : j < 255), j < s.hvSize.toNat →
      (outByte t (2 * j)).toNat =
          (if s.hv[j].toNat / 16 ≤ 9 then 0x30 + s.hv[j].toNat / 16 else 0x61 + (s.hv[j].toNat / 16 - 10)) ∧
        (outByte t (2 * j + 1)).toNat =
          (if s.hv[j].toNat % 16 ≤ 9 then 0x30 + s.hv[j].toNat % 16
           else 0x61 + (s.hv[j].toNat % 16 - 10))) ∧
    sameBytes (fun a => ¬ (outBase ≤ a ∧ a < outBase + 2 * s.hvSize.toNat)) s t ∧
    sameControl s t ∧ sameHash s t ∧ t.permLen = s.permLen

/-- R104, success: PERM[0..N-1] and PERM_LEN take the permutation of the hash vector in use; the other
bytes and everything else keep their values. -/
def Obligations.PermuteWritesPermutation : Prop :=
  ∀ (n : Nat) (s : State), n ≤ 65535 → 0 < s.hvSize.toNat → n ≤ s.params.permDepth →
    ∃ t, exec (.permute n) s = .next t ∧ endsWell s t ∧ t.permLen.toNat = n ∧
      (∀ r < n, (permEntry t r).toNat = (permutation (hashVector s) n).getD r 0) ∧
      sameBytes (fun a => ¬ (permBase ≤ a ∧ a < permBase + 4 * n ∧ (a - permBase) % 4 < 2)) s t ∧
      sameControl s t ∧ sameHash s t ∧ t.outLen = s.outLen

/-- R117, success: OUT_BUF and OUT_LEN take the ciphertext of the decoded text, PERM and PERM_LEN the
permutation; the other bytes, IN_BUF, HV and HV_SIZE keep their values. -/
def Obligations.EncryptWritesCiphertext : Prop :=
  ∀ (s : State) (cps : List Nat) (n : Nat), s.params.Legal → 0 < s.hvSize.toNat →
    s.inLen.toNat ≤ s.params.inDepth → utf8Decode (inBytes s s.inLen.toNat) = some cps →
    (∀ c ∈ cps, c ≤ 0xFF) → n = s.hvSize.toNat * (1 + s.inLen.toNat / s.hvSize.toNat) →
    n ≤ s.params.permDepth → 2 * n ≤ s.params.outDepth →
    ∃ t, exec .encrypt s = .next t ∧ endsWell s t ∧ t.outLen.toNat = 2 * n ∧
      outBytes t (2 * n) = hexStr (encipher cps s.inLen.toNat (hashVector s)).bytes ∧
      t.permLen.toNat = n ∧ (∀ r < n, (permEntry t r).toNat = (permutation (hashVector s) n).getD r 0) ∧
      sameBytes (fun a => ¬ (outBase ≤ a ∧ a < outBase + 2 * n) ∧
        ¬ (permBase ≤ a ∧ a < permBase + 4 * n ∧ (a - permBase) % 4 < 2)) s t ∧
      sameControl s t ∧ sameHash s t

/-- R118, success: OUT_BUF and OUT_LEN take the UTF-8 plaintext, PERM and PERM_LEN the permutation; the
other bytes, IN_BUF, HV and HV_SIZE keep their values. -/
def Obligations.DecryptWritesPlaintext : Prop :=
  ∀ (s : State) (n : Nat) (out : List Byte), s.params.Legal → 0 < s.hvSize.toNat →
    s.inLen.toNat ≤ s.params.inDepth → 0 < n → s.inLen.toNat = 2 * n →
    allHex (inBytes s s.inLen.toNat) = true → n % s.hvSize.toNat = 0 → n ≤ s.params.permDepth →
    out = utf8Encode (decipher (hexDecode (inBytes s s.inLen.toNat)) (hashVector s)).bytes →
    out.length ≤ s.params.outDepth →
    ∃ t, exec .decrypt s = .next t ∧ endsWell s t ∧ t.outLen.toNat = out.length ∧
      outBytes t out.length = out ∧
      t.permLen.toNat = n ∧ (∀ r < n, (permEntry t r).toNat = (permutation (hashVector s) n).getD r 0) ∧
      sameBytes (fun a => ¬ (outBase ≤ a ∧ a < outBase + out.length) ∧
        ¬ (permBase ≤ a ∧ a < permBase + 4 * n ∧ (a - permBase) % 4 < 2)) s t ∧
      sameControl s t ∧ sameHash s t

/-! ### Errors (60_exceptions.md) -/

/-- R131: each command reports the first check that fails, in the order of its pseudocode, and no other;
ERR says whether there is one. -/
def Obligations.FirstFailingCheckIsReported : Prop :=
  ∀ s t : State,
    (∀ e, decode s.cmd = .error e → completionStep s = .next t → t.status.errCode = 8) ∧
    (∀ size, exec (.hash size) s = .next t → t.status.errCode =
      if size = 0 then 1 else if s.params.inDepth < s.inLen.toNat then 7 else 0) ∧
    (∀ n, exec (.permute n) s = .next t → t.status.errCode =
      if s.hvSize = 0 then 2 else if s.params.permDepth < n then 7 else 0) ∧
    (exec .encrypt s = .next t → t.status.errCode =
      if s.hvSize = 0 then 2 else if s.params.inDepth < s.inLen.toNat then 7
      else match utf8Decode (inBytes s s.inLen.toNat) with
        | none => 5
        | some cps =>
          if ∃ c ∈ cps, 0xFF < c then 6
          else if s.params.permDepth < s.hvSize.toNat * (1 + s.inLen.toNat / s.hvSize.toNat) ∨
              s.params.outDepth < 2 * (s.hvSize.toNat * (1 + s.inLen.toNat / s.hvSize.toNat)) then 7
          else 0) ∧
    (exec .decrypt s = .next t → t.status.errCode =
      if s.hvSize = 0 then 2 else if s.params.inDepth < s.inLen.toNat then 7
      else if s.inLen.toNat = 0 ∨ s.inLen.toNat % 2 = 1 then 3
      else if ∃ c ∈ inBytes s s.inLen.toNat, hexVal c = none then 3
      else if s.inLen.toNat / 2 % s.hvSize.toNat ≠ 0 then 4
      else if s.params.permDepth < s.inLen.toNat / 2 then 7
      else if s.params.outDepth < (utf8Encode
          (decipher (hexDecode (inBytes s s.inLen.toNat)) (hashVector s)).bytes).length then 7
      else 0) ∧
    (exec .nop s = .next t → t.status.errCode = 0) ∧
    (exec .hexhv s = .next t → t.status.errCode = 0) ∧
    (∀ i, exec i s = .next t → (t.status.err = true ↔ t.status.errCode ≠ 0))

/-- R45, R130: what an error leaves: the inputs, HV, HV_SIZE and CMD unchanged; HASH changes nothing more;
PERMUTE clears PERM_LEN, ENCRYPT and DECRYPT also OUT_LEN. That the unspecified contents are the free values
of fresh draws is the model's form of "unspecified" (log 5). -/
def Obligations.ErrorsLeaveInputsAndClearLengths : Prop :=
  ∀ (i : Instr) (s t : State), exec i s = .next t → t.status.err = true →
    sameControl s t ∧ sameHash s t ∧ sameBytes (fun a => a < outBase) s t ∧
    match i with
    | .nop => False
    | .hash _ => t.outLen = s.outLen ∧ t.permLen = s.permLen ∧ sameBytes (fun _ => True) s t
    | .hexhv => False
    | .permute _ =>
      t.outLen = s.outLen ∧ t.permLen = 0 ∧ sameBytes (fun a => a < permBase) s t ∧
        ∀ a, permBase ≤ a → a < offsetEnd → readByte t a = Config.freeByte s.draws a
    | .encrypt | .decrypt =>
      t.outLen = 0 ∧ t.permLen = 0 ∧
        (∀ a, outBase ≤ a → a < permBase → readByte t a = Config.freeByte s.draws a) ∧
        ∀ a, permBase ≤ a → a < offsetEnd → readByte t a = Config.freeByte (s.draws + 1) a

/-- R96, R104, R117, R118, R130: on the operands that a check rejects, the command still answers a next
state, the completion with that error. -/
def Obligations.RejectedOperandsEndWithTheirError : Prop :=
  ∀ s : State,
    (∃ t, exec (.hash 0) s = .next t ∧ endsWithError 1 s t) ∧
    (∀ size, 1 ≤ size → s.params.inDepth < s.inLen.toNat →
      ∃ t, exec (.hash size) s = .next t ∧ endsWithError 7 s t) ∧
    (s.hvSize = 0 → ∀ i : Instr, i = .encrypt ∨ i = .decrypt ∨ (∃ n, i = .permute n) →
      ∃ t, exec i s = .next t ∧ endsWithError 2 s t) ∧
    (s.hvSize ≠ 0 → ∀ n, s.params.permDepth < n →
      ∃ t, exec (.permute n) s = .next t ∧ endsWithError 7 s t) ∧
    (s.hvSize ≠ 0 → s.params.inDepth < s.inLen.toNat → ∀ i : Instr, i = .encrypt ∨ i = .decrypt →
      ∃ t, exec i s = .next t ∧ endsWithError 7 s t)

/-- R128, R163: every command, on every state, answers a next state with BUSY = 0, DONE = 1,
IRQ_STATUS.DONE = 1, WBUSY as it was, and a legal STATUS: no command hangs. -/
def Obligations.EveryCommandCompletes : Prop :=
  ∀ (i : Instr) (s : State), ∃ t, exec i s = .next t ∧ t.status.busy = false ∧ t.status.done = true ∧
    t.irqDone = true ∧ t.status.wbusy = s.status.wbusy ∧ legalStatus t.status = true

/-- R45: what each command leaves unchanged on every path, success or error. -/
def Obligations.CommandsLeaveTheRestUnchanged : Prop :=
  ∀ (i : Instr) (s t : State), exec i s = .next t →
    sameControl s t ∧ sameBytes (fun a => a < outBase) s t ∧ t.inDraw = s.inDraw ∧
    match i with
    | .nop => sameHash s t ∧ t.outLen = s.outLen ∧ t.permLen = s.permLen ∧ sameBytes (fun _ => True) s t
    | .hash _ => t.outLen = s.outLen ∧ t.permLen = s.permLen ∧ sameBytes (fun _ => True) s t
    | .hexhv => sameHash s t ∧ t.permLen = s.permLen ∧ sameBytes (fun a => permBase ≤ a) s t
    | .permute _ => sameHash s t ∧ t.outLen = s.outLen ∧ sameBytes (fun a => a < permBase) s t
    | .encrypt | .decrypt => sameHash s t

/-! ### The functions (40_keyed_hash.md, 41_permutation.md, 42_cipher.md) -/

/-- R86: the table is what `generatePrimes(1000)` answers: all primes strictly less than 1000, ascending,
from 2, 3, 5, 7; R87: 168 of them. -/
def Obligations.PrimeTableIsAllPrimesBelowBound : Prop :=
  primeTable = generatePrimes 1000 ∧ (∀ p, p ∈ primeTable ↔ p.Prime ∧ p < 1000) ∧
    primeTable.Pairwise (· < ·) ∧ primeTable.take 4 = [2, 3, 5, 7] ∧ primeTable.length = 168

/-- R88, the whole of it: a hash has `size` slots, all 0 for the empty key; and after one more key byte `b`, slot
`j` is the sum, modulo 255, of the accumulator left by the bytes before (which is the last slot), of the slots up
to `j`, and of `j + 1` times `P[k] * b`, where byte `i` of the key uses `P[i mod 168]`. -/
def Obligations.HashSlotsAreRunningSums : Prop :=
  (∀ (key : List Byte) (size : Nat), (keyedHash key size).length = size) ∧
  (∀ size, keyedHash [] size = List.replicate size 0) ∧
  ∀ (key : List Byte) (b : Byte) (size j : Nat), j < size →
    (keyedHash (key ++ [b]) size).getD j 0 =
      ((keyedHash key size).getD (size - 1) 0 + ((keyedHash key size).take (j + 1)).sum +
        (j + 1) * (primeTable.getD (key.length % 168) 0 * b.toNat)) % 255

/-- R89: every slot of a hash is in 0..254, so HASH never leaves 255 in an entry it writes. -/
def Obligations.HashEntriesAreBelow255 : Prop :=
  (∀ (key : List Byte) (size : Nat), ∀ x ∈ keyedHash key size, x ≤ 254) ∧
  ∀ (size : Nat) (s t : State), exec (.hash size) s = .next t → t.status.err = false →
    ∀ (j : Nat) (h : j < 255), j < size → t.hv[j] ≠ 255

/-- R115: the value of a hex character, in lower or upper case, and none for every other byte; a string is
hexadecimal when each of its bytes is such a character; and the hex decoder of a hexadecimal string of even
length, the high nibble first. R90, R91: the rendering of a byte string is hexadecimal, twice as long, and the
hex decoder gives the string back. -/
def Obligations.HexDecodeInvertsHexEncode : Prop :=
  (∀ c : Byte, hexVal c =
    if 0x30 ≤ c.toNat ∧ c.toNat ≤ 0x39 then some (c.toNat - 0x30)
    else if 0x61 ≤ c.toNat ∧ c.toNat ≤ 0x66 then some (c.toNat - 0x61 + 10)
    else if 0x41 ≤ c.toNat ∧ c.toNat ≤ 0x46 then some (c.toNat - 0x41 + 10)
    else none) ∧
  (∀ s : List Byte, allHex s = true ↔ ∀ c ∈ s, hexVal c ≠ none) ∧
  (∀ (s : List Byte) (m : Nat), allHex s = true → s.length = 2 * m →
    (hexDecode s).length = m ∧ ∀ i < m, ∃ hi lo, hexVal (s.getD (2 * i) 0) = some hi ∧
      hexVal (s.getD (2 * i + 1) 0) = some lo ∧ ((hexDecode s).getD i 0).toNat = 16 * hi + lo) ∧
  ∀ v : List Byte, (hexStr v).length = 2 * v.length ∧ allHex (hexStr v) = true ∧ hexDecode (hexStr v) = v

/-- R101, R102: the permutation is `range(N)` rearranged, ascending by tile value and, among equal values,
by index. -/
def Obligations.PermutationIsStableSort : Prop :=
  ∀ (hv : List Byte) (n : Nat),
    (permutation hv n).Perm (List.range n) ∧
      (permutation hv n).Pairwise fun p q =>
        hv.getD (p % hv.length) 0 < hv.getD (q % hv.length) 0 ∨
          (hv.getD (p % hv.length) 0 = hv.getD (q % hv.length) 0 ∧ p < q)

/-- R103: position `p` stands at its rank, counted as the smaller values plus the equal values before it;
the permutation is a bijection of `range(N)`; equal entries leave `range(N)` as it is. -/
def Obligations.PermutationHasRankForm : Prop :=
  ∀ (hv : List Byte) (n : Nat),
    (∀ p < n, (permutation hv n)[
      ((List.range n).countP fun q => decide (hv.getD (q % hv.length) 0 < hv.getD (p % hv.length) 0)) +
        ((List.range p).countP fun q => hv.getD (q % hv.length) 0 == hv.getD (p % hv.length) 0)]? = some p) ∧
    (permutation hv n).Nodup ∧ (permutation hv n).length = n ∧
    (∀ c, (∀ x ∈ hv, x = c) → permutation hv n = List.range n)

/-- R111: the UTF-8 encoding of a code point in 0..0xFF, and for every byte string that decodes to code points
in that range, encoding the decoding gives it back. -/
def Obligations.Utf8EncodeInvertsDecode : Prop :=
  (∀ c : Byte, utf8Encode [c] =
    if c.toNat ≤ 0x7F then [c] else [0xC0 ||| (c >>> 6), 0x80 ||| (c &&& 0x3F)]) ∧
  (∀ cs ds : List Byte, utf8Encode (cs ++ ds) = utf8Encode cs ++ utf8Encode ds) ∧
  ∀ (b : List Byte) (cps : List Nat), utf8Decode b = some cps → (∀ c ∈ cps, c ≤ 0xFF) →
    utf8Encode (cps.map (BitVec.ofNat 8)) = b

/-- R110, R111: every list of code points in 0..0xFF is the decoding of its encoding. -/
def Obligations.Utf8DecodeInvertsEncode : Prop :=
  ∀ cs : List Byte, utf8Decode (utf8Encode cs) = some (cs.map BitVec.toNat)

/-- R110: the code points decoded are Unicode scalar values: below 0x110000 and no surrogates; there are at
most as many as bytes. -/
def Obligations.Utf8DecodeYieldsScalarValues : Prop :=
  ∀ (b : List Byte) (cps : List Nat), utf8Decode b = some cps →
    cps.length ≤ b.length ∧ ∀ c ∈ cps, c < 0x110000 ∧ ¬ (0xD800 ≤ c ∧ c ≤ 0xDFFF)

/-- R110, the whole of it: nothing decodes to nothing; a sequence of a row of the table, followed by any tail,
decodes to the row's code point followed by the decoding of the tail (and to `Malformed` with it); and a byte
string that begins with no sequence of the table is `Malformed`. -/
def Obligations.Utf8DecodeFollowsItsTable : Prop :=
  utf8Decode [] = some [] ∧
  (∀ row ∈ utf8Rows, ∀ q tail : List Byte, fitsRow row q = true →
    utf8Decode (q ++ tail) = (utf8Decode tail).map (rowPoint q :: ·)) ∧
  ∀ b : List Byte, b ≠ [] → (∀ row ∈ utf8Rows, fitsRow row (b.take row.length) = false) → utf8Decode b = none

/-- R112, R121: at each rank the slot at that rank's position holds the code point of the rank xor the tile
value, or the plain tile value when the rank is past the last code point; there is a padding rank. -/
def Obligations.EncipherFillsSlotsByRank : Prop :=
  ∀ (cps : List Nat) (len : Nat) (hv : List Byte), hv ≠ [] → cps.length ≤ len →
    cps.length < outputSize hv.length len ∧
    ∀ r < outputSize hv.length len, ∀ pos,
      (permutation hv (outputSize hv.length len))[r]? = some pos →
        (encipher cps len hv).bytes.getD pos 0 =
          if r < cps.length then BitVec.ofNat 8 (cps.getD r 0) ^^^ hv.getD (pos % hv.length) 0
          else hv.getD (pos % hv.length) 0

/-- R112, R116, R119: deciphering what was enciphered with the same hash vector gives the code points
without their trailing zeros. -/
def Obligations.DecipherInvertsEncipher : Prop :=
  ∀ (cps : List Nat) (len : Nat) (hv : List Byte), hv ≠ [] → cps.length ≤ len → (∀ c ∈ cps, c ≤ 0xFF) →
    (decipher (encipher cps len hv).bytes hv).bytes =
      ((cps.map (BitVec.ofNat 8)).reverse.dropWhile (· == 0)).reverse

/-- R116, the whole of it, for every list of values of a length that is a multiple of the hash size (whatever
hash vector it was made with, R122): the value of rank `r` is the value at the rank's position xor the tile
value there, the trailing zeros are stripped, and the permutation is that of the list's length. -/
def Obligations.DecipherReadsSlotsByRank : Prop :=
  ∀ d hv : List Byte, hv ≠ [] → d.length % hv.length = 0 →
    (decipher d hv).size = d.length ∧ (decipher d hv).perm = permutation hv d.length ∧
    ∃ dv : List Byte, dv.length = d.length ∧
      (∀ r < d.length, ∃ pos, (permutation hv d.length)[r]? = some pos ∧
        dv.getD r 0 = d.getD pos 0 ^^^ hv.getD (pos % hv.length) 0) ∧
      (decipher d hv).bytes = (dv.reverse.dropWhile (· == 0)).reverse

/-- R119: the round trip. ENCRYPT of a well-formed text of code points up to 0xFF whose last one is not 0, and
DECRYPT of its output copied into IN_BUF, with the same HV: DECRYPT succeeds and gives the text back. -/
def Obligations.EncryptThenDecryptGivesTextBack : Prop :=
  ∀ (s : State) (cps : List Nat) (n : Nat), s.params.Legal → 1 ≤ s.hvSize.toNat →
    utf8Decode (inBytes s s.inLen.toNat) = some cps → (∀ c ∈ cps, c ≤ 0xFF) → cps.getLast? ≠ some 0 →
    n = s.hvSize.toNat * (1 + s.inLen.toNat / s.hvSize.toNat) →
    s.inLen.toNat ≤ s.params.inDepth → n ≤ s.params.permDepth → 2 * n ≤ s.params.outDepth →
    2 * n ≤ s.params.inDepth →
    ∃ t, exec .encrypt s = .next t ∧ t.status.err = false ∧
      ∀ s2 : State, s2.params = s.params → s2.hv = s.hv → s2.hvSize = s.hvSize → s2.inLen = t.outLen →
        inBytes s2 t.outLen.toNat = outBytes t t.outLen.toNat →
        ∃ u, exec .decrypt s2 = .next u ∧ u.status.err = false ∧ u.outLen = s.inLen ∧
          outBytes u s.inLen.toNat = inBytes s s.inLen.toNat

/-- R123: the empty text enciphers to the rendering of the hash vector, and that deciphers to the empty
text. -/
def Obligations.EmptyTextRoundTrip : Prop :=
  ∀ s : State, s.params.Legal → 1 ≤ s.hvSize.toNat → s.inLen = 0 → s.hvSize.toNat ≤ s.params.permDepth →
    ∃ t, exec .encrypt s = .next t ∧ t.status.err = false ∧ t.outLen.toNat = 2 * s.hvSize.toNat ∧
      outBytes t (2 * s.hvSize.toNat) = hexStr (hashVector s) ∧
      ∀ s2 : State, s2.params = s.params → s2.hv = s.hv → s2.hvSize = s.hvSize → s2.inLen = t.outLen →
        2 * s.hvSize.toNat ≤ s.params.inDepth →
        inBytes s2 t.outLen.toNat = outBytes t t.outLen.toNat →
        ∃ u, exec .decrypt s2 = .next u ∧ u.status.err = false ∧ u.outLen = 0

/-- R120: after a successful ENCRYPT, OUT_LEN is `2 * hs * (1 + IN_LEN div hs)`. -/
def Obligations.EncryptLengthRelation : Prop :=
  ∀ s t : State, s.params.Legal → exec .encrypt s = .next t → t.status.err = false →
    t.outLen.toNat = 2 * s.hvSize.toNat * (1 + s.inLen.toNat / s.hvSize.toNat)

/-- R105: after a successful ENCRYPT or DECRYPT, PERMUTE of the length it left reproduces exactly the PERM
that it left. -/
def Obligations.PermuteReproducesCipherPermutation : Prop :=
  ∀ (i : Instr) (s t : State), i = .encrypt ∨ i = .decrypt → s.params.Legal → exec i s = .next t →
    t.status.err = false → t.permLen.toNat ≤ 65535 →
    ∃ u, exec (.permute t.permLen.toNat) t = .next u ∧ u.status.err = false ∧ u.permLen = t.permLen ∧
      ∀ r < t.permLen.toNat, permEntry u r = permEntry t r

/-- R3, R45: what a command computes depends, the parameters being given, only on the inputs in its column
'reads': HASH on IN_LEN and IN_BUF[0..IN_LEN-1], HEXHV and PERMUTE on HV_SIZE and HV[0..HV_SIZE-1], ENCRYPT and
DECRYPT on all four, NOP on none; never on what earlier commands left elsewhere. -/
def Obligations.CommandsDependOnlyOnTheirInputs : Prop :=
  ∀ (i : Instr) (s s' t : State), i.WellFormed → s'.params = s.params → sameReads i s s' →
    exec i s = .next t →
    ∃ t', exec i s' = .next t' ∧ t'.status.err = t.status.err ∧ t'.status.errCode = t.status.errCode ∧
      (t.status.err = false →
        match i with
        | .nop => True
        | .hash _ => hashVector t' = hashVector t
        | .hexhv => outBytes t' t'.outLen.toNat = outBytes t t.outLen.toNat
        | .permute _ => permEntries t' t'.permLen.toNat = permEntries t t.permLen.toNat
        | .encrypt | .decrypt =>
          outBytes t' t'.outLen.toNat = outBytes t t.outLen.toNat ∧
            permEntries t' t'.permLen.toNat = permEntries t t.permLen.toNat)

/-! ### The bus (20_memory.md, 10_state.md) -/

/-- R49, R54, R55, R56: with `rst_n` high a transaction is performed exactly when its size is 1, 2 or 4, it is
aligned, all its bytes are mapped and its width is allowed; otherwise it is a bus error, with no next
state. -/
def Obligations.BusErrorExactlyWhenRejected : Prop :=
  ∀ (s : State) (x : Transaction), s.params.Legal → s.rstN = true →
    (isAccepted s.params (transactionOffset x).toNat (transactionSize x) → ∃ t, busStep x s = .next t) ∧
    (¬ isAccepted s.params (transactionOffset x).toNat (transactionSize x) →
      busStep x s = .fault (.busError (transactionOffset x) (transactionSize x)))

/-- R58, R60: a performed read changes no part of the spec's state; the response and the draw counter are
the model's own. -/
def Obligations.ReadsChangeNothing : Prop :=
  ∀ (s t : State) (off : Offset) (n : Nat), busStep (.read off n) s = .next t →
    t = { s with response := t.response, draws := t.draws } ∧ (s.status.busy = false → t.draws = s.draws)

/-- R23 to R35, R58: what a 4-byte read of each register returns: always for the registers that the busy
window does not hide, and while BUSY = 0 for OUT_LEN, HV_SIZE and PERM_LEN. -/
def Obligations.RegisterReadsReturnTheirValues : Prop :=
  ∀ s : State, s.rstN = true →
    (∀ p ∈ ([(0x000, 0x4B485645#32), (0x004, 0x00000001#32), (0x008, s.cmd), (0x010, s.inLen),
        (0x00C, BitVec.ofNat 32 (s.status.busy.toNat + 2 * s.status.done.toNat + 4 * s.status.err.toNat +
          8 * s.status.wbusy.toNat + 256 * s.status.errCode.toNat)),
        (0x020, BitVec.ofNat 32 s.irqEn.toNat), (0x024, BitVec.ofNat 32 s.irqDone.toNat),
        (0x028, BitVec.ofNat 32 s.params.inDepth), (0x02C, BitVec.ofNat 32 s.params.outDepth),
        (0x030, BitVec.ofNat 32 s.params.permDepth), (0x034, 168#32), (0x038, 1000#32),
        (0x03C, 255#32)] : List (Offset × Word)),
      busStep (.read p.1 4) s = .next { s with response := some (.okayRead 4 p.2) }) ∧
    (s.status.busy = false →
      ∀ p ∈ ([(0x014, s.outLen), (0x018, BitVec.ofNat 32 s.hvSize.toNat), (0x01C, s.permLen)] :
          List (Offset × Word)),
        busStep (.read p.1 4) s = .next { s with response := some (.okayRead 4 p.2) })

/-- R36, R37, R40, R58: what a read of an HV entry, a PRIME entry or a PERM entry returns. -/
def Obligations.WindowReadsReturnTheirEntries : Prop :=
  ∀ s : State, s.params.Legal → s.rstN = true →
    (∀ i < 168, busStep (.read (BitVec.ofNat 19 (0x800 + 4 * i)) 4) s =
      .next { s with response := some (.okayRead 4 (BitVec.ofNat 32 (primeTable.getD i 0))) }) ∧
    (s.status.busy = false →
      (∀ (i : Nat) (h : i < 255), busStep (.read (BitVec.ofNat 19 (0x400 + 4 * i)) 4) s =
        .next { s with response := some (.okayRead 4 (BitVec.ofNat 32 s.hv[i].toNat)) }) ∧
      (∀ r < s.params.permDepth, busStep (.read (BitVec.ofNat 19 (0x40000 + 4 * r)) 4) s =
        .next { s with response := some (.okayRead 4 (BitVec.ofNat 32 (permEntry s r).toNat)) }))

/-- R50, R52, R58: a read of IN_BUF (always) or OUT_BUF (while BUSY = 0) returns the bytes at its offsets, the
first in the least significant bits, and nothing above them. -/
def Obligations.BufferReadsAreLittleEndian : Prop :=
  ∀ (s : State) (o n : Nat), s.params.Legal → s.rstN = true → n = 1 ∨ n = 2 ∨ n = 4 → o % n = 0 →
    (o + n ≤ s.params.inDepth → ∃ d : Word, d.toNat < 256 ^ n ∧
      (∀ k < n, d.extractLsb' (8 * k) 8 = inByte s (o + k)) ∧
      busStep (.read (BitVec.ofNat 19 (0x10000 + o)) n) s =
        .next { s with response := some (.okayRead n d) }) ∧
    (o + n ≤ s.params.outDepth → s.status.busy = false → ∃ d : Word, d.toNat < 256 ^ n ∧
      (∀ k < n, d.extractLsb' (8 * k) 8 = outByte s (o + k)) ∧
      busStep (.read (BitVec.ofNat 19 (0x20000 + o)) n) s =
        .next { s with response := some (.okayRead n d) })

/-- R38, R50, R57: while BUSY = 0 a write of IN_BUF stores the low `n` bytes of its data at ascending offsets
and changes nothing else. -/
def Obligations.InputWritesStoreTheirBytes : Prop :=
  ∀ (s : State) (o n : Nat) (v : Word), s.params.Legal → s.rstN = true → s.status.busy = false →
    n = 1 ∨ n = 2 ∨ n = 4 → o % n = 0 → o + n ≤ s.params.inDepth →
    ∃ t, busStep (.write (BitVec.ofNat 19 (0x10000 + o)) n v) s = .next t ∧
      t = { s with mem := t.mem, response := some .okayWrite } ∧
      (∀ k < n, inByte t (o + k) = v.extractLsb' (8 * k) 8) ∧
      sameBytes (fun a => ¬ (inBase + o ≤ a ∧ a < inBase + o + n)) s t

/-- R27, R28, R30, R32, R33, R36, R57: what a 4-byte write of each writable register and of an HV entry does
when it is not dropped. -/
def Obligations.RegisterWritesTakeEffect : Prop :=
  ∀ (s : State) (v : Word), s.rstN = true →
    busStep (.write 0x00C 4 v) s = .next { s with
      status := { s.status with wbusy := s.status.wbusy && !v.getLsbD 3 }, response := some .okayWrite } ∧
    busStep (.write 0x020 4 v) s = .next { s with irqEn := v.getLsbD 0, response := some .okayWrite } ∧
    busStep (.write 0x024 4 v) s = .next { s with
      irqDone := s.irqDone && !v.getLsbD 0, response := some .okayWrite } ∧
    (s.status.busy = false →
      busStep (.write 0x010 4 v) s = .next { s with inLen := v, response := some .okayWrite } ∧
      busStep (.write 0x018 4 v) s = .next { s with
        hvSize := BitVec.ofNat 8 v.toNat, response := some .okayWrite } ∧
      ∀ (i : Nat) (h : i < 255), busStep (.write (BitVec.ofNat 19 (0x400 + 4 * i)) 4 v) s = .next { s with
        hv := s.hv.set i (BitVec.ofNat 8 v.toNat), response := some .okayWrite })

/-- R127: a CMD write performed while BUSY = 0 latches the word and sets BUSY, and clears DONE, ERR and
ERRCODE, whatever the word; WBUSY, IRQ_STATUS.DONE and all else are unchanged. -/
def Obligations.CommandWriteIsAccepted : Prop :=
  ∀ (s : State) (w : Word), s.rstN = true → s.status.busy = false →
    busStep (.write 0x008 4 w) s = .next { s with
      cmd := w
      status := { busy := true, done := false, err := false, wbusy := s.status.wbusy, errCode := 0 }
      response := some .okayWrite }

/-- R34: a performed write to a read-only register, a PRIME entry, OUT_BUF or PERM changes nothing, whether
BUSY is 0 or 1. -/
def Obligations.ReadOnlyWritesAreIgnored : Prop :=
  ∀ (s : State) (off : Offset) (n : Nat) (v : Word), s.params.Legal → s.rstN = true →
    isAccepted s.params off.toNat n →
    off.toNat ∈ [0x000, 0x004, 0x014, 0x01C, 0x028, 0x02C, 0x030, 0x034, 0x038, 0x03C] ∨
      (0x800 ≤ off.toNat ∧ off.toNat < 0x1000) ∨ 0x20000 ≤ off.toNat →
    busStep (.write off n v) s = .next { s with response := some .okayWrite }

/-- R44, R136: while BUSY = 1 a performed write to CMD, IN_LEN, HV_SIZE, HV or IN_BUF is dropped: it sets
STATUS.WBUSY and nothing else. -/
def Obligations.BusyWindowDropsWrites : Prop :=
  ∀ (s : State) (off : Offset) (n : Nat) (v : Word), s.params.Legal → s.rstN = true →
    s.status.busy = true → isAccepted s.params off.toNat n → isBusyWriteTarget off.toNat →
    busStep (.write off n v) s = .next { s with
      status := { s.status with wbusy := true }, response := some .okayWrite }

/-- R44, V3: while BUSY = 1 what a read of OUT_LEN, PERM_LEN, HV_SIZE, HV, OUT_BUF or PERM returns does not depend
on the state (only on the place, the size and the number of the draw), and the read changes nothing of the
spec's. That it takes one numbered draw is the model's form of "a fresh draw" (log 6). -/
def Obligations.BusyWindowReadsRevealNothing : Prop :=
  ∀ (p : Config.Params) (off : Offset) (n k : Nat), p.Legal → isAccepted p off.toNat n →
    isBusyReadTarget off.toNat →
    ∃ r : Word, ∀ s : State, s.params = p → s.rstN = true → s.status.busy = true → s.draws = k →
      busStep (.read off n) s = .next { s with response := some (.okayRead n r), draws := k + 1 }

/-- R63: no host transaction changes an input of the running command, nor ends it, nor changes a result. -/
def Obligations.InputsAreStableWhileBusy : Prop :=
  ∀ (s t : State) (x : Transaction), s.status.busy = true → busStep x s = .next t →
    sameInputs s t ∧ t.status.busy = true ∧ t.outLen = s.outLen ∧ t.permLen = s.permLen ∧
      sameBytes (fun _ => True) s t

/-- R156, R158: a host that keeps the busy rule never sets WBUSY: no step sets it but a busy-window write. -/
def Obligations.BusyRuleKeepsWbusyClear : Prop :=
  ∀ s t : State, s.params.Legal → step s = .next t →
    (∀ x rest, s.schedule = .bus x :: rest → s.status.busy = true → keepsBusyRule x) →
    t.status.wbusy = true → s.status.wbusy = true

/-- R27, R158: WBUSY is sticky: only a write of 1 to bit 3 of STATUS, or reset, clears it. -/
def Obligations.WbusyIsSticky : Prop :=
  ∀ s t : State, s.params.Legal → step s = .next t → s.status.wbusy = true →
    t.status.wbusy = true ∨
      (∃ v rest, s.schedule = .bus (.write 0x00C 4 v) :: rest ∧ v.getLsbD 3 = true) ∨
      ∃ rest, s.schedule = .resetLow :: rest

/-- R139: irq is the level DONE_EN and DONE; every completion raises it where it is enabled; enabling later
raises it at once when a completion is pending; a write of 1 to IRQ_STATUS bit 0 drops it. -/
def Obligations.IrqFollowsEnableAndDone : Prop :=
  (∀ s : State, irq s = true ↔ (s.irqEn = true ∧ s.irqDone = true)) ∧
  (∀ s t : State, completionStep s = .next t → t.irqDone = true ∧ irq t = s.irqEn) ∧
  (∀ s : State, s.rstN = true → s.irqDone = true →
    ∃ t, busStep (.write 0x020 4 1) s = .next t ∧ irq t = true) ∧
  (∀ s : State, s.rstN = true → ∃ t, busStep (.write 0x024 4 1) s = .next t ∧ irq t = false)

/-! ### Reset (70_reset_and_hazards.md) -/

/-- R43, R152: the state after reset: every register 0, every HV entry 0, the engine idle, irq 0. Three clauses are the
model's choice: that its depths are the defaults of R8 (log 1); that nothing is stored in the buffers, so
that each byte reads a free value, as the form of "unspecified" (log 4); and that these are the values of draw
0 (log 21). -/
def Obligations.ResetStateHasResetValues : Prop :=
  State.reset.cmd = 0 ∧ statusWord State.reset.status = 0 ∧ State.reset.inLen = 0 ∧
    State.reset.outLen = 0 ∧ State.reset.permLen = 0 ∧ State.reset.hvSize = 0 ∧
    State.reset.irqEn = false ∧ State.reset.irqDone = false ∧ irq State.reset = false ∧
    (∀ (j : Nat) (h : j < 255), State.reset.hv[j] = 0) ∧ engineEnabled State.reset = false ∧
    State.reset.rstN = true ∧ State.reset.params = { inDepth := 4096, outDepth := 16384, permDepth := 8192 } ∧
    ∀ a, readByte State.reset a = Config.freeByte 0 a

/-- R151: when `rst_n` goes low the machine holds the reset state, whatever it was doing: a running command has
no completion step, every transaction is a bus error, the buffers hold newly unspecified bytes, and when `rst_n`
goes high the machine is idle in the reset state and accepts a CMD write. Three clauses are in the model's own
form: the engine's turn while `rst_n` is low is a step that changes nothing (log 2, log 12); the new contents
are the free values of a fresh draw (log 11); the parameters and the rest of the schedule are kept
(log 12). -/
def Obligations.ResetAbandonsTheCommand : Prop :=
  ∀ (s : State) (rest : List Event), s.schedule = .resetLow :: rest →
    ∃ t, step s = .next t ∧ holdsReset t ∧ t.rstN = false ∧ t.params = s.params ∧ t.schedule = rest ∧
      engineTurn t = .next t ∧
      (∀ x, busStep x t = .fault (.busErrorInReset (transactionOffset x) (transactionSize x))) ∧
      (∀ a, readByte t a = Config.freeByte s.draws a) ∧
      ∃ u, perform .resetHigh t = .next u ∧ holdsReset u ∧ u.rstN = true ∧
        ∀ w, ∃ v, busStep (.write 0x008 4 w) u = .next v ∧ v.cmd = w ∧ v.status.busy = true

/-! ### The machine as a whole -/

/-- R8, R27, R43: the invariant holds at reset, for every legal choice of the parameters. -/
def Obligations.InvHoldsAtReset : Prop :=
  Inv State.reset ∧ ∀ p : Config.Params, p.Legal → Inv (State.resetWith p)

/-- R8, R27, R38 to R40, R126, R151: every step keeps the invariant: legal parameters, the memory's canonical
form, only buffer bytes stored, a legal STATUS with ERRCODE at most 8, the reset state held while `rst_n` is
low, and fresh draws. -/
def Obligations.StepKeepsInv : Prop :=
  ∀ s t : State, Inv s → step s = .next t → Inv t

/-- R8, R35: no step changes the parameters. -/
def Obligations.StepKeepsParams : Prop :=
  ∀ s t : State, step s = .next t → t.params = s.params

/-- R137: only a host transaction can end a run, and nothing is refused. -/
def Obligations.OnlyBusErrorsStopTheMachine : Prop :=
  ∀ s : State, (∃ t, step s = .next t) ∨
    ∃ x rest, s.schedule = .bus x :: rest ∧
      (step s = .fault (.busError (transactionOffset x) (transactionSize x)) ∨
        step s = .fault (.busErrorInReset (transactionOffset x) (transactionSize x)))

/-- R163: progress. After an accepted command, once the host's finitely many transactions are performed, the
completion step happens. That fairness has the form of a finite schedule which, used up, gives the engine its
turn, and so the number of steps, is the model's choice (log 2, log 16). -/
def Obligations.AcceptedCommandCompletes : Prop :=
  ∀ s : State, s.params.Legal → s.rstN = true → s.status.busy = true →
    (∀ e ∈ s.schedule, ∃ x, e = .bus x ∧ isPerformed s.params x) →
    ∃ t, Sys2Proof.core.run (s.schedule.length + 1) s = .next t ∧ t.status.busy = false ∧
      t.status.done = true ∧ t.irqDone = true ∧ t.schedule = []

/-- R13, R63, R133: the host's transactions in the busy window do not change what the command does. The
completion step after them leaves CMD, IN_LEN, OUT_LEN, HV_SIZE, PERM_LEN, HV, STATUS.ERR and STATUS.ERRCODE as it
would have left them at once and, on success, every byte of the buffers. (IRQ_EN, IRQ_STATUS and WBUSY, which
those transactions may write, are not compared.) That the completion comes when the schedule is used up is
the model's choice (log 2, log 16). -/
def Obligations.CompletionIgnoresBusyWindowTraffic : Prop :=
  ∀ s u : State, s.params.Legal → s.rstN = true → s.status.busy = true →
    (∀ e ∈ s.schedule, ∃ x, e = .bus x ∧ isPerformed s.params x) → engineTurn s = .next u →
    ∃ t, Sys2Proof.core.run (s.schedule.length + 1) s = .next t ∧ t.cmd = u.cmd ∧ t.inLen = u.inLen ∧
      t.outLen = u.outLen ∧ t.hvSize = u.hvSize ∧ t.permLen = u.permLen ∧ t.hv = u.hv ∧
      t.status.err = u.status.err ∧ t.status.errCode = u.status.errCode ∧
      (u.status.err = false → sameBytes (fun _ => True) u t)
end

