-- ==== Sys2Proof/Laws/State.lean ====
section
/-! SUPPORT. What each named update of the state leaves in each field: one lemma for each field of each update, so that
no later proof unfolds a record update. -/

namespace Sys2Proof.Machine

/-! ### complete -/

@[simp] theorem complete_params (s : State) : (complete s).params = s.params := rfl
@[simp] theorem complete_cmd (s : State) : (complete s).cmd = s.cmd := rfl
@[simp] theorem complete_status (s : State) : (complete s).status = completedStatus s.status := rfl
@[simp] theorem complete_inLen (s : State) : (complete s).inLen = s.inLen := rfl
@[simp] theorem complete_outLen (s : State) : (complete s).outLen = s.outLen := rfl
@[simp] theorem complete_hvSize (s : State) : (complete s).hvSize = s.hvSize := rfl
@[simp] theorem complete_permLen (s : State) : (complete s).permLen = s.permLen := rfl
@[simp] theorem complete_irqEn (s : State) : (complete s).irqEn = s.irqEn := rfl
@[simp] theorem complete_irqDone (s : State) : (complete s).irqDone = true := rfl
@[simp] theorem complete_hv (s : State) : (complete s).hv = s.hv := rfl
@[simp] theorem complete_mem (s : State) : (complete s).mem = s.mem := rfl
@[simp] theorem complete_rstN (s : State) : (complete s).rstN = s.rstN := rfl
@[simp] theorem complete_inDraw (s : State) : (complete s).inDraw = s.inDraw := rfl
@[simp] theorem complete_outDraw (s : State) : (complete s).outDraw = s.outDraw := rfl
@[simp] theorem complete_permDraw (s : State) : (complete s).permDraw = s.permDraw := rfl
@[simp] theorem complete_draws (s : State) : (complete s).draws = s.draws := rfl
@[simp] theorem complete_schedule (s : State) : (complete s).schedule = s.schedule := rfl
@[simp] theorem complete_response (s : State) : (complete s).response = s.response := rfl

/-! ### accept -/

@[simp] theorem accept_params (w : Word) (s : State) : (accept w s).params = s.params := rfl
@[simp] theorem accept_cmd (w : Word) (s : State) : (accept w s).cmd = w := rfl
@[simp] theorem accept_status (w : Word) (s : State) :
    (accept w s).status = acceptedStatus s.status := rfl
@[simp] theorem accept_inLen (w : Word) (s : State) : (accept w s).inLen = s.inLen := rfl
@[simp] theorem accept_outLen (w : Word) (s : State) : (accept w s).outLen = s.outLen := rfl
@[simp] theorem accept_hvSize (w : Word) (s : State) : (accept w s).hvSize = s.hvSize := rfl
@[simp] theorem accept_permLen (w : Word) (s : State) : (accept w s).permLen = s.permLen := rfl
@[simp] theorem accept_irqEn (w : Word) (s : State) : (accept w s).irqEn = s.irqEn := rfl
@[simp] theorem accept_irqDone (w : Word) (s : State) : (accept w s).irqDone = s.irqDone := rfl
@[simp] theorem accept_hv (w : Word) (s : State) : (accept w s).hv = s.hv := rfl
@[simp] theorem accept_mem (w : Word) (s : State) : (accept w s).mem = s.mem := rfl
@[simp] theorem accept_rstN (w : Word) (s : State) : (accept w s).rstN = s.rstN := rfl
@[simp] theorem accept_inDraw (w : Word) (s : State) : (accept w s).inDraw = s.inDraw := rfl
@[simp] theorem accept_outDraw (w : Word) (s : State) : (accept w s).outDraw = s.outDraw := rfl
@[simp] theorem accept_permDraw (w : Word) (s : State) : (accept w s).permDraw = s.permDraw := rfl
@[simp] theorem accept_draws (w : Word) (s : State) : (accept w s).draws = s.draws := rfl
@[simp] theorem accept_schedule (w : Word) (s : State) : (accept w s).schedule = s.schedule := rfl
@[simp] theorem accept_response (w : Word) (s : State) : (accept w s).response = s.response := rfl

/-! ### dropWrite -/

@[simp] theorem dropWrite_params (s : State) : (dropWrite s).params = s.params := rfl
@[simp] theorem dropWrite_cmd (s : State) : (dropWrite s).cmd = s.cmd := rfl
@[simp] theorem dropWrite_status (s : State) : (dropWrite s).status = droppedStatus s.status := rfl
@[simp] theorem dropWrite_inLen (s : State) : (dropWrite s).inLen = s.inLen := rfl
@[simp] theorem dropWrite_outLen (s : State) : (dropWrite s).outLen = s.outLen := rfl
@[simp] theorem dropWrite_hvSize (s : State) : (dropWrite s).hvSize = s.hvSize := rfl
@[simp] theorem dropWrite_permLen (s : State) : (dropWrite s).permLen = s.permLen := rfl
@[simp] theorem dropWrite_irqEn (s : State) : (dropWrite s).irqEn = s.irqEn := rfl
@[simp] theorem dropWrite_irqDone (s : State) : (dropWrite s).irqDone = s.irqDone := rfl
@[simp] theorem dropWrite_hv (s : State) : (dropWrite s).hv = s.hv := rfl
@[simp] theorem dropWrite_mem (s : State) : (dropWrite s).mem = s.mem := rfl
@[simp] theorem dropWrite_rstN (s : State) : (dropWrite s).rstN = s.rstN := rfl
@[simp] theorem dropWrite_inDraw (s : State) : (dropWrite s).inDraw = s.inDraw := rfl
@[simp] theorem dropWrite_outDraw (s : State) : (dropWrite s).outDraw = s.outDraw := rfl
@[simp] theorem dropWrite_permDraw (s : State) : (dropWrite s).permDraw = s.permDraw := rfl
@[simp] theorem dropWrite_draws (s : State) : (dropWrite s).draws = s.draws := rfl
@[simp] theorem dropWrite_schedule (s : State) : (dropWrite s).schedule = s.schedule := rfl
@[simp] theorem dropWrite_response (s : State) : (dropWrite s).response = s.response := rfl

/-! ### setOut -/

@[simp] theorem setOut_params (bs : List Byte) (s : State) : (setOut bs s).params = s.params := rfl
@[simp] theorem setOut_cmd (bs : List Byte) (s : State) : (setOut bs s).cmd = s.cmd := rfl
@[simp] theorem setOut_status (bs : List Byte) (s : State) : (setOut bs s).status = s.status := rfl
@[simp] theorem setOut_inLen (bs : List Byte) (s : State) : (setOut bs s).inLen = s.inLen := rfl
@[simp] theorem setOut_outLen (bs : List Byte) (s : State) : (setOut bs s).outLen = s.outLen := rfl
@[simp] theorem setOut_hvSize (bs : List Byte) (s : State) : (setOut bs s).hvSize = s.hvSize := rfl
@[simp] theorem setOut_permLen (bs : List Byte) (s : State) :
    (setOut bs s).permLen = s.permLen := rfl
@[simp] theorem setOut_irqEn (bs : List Byte) (s : State) : (setOut bs s).irqEn = s.irqEn := rfl
@[simp] theorem setOut_irqDone (bs : List Byte) (s : State) :
    (setOut bs s).irqDone = s.irqDone := rfl
@[simp] theorem setOut_hv (bs : List Byte) (s : State) : (setOut bs s).hv = s.hv := rfl
@[simp] theorem setOut_mem (bs : List Byte) (s : State) :
    (setOut bs s).mem = s.mem.writeBytes outBase bs := rfl
@[simp] theorem setOut_rstN (bs : List Byte) (s : State) : (setOut bs s).rstN = s.rstN := rfl
@[simp] theorem setOut_inDraw (bs : List Byte) (s : State) : (setOut bs s).inDraw = s.inDraw := rfl
@[simp] theorem setOut_outDraw (bs : List Byte) (s : State) :
    (setOut bs s).outDraw = s.outDraw := rfl
@[simp] theorem setOut_permDraw (bs : List Byte) (s : State) :
    (setOut bs s).permDraw = s.permDraw := rfl
@[simp] theorem setOut_draws (bs : List Byte) (s : State) : (setOut bs s).draws = s.draws := rfl
@[simp] theorem setOut_schedule (bs : List Byte) (s : State) :
    (setOut bs s).schedule = s.schedule := rfl
@[simp] theorem setOut_response (bs : List Byte) (s : State) :
    (setOut bs s).response = s.response := rfl

/-! ### setPerm -/

@[simp] theorem setPerm_params (ps : List Nat) (s : State) : (setPerm ps s).params = s.params := rfl
@[simp] theorem setPerm_cmd (ps : List Nat) (s : State) : (setPerm ps s).cmd = s.cmd := rfl
@[simp] theorem setPerm_status (ps : List Nat) (s : State) : (setPerm ps s).status = s.status := rfl
@[simp] theorem setPerm_inLen (ps : List Nat) (s : State) : (setPerm ps s).inLen = s.inLen := rfl
@[simp] theorem setPerm_outLen (ps : List Nat) (s : State) : (setPerm ps s).outLen = s.outLen := rfl
@[simp] theorem setPerm_hvSize (ps : List Nat) (s : State) : (setPerm ps s).hvSize = s.hvSize := rfl
@[simp] theorem setPerm_permLen (ps : List Nat) (s : State) :
    (setPerm ps s).permLen = s.permLen := rfl
@[simp] theorem setPerm_irqEn (ps : List Nat) (s : State) : (setPerm ps s).irqEn = s.irqEn := rfl
@[simp] theorem setPerm_irqDone (ps : List Nat) (s : State) :
    (setPerm ps s).irqDone = s.irqDone := rfl
@[simp] theorem setPerm_hv (ps : List Nat) (s : State) : (setPerm ps s).hv = s.hv := rfl
@[simp] theorem setPerm_mem (ps : List Nat) (s : State) :
    (setPerm ps s).mem = s.mem.writeEntries permBase ps := rfl
@[simp] theorem setPerm_rstN (ps : List Nat) (s : State) : (setPerm ps s).rstN = s.rstN := rfl
@[simp] theorem setPerm_inDraw (ps : List Nat) (s : State) : (setPerm ps s).inDraw = s.inDraw := rfl
@[simp] theorem setPerm_outDraw (ps : List Nat) (s : State) :
    (setPerm ps s).outDraw = s.outDraw := rfl
@[simp] theorem setPerm_permDraw (ps : List Nat) (s : State) :
    (setPerm ps s).permDraw = s.permDraw := rfl
@[simp] theorem setPerm_draws (ps : List Nat) (s : State) : (setPerm ps s).draws = s.draws := rfl
@[simp] theorem setPerm_schedule (ps : List Nat) (s : State) :
    (setPerm ps s).schedule = s.schedule := rfl
@[simp] theorem setPerm_response (ps : List Nat) (s : State) :
    (setPerm ps s).response = s.response := rfl

/-! ### setIn -/

@[simp] theorem setIn_params (o : Nat) (bs : List Byte) (s : State) :
    (setIn o bs s).params = s.params := rfl
@[simp] theorem setIn_cmd (o : Nat) (bs : List Byte) (s : State) : (setIn o bs s).cmd = s.cmd := rfl
@[simp] theorem setIn_status (o : Nat) (bs : List Byte) (s : State) :
    (setIn o bs s).status = s.status := rfl
@[simp] theorem setIn_inLen (o : Nat) (bs : List Byte) (s : State) :
    (setIn o bs s).inLen = s.inLen := rfl
@[simp] theorem setIn_outLen (o : Nat) (bs : List Byte) (s : State) :
    (setIn o bs s).outLen = s.outLen := rfl
@[simp] theorem setIn_hvSize (o : Nat) (bs : List Byte) (s : State) :
    (setIn o bs s).hvSize = s.hvSize := rfl
@[simp] theorem setIn_permLen (o : Nat) (bs : List Byte) (s : State) :
    (setIn o bs s).permLen = s.permLen := rfl
@[simp] theorem setIn_irqEn (o : Nat) (bs : List Byte) (s : State) :
    (setIn o bs s).irqEn = s.irqEn := rfl
@[simp] theorem setIn_irqDone (o : Nat) (bs : List Byte) (s : State) :
    (setIn o bs s).irqDone = s.irqDone := rfl
@[simp] theorem setIn_hv (o : Nat) (bs : List Byte) (s : State) : (setIn o bs s).hv = s.hv := rfl
@[simp] theorem setIn_mem (o : Nat) (bs : List Byte) (s : State) :
    (setIn o bs s).mem = s.mem.writeBytes (inBase + o) bs := rfl
@[simp] theorem setIn_rstN (o : Nat) (bs : List Byte) (s : State) :
    (setIn o bs s).rstN = s.rstN := rfl
@[simp] theorem setIn_inDraw (o : Nat) (bs : List Byte) (s : State) :
    (setIn o bs s).inDraw = s.inDraw := rfl
@[simp] theorem setIn_outDraw (o : Nat) (bs : List Byte) (s : State) :
    (setIn o bs s).outDraw = s.outDraw := rfl
@[simp] theorem setIn_permDraw (o : Nat) (bs : List Byte) (s : State) :
    (setIn o bs s).permDraw = s.permDraw := rfl
@[simp] theorem setIn_draws (o : Nat) (bs : List Byte) (s : State) :
    (setIn o bs s).draws = s.draws := rfl
@[simp] theorem setIn_schedule (o : Nat) (bs : List Byte) (s : State) :
    (setIn o bs s).schedule = s.schedule := rfl
@[simp] theorem setIn_response (o : Nat) (bs : List Byte) (s : State) :
    (setIn o bs s).response = s.response := rfl

/-! ### writeHvEntry -/

@[simp] theorem writeHvEntry_params (i : Nat) (b : Byte) (s : State) :
    (writeHvEntry i b s).params = s.params := rfl
@[simp] theorem writeHvEntry_cmd (i : Nat) (b : Byte) (s : State) :
    (writeHvEntry i b s).cmd = s.cmd := rfl
@[simp] theorem writeHvEntry_status (i : Nat) (b : Byte) (s : State) :
    (writeHvEntry i b s).status = s.status := rfl
@[simp] theorem writeHvEntry_inLen (i : Nat) (b : Byte) (s : State) :
    (writeHvEntry i b s).inLen = s.inLen := rfl
@[simp] theorem writeHvEntry_outLen (i : Nat) (b : Byte) (s : State) :
    (writeHvEntry i b s).outLen = s.outLen := rfl
@[simp] theorem writeHvEntry_hvSize (i : Nat) (b : Byte) (s : State) :
    (writeHvEntry i b s).hvSize = s.hvSize := rfl
@[simp] theorem writeHvEntry_permLen (i : Nat) (b : Byte) (s : State) :
    (writeHvEntry i b s).permLen = s.permLen := rfl
@[simp] theorem writeHvEntry_irqEn (i : Nat) (b : Byte) (s : State) :
    (writeHvEntry i b s).irqEn = s.irqEn := rfl
@[simp] theorem writeHvEntry_irqDone (i : Nat) (b : Byte) (s : State) :
    (writeHvEntry i b s).irqDone = s.irqDone := rfl
@[simp] theorem writeHvEntry_hv (i : Nat) (b : Byte) (s : State) :
    (writeHvEntry i b s).hv = s.hv.setIfInBounds i b := rfl
@[simp] theorem writeHvEntry_mem (i : Nat) (b : Byte) (s : State) :
    (writeHvEntry i b s).mem = s.mem := rfl
@[simp] theorem writeHvEntry_rstN (i : Nat) (b : Byte) (s : State) :
    (writeHvEntry i b s).rstN = s.rstN := rfl
@[simp] theorem writeHvEntry_inDraw (i : Nat) (b : Byte) (s : State) :
    (writeHvEntry i b s).inDraw = s.inDraw := rfl
@[simp] theorem writeHvEntry_outDraw (i : Nat) (b : Byte) (s : State) :
    (writeHvEntry i b s).outDraw = s.outDraw := rfl
@[simp] theorem writeHvEntry_permDraw (i : Nat) (b : Byte) (s : State) :
    (writeHvEntry i b s).permDraw = s.permDraw := rfl
@[simp] theorem writeHvEntry_draws (i : Nat) (b : Byte) (s : State) :
    (writeHvEntry i b s).draws = s.draws := rfl
@[simp] theorem writeHvEntry_schedule (i : Nat) (b : Byte) (s : State) :
    (writeHvEntry i b s).schedule = s.schedule := rfl
@[simp] theorem writeHvEntry_response (i : Nat) (b : Byte) (s : State) :
    (writeHvEntry i b s).response = s.response := rfl

/-! ### unspecifyOut -/

@[simp] theorem unspecifyOut_params (s : State) : (unspecifyOut s).params = s.params := rfl
@[simp] theorem unspecifyOut_cmd (s : State) : (unspecifyOut s).cmd = s.cmd := rfl
@[simp] theorem unspecifyOut_status (s : State) : (unspecifyOut s).status = s.status := rfl
@[simp] theorem unspecifyOut_inLen (s : State) : (unspecifyOut s).inLen = s.inLen := rfl
@[simp] theorem unspecifyOut_outLen (s : State) : (unspecifyOut s).outLen = s.outLen := rfl
@[simp] theorem unspecifyOut_hvSize (s : State) : (unspecifyOut s).hvSize = s.hvSize := rfl
@[simp] theorem unspecifyOut_permLen (s : State) : (unspecifyOut s).permLen = s.permLen := rfl
@[simp] theorem unspecifyOut_irqEn (s : State) : (unspecifyOut s).irqEn = s.irqEn := rfl
@[simp] theorem unspecifyOut_irqDone (s : State) : (unspecifyOut s).irqDone = s.irqDone := rfl
@[simp] theorem unspecifyOut_hv (s : State) : (unspecifyOut s).hv = s.hv := rfl
@[simp] theorem unspecifyOut_mem (s : State) :
    (unspecifyOut s).mem = s.mem.forget outBase permBase := rfl
@[simp] theorem unspecifyOut_rstN (s : State) : (unspecifyOut s).rstN = s.rstN := rfl
@[simp] theorem unspecifyOut_inDraw (s : State) : (unspecifyOut s).inDraw = s.inDraw := rfl
@[simp] theorem unspecifyOut_outDraw (s : State) : (unspecifyOut s).outDraw = s.draws := rfl
@[simp] theorem unspecifyOut_permDraw (s : State) : (unspecifyOut s).permDraw = s.permDraw := rfl
@[simp] theorem unspecifyOut_draws (s : State) : (unspecifyOut s).draws = s.draws + 1 := rfl
@[simp] theorem unspecifyOut_schedule (s : State) : (unspecifyOut s).schedule = s.schedule := rfl
@[simp] theorem unspecifyOut_response (s : State) : (unspecifyOut s).response = s.response := rfl

/-! ### unspecifyPerm -/

@[simp] theorem unspecifyPerm_params (s : State) : (unspecifyPerm s).params = s.params := rfl
@[simp] theorem unspecifyPerm_cmd (s : State) : (unspecifyPerm s).cmd = s.cmd := rfl
@[simp] theorem unspecifyPerm_status (s : State) : (unspecifyPerm s).status = s.status := rfl
@[simp] theorem unspecifyPerm_inLen (s : State) : (unspecifyPerm s).inLen = s.inLen := rfl
@[simp] theorem unspecifyPerm_outLen (s : State) : (unspecifyPerm s).outLen = s.outLen := rfl
@[simp] theorem unspecifyPerm_hvSize (s : State) : (unspecifyPerm s).hvSize = s.hvSize := rfl
@[simp] theorem unspecifyPerm_permLen (s : State) : (unspecifyPerm s).permLen = s.permLen := rfl
@[simp] theorem unspecifyPerm_irqEn (s : State) : (unspecifyPerm s).irqEn = s.irqEn := rfl
@[simp] theorem unspecifyPerm_irqDone (s : State) : (unspecifyPerm s).irqDone = s.irqDone := rfl
@[simp] theorem unspecifyPerm_hv (s : State) : (unspecifyPerm s).hv = s.hv := rfl
@[simp] theorem unspecifyPerm_mem (s : State) :
    (unspecifyPerm s).mem = s.mem.forget permBase offsetEnd := rfl
@[simp] theorem unspecifyPerm_rstN (s : State) : (unspecifyPerm s).rstN = s.rstN := rfl
@[simp] theorem unspecifyPerm_inDraw (s : State) : (unspecifyPerm s).inDraw = s.inDraw := rfl
@[simp] theorem unspecifyPerm_outDraw (s : State) : (unspecifyPerm s).outDraw = s.outDraw := rfl
@[simp] theorem unspecifyPerm_permDraw (s : State) : (unspecifyPerm s).permDraw = s.draws := rfl
@[simp] theorem unspecifyPerm_draws (s : State) : (unspecifyPerm s).draws = s.draws + 1 := rfl
@[simp] theorem unspecifyPerm_schedule (s : State) : (unspecifyPerm s).schedule = s.schedule := rfl
@[simp] theorem unspecifyPerm_response (s : State) : (unspecifyPerm s).response = s.response := rfl

/-! ### storePermutation -/

@[simp] theorem storePermutation_params (pm : List Nat) (n : Nat) (s : State) :
    (storePermutation pm n s).params = s.params := rfl
@[simp] theorem storePermutation_cmd (pm : List Nat) (n : Nat) (s : State) :
    (storePermutation pm n s).cmd = s.cmd := rfl
@[simp] theorem storePermutation_status (pm : List Nat) (n : Nat) (s : State) :
    (storePermutation pm n s).status = s.status := rfl
@[simp] theorem storePermutation_inLen (pm : List Nat) (n : Nat) (s : State) :
    (storePermutation pm n s).inLen = s.inLen := rfl
@[simp] theorem storePermutation_outLen (pm : List Nat) (n : Nat) (s : State) :
    (storePermutation pm n s).outLen = s.outLen := rfl
@[simp] theorem storePermutation_hvSize (pm : List Nat) (n : Nat) (s : State) :
    (storePermutation pm n s).hvSize = s.hvSize := rfl
@[simp] theorem storePermutation_permLen (pm : List Nat) (n : Nat) (s : State) :
    (storePermutation pm n s).permLen = BitVec.ofNat 32 n := rfl
@[simp] theorem storePermutation_irqEn (pm : List Nat) (n : Nat) (s : State) :
    (storePermutation pm n s).irqEn = s.irqEn := rfl
@[simp] theorem storePermutation_irqDone (pm : List Nat) (n : Nat) (s : State) :
    (storePermutation pm n s).irqDone = s.irqDone := rfl
@[simp] theorem storePermutation_hv (pm : List Nat) (n : Nat) (s : State) :
    (storePermutation pm n s).hv = s.hv := rfl
@[simp] theorem storePermutation_mem (pm : List Nat) (n : Nat) (s : State) :
    (storePermutation pm n s).mem = s.mem.writeEntries permBase pm := rfl
@[simp] theorem storePermutation_rstN (pm : List Nat) (n : Nat) (s : State) :
    (storePermutation pm n s).rstN = s.rstN := rfl
@[simp] theorem storePermutation_inDraw (pm : List Nat) (n : Nat) (s : State) :
    (storePermutation pm n s).inDraw = s.inDraw := rfl
@[simp] theorem storePermutation_outDraw (pm : List Nat) (n : Nat) (s : State) :
    (storePermutation pm n s).outDraw = s.outDraw := rfl
@[simp] theorem storePermutation_permDraw (pm : List Nat) (n : Nat) (s : State) :
    (storePermutation pm n s).permDraw = s.permDraw := rfl
@[simp] theorem storePermutation_draws (pm : List Nat) (n : Nat) (s : State) :
    (storePermutation pm n s).draws = s.draws := rfl
@[simp] theorem storePermutation_schedule (pm : List Nat) (n : Nat) (s : State) :
    (storePermutation pm n s).schedule = s.schedule := rfl
@[simp] theorem storePermutation_response (pm : List Nat) (n : Nat) (s : State) :
    (storePermutation pm n s).response = s.response := rfl

/-! ### storeCipher -/

@[simp] theorem storeCipher_params (out : List Byte) (c : CipherResult) (s : State) :
    (storeCipher out c s).params = s.params := rfl
@[simp] theorem storeCipher_cmd (out : List Byte) (c : CipherResult) (s : State) :
    (storeCipher out c s).cmd = s.cmd := rfl
@[simp] theorem storeCipher_status (out : List Byte) (c : CipherResult) (s : State) :
    (storeCipher out c s).status = s.status := rfl
@[simp] theorem storeCipher_inLen (out : List Byte) (c : CipherResult) (s : State) :
    (storeCipher out c s).inLen = s.inLen := rfl
@[simp] theorem storeCipher_outLen (out : List Byte) (c : CipherResult) (s : State) :
    (storeCipher out c s).outLen = BitVec.ofNat 32 out.length := rfl
@[simp] theorem storeCipher_hvSize (out : List Byte) (c : CipherResult) (s : State) :
    (storeCipher out c s).hvSize = s.hvSize := rfl
@[simp] theorem storeCipher_permLen (out : List Byte) (c : CipherResult) (s : State) :
    (storeCipher out c s).permLen = BitVec.ofNat 32 c.size := rfl
@[simp] theorem storeCipher_irqEn (out : List Byte) (c : CipherResult) (s : State) :
    (storeCipher out c s).irqEn = s.irqEn := rfl
@[simp] theorem storeCipher_irqDone (out : List Byte) (c : CipherResult) (s : State) :
    (storeCipher out c s).irqDone = s.irqDone := rfl
@[simp] theorem storeCipher_hv (out : List Byte) (c : CipherResult) (s : State) :
    (storeCipher out c s).hv = s.hv := rfl
@[simp] theorem storeCipher_mem (out : List Byte) (c : CipherResult) (s : State) :
    (storeCipher out c s).mem = (s.mem.writeBytes outBase out).writeEntries permBase c.perm := rfl
@[simp] theorem storeCipher_rstN (out : List Byte) (c : CipherResult) (s : State) :
    (storeCipher out c s).rstN = s.rstN := rfl
@[simp] theorem storeCipher_inDraw (out : List Byte) (c : CipherResult) (s : State) :
    (storeCipher out c s).inDraw = s.inDraw := rfl
@[simp] theorem storeCipher_outDraw (out : List Byte) (c : CipherResult) (s : State) :
    (storeCipher out c s).outDraw = s.outDraw := rfl
@[simp] theorem storeCipher_permDraw (out : List Byte) (c : CipherResult) (s : State) :
    (storeCipher out c s).permDraw = s.permDraw := rfl
@[simp] theorem storeCipher_draws (out : List Byte) (c : CipherResult) (s : State) :
    (storeCipher out c s).draws = s.draws := rfl
@[simp] theorem storeCipher_schedule (out : List Byte) (c : CipherResult) (s : State) :
    (storeCipher out c s).schedule = s.schedule := rfl
@[simp] theorem storeCipher_response (out : List Byte) (c : CipherResult) (s : State) :
    (storeCipher out c s).response = s.response := rfl

/-! ### raiseError -/

@[simp] theorem raiseError_params (w : ErrorWrites) (e : ErrorCode) (s : State) :
    (raiseError w e s).params = s.params := by
  cases w <;> rfl
@[simp] theorem raiseError_cmd (w : ErrorWrites) (e : ErrorCode) (s : State) :
    (raiseError w e s).cmd = s.cmd := by
  cases w <;> rfl
@[simp] theorem raiseError_status (w : ErrorWrites) (e : ErrorCode) (s : State) :
    (raiseError w e s).status = raisedStatus e s.status := rfl
@[simp] theorem raiseError_inLen (w : ErrorWrites) (e : ErrorCode) (s : State) :
    (raiseError w e s).inLen = s.inLen := by
  cases w <;> rfl
@[simp] theorem raiseError_hvSize (w : ErrorWrites) (e : ErrorCode) (s : State) :
    (raiseError w e s).hvSize = s.hvSize := by
  cases w <;> rfl
@[simp] theorem raiseError_irqEn (w : ErrorWrites) (e : ErrorCode) (s : State) :
    (raiseError w e s).irqEn = s.irqEn := by
  cases w <;> rfl
@[simp] theorem raiseError_irqDone (w : ErrorWrites) (e : ErrorCode) (s : State) :
    (raiseError w e s).irqDone = true := rfl
@[simp] theorem raiseError_hv (w : ErrorWrites) (e : ErrorCode) (s : State) :
    (raiseError w e s).hv = s.hv := by
  cases w <;> rfl
@[simp] theorem raiseError_rstN (w : ErrorWrites) (e : ErrorCode) (s : State) :
    (raiseError w e s).rstN = s.rstN := by
  cases w <;> rfl
@[simp] theorem raiseError_inDraw (w : ErrorWrites) (e : ErrorCode) (s : State) :
    (raiseError w e s).inDraw = s.inDraw := by
  cases w <;> rfl
@[simp] theorem raiseError_schedule (w : ErrorWrites) (e : ErrorCode) (s : State) :
    (raiseError w e s).schedule = s.schedule := by
  cases w <;> rfl
@[simp] theorem raiseError_response (w : ErrorWrites) (e : ErrorCode) (s : State) :
    (raiseError w e s).response = s.response := by
  cases w <;> rfl

/-! ### assertReset -/

@[simp] theorem assertReset_params (s : State) : (assertReset s).params = s.params := rfl
@[simp] theorem assertReset_cmd (s : State) : (assertReset s).cmd = 0 := rfl
@[simp] theorem assertReset_status (s : State) : (assertReset s).status = Status.reset := rfl
@[simp] theorem assertReset_inLen (s : State) : (assertReset s).inLen = 0 := rfl
@[simp] theorem assertReset_outLen (s : State) : (assertReset s).outLen = 0 := rfl
@[simp] theorem assertReset_hvSize (s : State) : (assertReset s).hvSize = 0 := rfl
@[simp] theorem assertReset_permLen (s : State) : (assertReset s).permLen = 0 := rfl
@[simp] theorem assertReset_irqEn (s : State) : (assertReset s).irqEn = false := rfl
@[simp] theorem assertReset_irqDone (s : State) : (assertReset s).irqDone = false := rfl
@[simp] theorem assertReset_hv (s : State) : (assertReset s).hv = Vector.replicate 255 0 := rfl
@[simp] theorem assertReset_mem (s : State) : (assertReset s).mem = [] := rfl
@[simp] theorem assertReset_rstN (s : State) : (assertReset s).rstN = false := rfl
@[simp] theorem assertReset_inDraw (s : State) : (assertReset s).inDraw = s.draws := rfl
@[simp] theorem assertReset_outDraw (s : State) : (assertReset s).outDraw = s.draws := rfl
@[simp] theorem assertReset_permDraw (s : State) : (assertReset s).permDraw = s.draws := rfl
@[simp] theorem assertReset_draws (s : State) : (assertReset s).draws = s.draws + 1 := rfl
@[simp] theorem assertReset_schedule (s : State) : (assertReset s).schedule = s.schedule := rfl
@[simp] theorem assertReset_response (s : State) : (assertReset s).response = none := rfl

/-! ### releaseReset -/

@[simp] theorem releaseReset_params (s : State) : (releaseReset s).params = s.params := rfl
@[simp] theorem releaseReset_cmd (s : State) : (releaseReset s).cmd = s.cmd := rfl
@[simp] theorem releaseReset_status (s : State) : (releaseReset s).status = s.status := rfl
@[simp] theorem releaseReset_inLen (s : State) : (releaseReset s).inLen = s.inLen := rfl
@[simp] theorem releaseReset_outLen (s : State) : (releaseReset s).outLen = s.outLen := rfl
@[simp] theorem releaseReset_hvSize (s : State) : (releaseReset s).hvSize = s.hvSize := rfl
@[simp] theorem releaseReset_permLen (s : State) : (releaseReset s).permLen = s.permLen := rfl
@[simp] theorem releaseReset_irqEn (s : State) : (releaseReset s).irqEn = s.irqEn := rfl
@[simp] theorem releaseReset_irqDone (s : State) : (releaseReset s).irqDone = s.irqDone := rfl
@[simp] theorem releaseReset_hv (s : State) : (releaseReset s).hv = s.hv := rfl
@[simp] theorem releaseReset_mem (s : State) : (releaseReset s).mem = s.mem := rfl
@[simp] theorem releaseReset_rstN (s : State) : (releaseReset s).rstN = true := rfl
@[simp] theorem releaseReset_inDraw (s : State) : (releaseReset s).inDraw = s.inDraw := rfl
@[simp] theorem releaseReset_outDraw (s : State) : (releaseReset s).outDraw = s.outDraw := rfl
@[simp] theorem releaseReset_permDraw (s : State) : (releaseReset s).permDraw = s.permDraw := rfl
@[simp] theorem releaseReset_draws (s : State) : (releaseReset s).draws = s.draws := rfl
@[simp] theorem releaseReset_schedule (s : State) : (releaseReset s).schedule = s.schedule := rfl
@[simp] theorem releaseReset_response (s : State) : (releaseReset s).response = s.response := rfl

/-! ### placeCommand -/

@[simp] theorem placeCommand_params (w : Word) (s : State) :
    (placeCommand w s).params = s.params := rfl
@[simp] theorem placeCommand_cmd (w : Word) (s : State) : (placeCommand w s).cmd = w := rfl
@[simp] theorem placeCommand_status (w : Word) (s : State) :
    (placeCommand w s).status = acceptedStatus s.status := rfl
@[simp] theorem placeCommand_inLen (w : Word) (s : State) :
    (placeCommand w s).inLen = s.inLen := rfl
@[simp] theorem placeCommand_outLen (w : Word) (s : State) :
    (placeCommand w s).outLen = s.outLen := rfl
@[simp] theorem placeCommand_hvSize (w : Word) (s : State) :
    (placeCommand w s).hvSize = s.hvSize := rfl
@[simp] theorem placeCommand_permLen (w : Word) (s : State) :
    (placeCommand w s).permLen = s.permLen := rfl
@[simp] theorem placeCommand_irqEn (w : Word) (s : State) :
    (placeCommand w s).irqEn = s.irqEn := rfl
@[simp] theorem placeCommand_irqDone (w : Word) (s : State) :
    (placeCommand w s).irqDone = s.irqDone := rfl
@[simp] theorem placeCommand_hv (w : Word) (s : State) : (placeCommand w s).hv = s.hv := rfl
@[simp] theorem placeCommand_mem (w : Word) (s : State) : (placeCommand w s).mem = s.mem := rfl
@[simp] theorem placeCommand_rstN (w : Word) (s : State) : (placeCommand w s).rstN = true := rfl
@[simp] theorem placeCommand_inDraw (w : Word) (s : State) :
    (placeCommand w s).inDraw = s.inDraw := rfl
@[simp] theorem placeCommand_outDraw (w : Word) (s : State) :
    (placeCommand w s).outDraw = s.outDraw := rfl
@[simp] theorem placeCommand_permDraw (w : Word) (s : State) :
    (placeCommand w s).permDraw = s.permDraw := rfl
@[simp] theorem placeCommand_draws (w : Word) (s : State) :
    (placeCommand w s).draws = s.draws := rfl
@[simp] theorem placeCommand_schedule (w : Word) (s : State) :
    (placeCommand w s).schedule = .engine :: s.schedule := rfl
@[simp] theorem placeCommand_response (w : Word) (s : State) :
    (placeCommand w s).response = s.response := rfl

/-! ### The error columns of R45 -/

@[simp] theorem raiseError_nothing_mem (e : ErrorCode) (s : State) :
    (raiseError .nothing e s).mem = s.mem := rfl
@[simp] theorem raiseError_nothing_outLen (e : ErrorCode) (s : State) :
    (raiseError .nothing e s).outLen = s.outLen := rfl
@[simp] theorem raiseError_nothing_permLen (e : ErrorCode) (s : State) :
    (raiseError .nothing e s).permLen = s.permLen := rfl
@[simp] theorem raiseError_nothing_outDraw (e : ErrorCode) (s : State) :
    (raiseError .nothing e s).outDraw = s.outDraw := rfl
@[simp] theorem raiseError_nothing_permDraw (e : ErrorCode) (s : State) :
    (raiseError .nothing e s).permDraw = s.permDraw := rfl
@[simp] theorem raiseError_nothing_draws (e : ErrorCode) (s : State) :
    (raiseError .nothing e s).draws = s.draws := rfl
@[simp] theorem raiseError_perm_mem (e : ErrorCode) (s : State) :
    (raiseError .perm e s).mem = s.mem.forget permBase offsetEnd := rfl
@[simp] theorem raiseError_perm_outLen (e : ErrorCode) (s : State) :
    (raiseError .perm e s).outLen = s.outLen := rfl
@[simp] theorem raiseError_perm_permLen (e : ErrorCode) (s : State) :
    (raiseError .perm e s).permLen = 0 := rfl
@[simp] theorem raiseError_perm_outDraw (e : ErrorCode) (s : State) :
    (raiseError .perm e s).outDraw = s.outDraw := rfl
@[simp] theorem raiseError_perm_permDraw (e : ErrorCode) (s : State) :
    (raiseError .perm e s).permDraw = s.draws := rfl
@[simp] theorem raiseError_perm_draws (e : ErrorCode) (s : State) :
    (raiseError .perm e s).draws = s.draws + 1 := rfl
@[simp] theorem raiseError_outAndPerm_mem (e : ErrorCode) (s : State) :
    (raiseError .outAndPerm e s).mem = (s.mem.forget outBase permBase).forget permBase offsetEnd := rfl
@[simp] theorem raiseError_outAndPerm_outLen (e : ErrorCode) (s : State) :
    (raiseError .outAndPerm e s).outLen = 0 := rfl
@[simp] theorem raiseError_outAndPerm_permLen (e : ErrorCode) (s : State) :
    (raiseError .outAndPerm e s).permLen = 0 := rfl
@[simp] theorem raiseError_outAndPerm_outDraw (e : ErrorCode) (s : State) :
    (raiseError .outAndPerm e s).outDraw = s.draws := rfl
@[simp] theorem raiseError_outAndPerm_permDraw (e : ErrorCode) (s : State) :
    (raiseError .outAndPerm e s).permDraw = s.draws + 1 := rfl
@[simp] theorem raiseError_outAndPerm_draws (e : ErrorCode) (s : State) :
    (raiseError .outAndPerm e s).draws = s.draws + 1 + 1 := rfl

/-! ### The flag updates -/

@[simp] theorem acceptedStatus_busy (st : Status) : (acceptedStatus st).busy = true := rfl
@[simp] theorem acceptedStatus_wbusy (st : Status) : (acceptedStatus st).wbusy = st.wbusy := rfl
@[simp] theorem completedStatus_busy (st : Status) : (completedStatus st).busy = false := rfl
@[simp] theorem completedStatus_done (st : Status) : (completedStatus st).done = true := rfl
@[simp] theorem completedStatus_err (st : Status) : (completedStatus st).err = false := rfl
@[simp] theorem completedStatus_wbusy (st : Status) : (completedStatus st).wbusy = st.wbusy := rfl
@[simp] theorem completedStatus_errCode (st : Status) : (completedStatus st).errCode = 0 := rfl
@[simp] theorem raisedStatus_busy (e : ErrorCode) (st : Status) : (raisedStatus e st).busy = false := rfl
@[simp] theorem raisedStatus_done (e : ErrorCode) (st : Status) : (raisedStatus e st).done = true := rfl
@[simp] theorem raisedStatus_err (e : ErrorCode) (st : Status) : (raisedStatus e st).err = true := rfl
@[simp] theorem raisedStatus_wbusy (e : ErrorCode) (st : Status) :
    (raisedStatus e st).wbusy = st.wbusy := rfl
@[simp] theorem raisedStatus_errCode (e : ErrorCode) (st : Status) :
    (raisedStatus e st).errCode = errorBits e := rfl
@[simp] theorem droppedStatus_busy (st : Status) : (droppedStatus st).busy = st.busy := rfl
@[simp] theorem droppedStatus_wbusy (st : Status) : (droppedStatus st).wbusy = true := rfl
@[simp] theorem writtenStatus_busy (v : Word) (st : Status) : (writtenStatus v st).busy = st.busy := rfl
@[simp] theorem writtenStatus_wbusy (v : Word) (st : Status) :
    (writtenStatus v st).wbusy = (st.wbusy && !v.getLsbD 3) := rfl

end Sys2Proof.Machine
end

