-- ==== Sys2Proof/Laws/Memory.lean ====
section
/-! SUPPORT. The laws of the stored bytes: a read after a write, a write leaves every other place alone, and every
memory operation keeps the canonical form. -/

namespace Sys2Proof.Machine

/-! ### One byte -/

@[simp] theorem Memory.get?_nil (a : Nat) : Memory.get? a [] = none := rfl

/-- What reading any byte gives after one byte was stored. -/
theorem Memory.get?_write (x a : Nat) (b : Byte) (m : Memory) :
    Memory.get? x (m.write a b) = if x = a then some b else Memory.get? x m := by
  induction m with
  | nil => simp [Memory.write, Memory.get?]
  | cons c m ih =>
    unfold Memory.write
    split_ifs with hlt heq <;> simp only [Memory.get?] <;> split_ifs <;> simp_all

@[simp] theorem Memory.get?_write_same (a : Nat) (b : Byte) (m : Memory) :
    Memory.get? a (m.write a b) = some b := by simp [Memory.get?_write]

theorem Memory.get?_write_of_ne {x a : Nat} (h : x ≠ a) (b : Byte) (m : Memory) :
    Memory.get? x (m.write a b) = Memory.get? x m := by simp [Memory.get?_write, h]

/-- A cell that is listed after a write is the written one or was listed before. -/
theorem Memory.mem_write {a : Nat} {b : Byte} {m : Memory} {c : Host.Cell} (h : c ∈ m.write a b) :
    c = (a, b) ∨ c ∈ m := by
  induction m with
  | nil => simpa [Memory.write] using h
  | cons d m ih =>
    unfold Memory.write at h
    split_ifs at h with hlt heq <;> simp only [List.mem_cons] at h ⊢
    · tauto
    · tauto
    · rcases h with h | h
      · tauto
      · rcases ih h with h | h <;> tauto

theorem Memory.wf_nil : Memory.wf [] := List.Pairwise.nil

/-- A write keeps the canonical form. -/
theorem Memory.wf_write (a : Nat) (b : Byte) {m : Memory} (h : Memory.wf m) :
    Memory.wf (m.write a b) := by
  induction m with
  | nil => exact List.pairwise_singleton ..
  | cons d m ih =>
    have hd := List.pairwise_cons.1 h
    unfold Memory.write
    split_ifs with hlt heq
    · refine List.pairwise_cons.2 ⟨fun c hc => ?_, h⟩
      rcases List.mem_cons.1 hc with rfl | hc
      · exact hlt
      · exact lt_trans hlt (hd.1 c hc)
    · subst heq
      exact List.pairwise_cons.2 ⟨hd.1, hd.2⟩
    · refine List.pairwise_cons.2 ⟨fun c hc => ?_, ih hd.2⟩
      rcases Memory.mem_write hc with rfl | hc
      · show d.1 < a
        omega
      · exact hd.1 c hc

/-! ### A byte string -/

/-- What reading any byte gives after a byte string was stored. -/
theorem Memory.get?_writeBytes (x a : Nat) (bs : List Byte) (m : Memory) :
    Memory.get? x (m.writeBytes a bs) =
      if a ≤ x ∧ x < a + bs.length then bs[x - a]? else Memory.get? x m := by
  induction bs generalizing a m with
  | nil => simp [Memory.writeBytes]
  | cons b bs ih =>
    rw [Memory.writeBytes, ih, Memory.get?_write]
    by_cases hx : x = a
    · subst hx
      simp
    · by_cases hin : a + 1 ≤ x ∧ x < a + 1 + bs.length
      · have hout : a ≤ x ∧ x < a + (b :: bs).length := by simp only [List.length_cons]; omega
        rw [if_pos hin, if_pos hout, show x - a = (x - (a + 1)) + 1 by omega]
        simp
      · have hout : ¬ (a ≤ x ∧ x < a + (b :: bs).length) := by simp only [List.length_cons]; omega
        rw [if_neg hin, if_neg hout, if_neg hx]

/-- Storing a byte string keeps the canonical form. -/
theorem Memory.wf_writeBytes (a : Nat) (bs : List Byte) {m : Memory} (h : Memory.wf m) :
    Memory.wf (m.writeBytes a bs) := by
  induction bs generalizing a m with
  | nil => exact h
  | cons b bs ih => exact ih (a + 1) (Memory.wf_write a b h)

/-- A cell that is listed after a byte string was stored lies in it or was listed before. -/
theorem Memory.mem_writeBytes {a : Nat} {bs : List Byte} {m : Memory} {c : Host.Cell}
    (h : c ∈ m.writeBytes a bs) : (a ≤ c.1 ∧ c.1 < a + bs.length) ∨ c ∈ m := by
  induction bs generalizing a m with
  | nil => exact .inr h
  | cons b bs ih =>
    simp only [List.length_cons]
    rcases ih h with h | h
    · exact .inl (by omega)
    · rcases Memory.mem_write h with rfl | h
      · exact .inl ⟨le_refl a, Nat.lt_add_of_pos_right (Nat.succ_pos _)⟩
      · exact .inr h

/-! ### PERM entries -/

/-- What reading any byte gives after positions were stored from address `a`. -/
theorem Memory.get?_writeEntries (x a : Nat) (ps : List Nat) (m : Memory) :
    Memory.get? x (m.writeEntries a ps) =
      if a ≤ x ∧ x < a + 4 * ps.length ∧ (x - a) % 4 < 2 then
        (ps[(x - a) / 4]?).map fun p => (BitVec.ofNat 16 p).extractLsb' (8 * ((x - a) % 4)) 8
      else Memory.get? x m := by
  induction ps generalizing a m with
  | nil => rw [Memory.writeEntries, if_neg (by simp only [List.length_nil]; omega)]
  | cons p ps ih =>
    rw [Memory.writeEntries, ih, Memory.get?_writeBytes]
    simp only [List.length_cons, List.length_nil]
    by_cases h1 : a + 4 ≤ x ∧ x < a + 4 + 4 * ps.length ∧ (x - (a + 4)) % 4 < 2
    · rw [if_pos h1, if_pos (by omega), show (x - a) / 4 = (x - (a + 4)) / 4 + 1 by omega,
        show (x - a) % 4 = (x - (a + 4)) % 4 by omega]
      simp
    · rw [if_neg h1]
      by_cases h2 : a ≤ x ∧ x < a + (0 + 1 + 1)
      · rw [if_pos h2, if_pos (by omega)]
        obtain ⟨k, rfl⟩ : ∃ k, x = a + k := ⟨x - a, by omega⟩
        obtain rfl | rfl : k = 0 ∨ k = 1 := by omega
        · simp
        · simp
      · rw [if_neg h2, if_neg (by omega)]

/-- Storing positions keeps the canonical form. -/
theorem Memory.wf_writeEntries (a : Nat) (ps : List Nat) {m : Memory} (h : Memory.wf m) :
    Memory.wf (m.writeEntries a ps) := by
  induction ps generalizing a m with
  | nil => exact h
  | cons p ps ih => exact ih (a + 4) (Memory.wf_writeBytes _ _ h)

/-- A cell that is listed after positions were stored is a byte of one of them or was listed before. -/
theorem Memory.mem_writeEntries {a : Nat} {ps : List Nat} {m : Memory} {c : Host.Cell}
    (h : c ∈ m.writeEntries a ps) :
    (a ≤ c.1 ∧ c.1 < a + 4 * ps.length ∧ (c.1 - a) % 4 < 2) ∨ c ∈ m := by
  induction ps generalizing a m with
  | nil => exact .inr h
  | cons p ps ih =>
    simp only [List.length_cons]
    rcases ih h with h | h
    · exact .inl (by omega)
    · rcases Memory.mem_writeBytes h with h | h
      · simp only [List.length_cons, List.length_nil] at h
        exact .inl (by omega)
      · exact .inr h

/-! ### Forgetting -/

/-- What reading any byte gives after a range was forgotten. -/
theorem Memory.get?_forget (x lo hi : Nat) (m : Memory) :
    Memory.get? x (m.forget lo hi) = if lo ≤ x ∧ x < hi then none else Memory.get? x m := by
  induction m with
  | nil => simp [Memory.forget]
  | cons c m ih =>
    unfold Memory.forget at ih ⊢
    rw [List.filter_cons]
    by_cases hc : lo ≤ c.1 ∧ c.1 < hi
    · simp only [hc.1, hc.2, decide_true, Bool.and_self, Bool.not_true, Bool.false_eq_true, if_false, ih,
        Memory.get?]
      split_ifs <;> simp_all
    · rw [if_pos (by simp only [Bool.not_eq_true', Bool.and_eq_false_iff, decide_eq_false_iff_not]; tauto)]
      simp only [Memory.get?, ih]
      by_cases hx : x = c.1
      · subst hx
        simp [hc]
      · simp [hx]

/-- Forgetting a range keeps the canonical form. -/
theorem Memory.wf_forget (lo hi : Nat) {m : Memory} (h : Memory.wf m) : Memory.wf (m.forget lo hi) :=
  h.filter _

theorem Memory.mem_forget {lo hi : Nat} {m : Memory} {c : Host.Cell} (h : c ∈ m.forget lo hi) : c ∈ m :=
  (List.mem_filter.1 h).1

/-! ### Reading a byte of the state -/

/-- A byte's value depends on the memory and the draw of its buffer only. -/
theorem readByte_congr {s t : State} {a : Nat} (hm : Memory.get? a t.mem = Memory.get? a s.mem)
    (hd : drawAt t a = drawAt s a) : readByte t a = readByte s a := by
  simp [readByte, hm, hd]

/-- A state with the same memory and draws reads the same bytes. -/
theorem readByte_of_same {s t : State} (a : Nat) (hm : t.mem = s.mem) (hi : t.inDraw = s.inDraw)
    (ho : t.outDraw = s.outDraw) (hp : t.permDraw = s.permDraw) : readByte t a = readByte s a :=
  readByte_congr (by rw [hm]) (by simp [drawAt, hi, ho, hp])

/-- What every byte reads after OUT_BUF was written. -/
theorem readByte_setOut (bs : List Byte) (s : State) (a : Nat) :
    readByte (setOut bs s) a =
      if outBase ≤ a ∧ a < outBase + bs.length then bs.getD (a - outBase) 0 else readByte s a := by
  have hd : drawAt (setOut bs s) a = drawAt s a := rfl
  simp only [readByte, hd, setOut_mem, Memory.get?_writeBytes]
  split_ifs with h
  · rw [List.getD_eq_getElem?_getD, List.getElem?_eq_getElem (by omega)]
    rfl
  · rfl

/-- What every byte reads after IN_BUF was written. -/
theorem readByte_setIn (o : Nat) (bs : List Byte) (s : State) (a : Nat) :
    readByte (setIn o bs s) a =
      if inBase + o ≤ a ∧ a < inBase + o + bs.length then bs.getD (a - (inBase + o)) 0
      else readByte s a := by
  have hd : drawAt (setIn o bs s) a = drawAt s a := rfl
  simp only [readByte, hd, setIn_mem, Memory.get?_writeBytes]
  split_ifs with h
  · rw [List.getD_eq_getElem?_getD, List.getElem?_eq_getElem (by omega)]
    rfl
  · rfl

/-- A byte outside the stored entries reads as before after PERM was written. -/
theorem readByte_setPerm_of_outside (ps : List Nat) (s : State) {a : Nat}
    (h : a < permBase ∨ permBase + 4 * ps.length ≤ a) : readByte (setPerm ps s) a = readByte s a := by
  refine readByte_congr ?_ rfl
  rw [setPerm_mem, Memory.get?_writeEntries, if_neg (by omega)]

/-- The two bytes of a 16-bit number make it up. -/
theorem half_of_bytes (w : Half) : (w.extractLsb' 8 8 ++ w.extractLsb' 0 8 : Half) = w := by
  ext i hi
  simp only [BitVec.getElem_append, BitVec.getElem_extractLsb']
  split_ifs with h8
  · simp [BitVec.getLsbD_eq_getElem hi]
  · rw [show 8 + (i - 8) = i by omega, BitVec.getLsbD_eq_getElem hi]

/-- The bytes of a stored entry, wherever the entries were stored. -/
theorem Memory.get?_writeEntries_entry (a : Nat) (ps : List Nat) (m : Memory) {r k : Nat}
    (h : r < ps.length) (hk : k < 2) :
    Memory.get? (a + 4 * r + k) (m.writeEntries a ps) =
      some ((BitVec.ofNat 16 ps[r]).extractLsb' (8 * k) 8) := by
  rw [Memory.get?_writeEntries, if_pos (by omega), show (a + 4 * r + k - a) / 4 = r by omega,
    show (a + 4 * r + k - a) % 4 = k by omega, List.getElem?_eq_getElem h]
  rfl

/-- The entries that were stored read back. -/
theorem permEntry_setPerm (ps : List Nat) (s : State) {r : Nat} (h : r < ps.length) :
    permEntry (setPerm ps s) r = BitVec.ofNat 16 ps[r] := by
  have h0 := Memory.get?_writeEntries_entry permBase ps s.mem h (k := 0) (by omega)
  have h1 := Memory.get?_writeEntries_entry permBase ps s.mem h (k := 1) (by omega)
  rw [Nat.add_zero] at h0
  simp only [permEntry, readByte, setPerm_mem, h0, h1, Option.getD_some]
  exact half_of_bytes _

/-- A byte of OUT_BUF that was forgotten is the free value of the fresh draw. -/
theorem readByte_unspecifyOut (s : State) (a : Nat) :
    readByte (unspecifyOut s) a =
      if outBase ≤ a ∧ a < permBase then Config.freeByte s.draws a else readByte s a := by
  have ob : outBase = 0x20000 := rfl
  have pb : permBase = 0x40000 := rfl
  simp only [readByte, drawAt, unspecifyOut_mem, unspecifyOut_inDraw, unspecifyOut_outDraw,
    unspecifyOut_permDraw, Memory.get?_forget]
  by_cases h1 : a < outBase
  · simp [h1, show ¬ outBase ≤ a by omega]
  · by_cases h2 : a < permBase
    · simp [h1, h2, show outBase ≤ a by omega]
    · simp [h1, h2]

/-- A byte of PERM that was forgotten is the free value of the fresh draw. -/
theorem readByte_unspecifyPerm (s : State) {a : Nat} (ha : a < offsetEnd) :
    readByte (unspecifyPerm s) a =
      if permBase ≤ a then Config.freeByte s.draws a else readByte s a := by
  have ob : outBase = 0x20000 := rfl
  have pb : permBase = 0x40000 := rfl
  simp only [readByte, drawAt, unspecifyPerm_mem, unspecifyPerm_inDraw, unspecifyPerm_outDraw,
    unspecifyPerm_permDraw, Memory.get?_forget]
  by_cases h1 : permBase ≤ a
  · have h2 : ¬ a < outBase := by omega
    have h3 : ¬ a < permBase := by omega
    simp [h1, h2, h3, ha]
  · have h3 : a < permBase := by omega
    simp [h1, h3]

/-- Below OUT_BUF an error leaves every byte as it was; so does an error that writes nothing. -/
theorem readByte_raiseError_of_lt (w : ErrorWrites) (e : ErrorCode) (s : State) {a : Nat}
    (h : a < outBase) : readByte (raiseError w e s) a = readByte s a := by
  have ob : outBase = 0x20000 := rfl
  have pb : permBase = 0x40000 := rfl
  have h2 : ¬ permBase ≤ a := by omega
  have h3 : ¬ outBase ≤ a := by omega
  cases w <;> refine readByte_congr ?_ (by simp [drawAt, h]) <;>
    simp [Memory.get?_forget, h2, h3]

end Sys2Proof.Machine
end

