-- ==== Sys2Proof/Laws/Functions.lean ====
section
/-! SUPPORT. The lengths and elements of what the pure functions answer: hash, hex, tile, permutation, cipher. -/

namespace Sys2Proof.Machine

/-! ### Buffers and operands -/

@[simp] theorem length_inBytes (s : State) (n : Nat) : (inBytes s n).length = n := by simp [inBytes]
@[simp] theorem length_outBytes (s : State) (n : Nat) : (outBytes s n).length = n := by simp [outBytes]
@[simp] theorem length_permEntries (s : State) (n : Nat) : (permEntries s n).length = n := by
  simp [permEntries]
@[simp] theorem length_inputBytes (s : State) : (inputBytes s).length = inputLength s := by
  simp [inputBytes]

theorem hashSize_le (s : State) : hashSize s ≤ 255 := Nat.le_of_lt_succ s.hvSize.isLt

@[simp] theorem length_hashVector (s : State) : (hashVector s).length = hashSize s := by
  simpa [hashVector] using hashSize_le s

theorem inputTooLong_iff (s : State) : inputTooLong s = true ↔ s.params.inDepth < inputLength s := by
  simp [inputTooLong]

/-- What each HV entry holds after the first ones were set. -/
theorem getElem_setHv (r : List Byte) (hv : Vector Byte 255) (j : Nat) (h : j < 255) :
    (setHv r hv)[j] = if j < r.length then r.getD j 0 else hv[j] := by
  simp only [setHv, Vector.getElem_ofFn, List.getD_eq_getElem?_getD]
  split_ifs with hj
  · simp [List.getElem?_eq_getElem hj]
  · simp [List.getElem?_eq_none (Nat.not_lt.1 hj)]

/-! ### The keyed hash -/

@[simp] theorem length_hashSlots (pb t : Nat) (rs : List Nat) : (hashSlots pb t rs).1.length = rs.length := by
  induction rs generalizing t with
  | nil => rfl
  | cons r rs ih => simp [hashSlots, ih]

@[simp] theorem length_hashBytes (key : List Byte) (k t : Nat) (rs : List Nat) :
    (hashBytes key k t rs).length = rs.length := by
  induction key generalizing k t rs with
  | nil => rfl
  | cons b key ih => simp [hashBytes, ih]

@[simp] theorem length_hashEntries (key : List Byte) (size : Nat) :
    (hashEntries key size).length = size := by
  simp [hashEntries, keyedHash]

/-! ### Hexadecimal -/

@[simp] theorem length_hex2 (v : Byte) : (hex2 v).length = 2 := rfl

@[simp] theorem length_hexStr (s : List Byte) : (hexStr s).length = 2 * s.length := by
  induction s with
  | nil => rfl
  | cons b s ih =>
    simp only [hexStr, List.flatMap_cons, List.length_append, length_hex2, List.length_cons] at ih ⊢
    omega

theorem length_hexDecode (s : List Byte) : (hexDecode s).length = s.length / 2 := by
  induction s using hexDecode.induct with
  | case1 c1 c2 s ih =>
    simp only [hexDecode, List.length_cons, ih]
    omega
  | case2 s h =>
    match s with
    | [] => rfl
    | [_] => simp [hexDecode]
    | c1 :: c2 :: s => exact absurd rfl (h c1 c2 s)

/-! ### Tile and permutation -/

@[simp] theorem length_tile (hv : List Byte) (n : Nat) : (tile hv n).length = n := by simp [tile]

theorem getElem_tile (hv : List Byte) (n p : Nat) (h : p < (tile hv n).length) :
    (tile hv n)[p] = hv.getD (p % hv.length) 0 := by simp [tile]

/-- The permutation rearranges `range(N)`. -/
theorem permutation_perm (hv : List Byte) (n : Nat) : (permutation hv n).Perm (List.range n) :=
  List.perm_insertionSort _ _

@[simp] theorem length_permutation (hv : List Byte) (n : Nat) : (permutation hv n).length = n := by
  simpa using (permutation_perm hv n).length_eq

theorem lt_of_mem_permutation {hv : List Byte} {n p : Nat} (h : p ∈ permutation hv n) : p < n :=
  List.mem_range.1 ((permutation_perm hv n).mem_iff.1 h)

theorem nodup_permutation (hv : List Byte) (n : Nat) : (permutation hv n).Nodup :=
  (permutation_perm hv n).nodup_iff.2 List.nodup_range

/-! ### The cipher -/

@[simp] theorem length_xorAt (v : List Byte) (pos c : Nat) : (xorAt v pos c).length = v.length := by
  simp [xorAt]

@[simp] theorem length_xorPass (v : List Byte) (pm cps : List Nat) :
    (xorPass v pm cps).length = v.length := by
  unfold xorPass
  induction pm.zip cps generalizing v with
  | nil => rfl
  | cons x xs ih => simp [List.foldl_cons, ih]

@[simp] theorem length_encipher_bytes (cps : List Nat) (len : Nat) (hv : List Byte) :
    (encipher cps len hv).bytes.length = outputSize hv.length len := by
  simp [encipher]

@[simp] theorem encipher_size (cps : List Nat) (len : Nat) (hv : List Byte) :
    (encipher cps len hv).size = outputSize hv.length len := rfl

@[simp] theorem encipher_perm (cps : List Nat) (len : Nat) (hv : List Byte) :
    (encipher cps len hv).perm = permutation hv (outputSize hv.length len) := rfl

/-- With a length that is a multiple of the hash size, `vectorSize` is that length (R116). -/
theorem mul_ceilDiv_of_mod_eq_zero {m hs : Nat} (hhs : 0 < hs) (h : m % hs = 0) :
    hs * ceilDiv m hs = m := by
  obtain ⟨k, rfl⟩ := Nat.dvd_of_mod_eq_zero h
  have : (hs * k + hs - 1) / hs = k := by
    rw [Nat.add_sub_assoc hhs, Nat.mul_add_div hhs, Nat.div_eq_of_lt (by omega), Nat.add_zero]
  rw [ceilDiv, this]

theorem decipher_size {d hv : List Byte} (hhs : 0 < hv.length) (h : d.length % hv.length = 0) :
    (decipher d hv).size = d.length := mul_ceilDiv_of_mod_eq_zero hhs h

theorem decipher_perm {d hv : List Byte} (hhs : 0 < hv.length) (h : d.length % hv.length = 0) :
    (decipher d hv).perm = permutation hv d.length := by
  simp only [decipher, mul_ceilDiv_of_mod_eq_zero hhs h]

end Sys2Proof.Machine
end

