-- ==== Sys2Proof/Laws/Ops.lean ====
section
/-! SUPPORT. What each shared operation, each meaning and the step can do, said once: if it answers a next state, then one
of the listed cases holds. -/

namespace Sys2Proof.Machine

/-! ### Ends of a meaning -/

@[simp] theorem completed_eq (s : State) : completed s = .next (complete s) := rfl

@[simp] theorem raised_eq (w : ErrorWrites) (e : ErrorCode) (s : State) :
    raised w e s = .next (raiseError w e s) := rfl

/-- Every error has one of the codes 1 to 8 (R126). -/
theorem errorBits_range (e : ErrorCode) : 1 ≤ errorBits e ∧ errorBits e ≤ 8 := by
  cases e <;> decide

/-! ### Meanings -/

/-- What HASH can do (R96). -/
theorem execHash_cases {size : Nat} {s t : State} (h : execHash size s = .next t) :
    (size = 0 ∧ t = raiseError .nothing .invalidKeySize s) ∨
      (size ≠ 0 ∧ inputTooLong s = true ∧ t = raiseError .nothing .capacity s) ∨
      (size ≠ 0 ∧ inputTooLong s = false ∧
        t = complete { s with
          hv := setHv (hashEntries (inputBytes s) size) s.hv, hvSize := BitVec.ofNat 8 size }) := by
  unfold execHash at h
  split_ifs at h with h1 h2 <;> simp only [raised_eq, completed_eq, Host.Outcome.next.injEq] at h <;>
    simp_all

/-- What HEXHV does (R97). -/
theorem execHexhv_eq (s : State) :
    execHexhv s = .next (complete
      (setOut (hexStr (hashVector s)) { s with outLen := BitVec.ofNat 32 (2 * hashSize s) })) := rfl

/-- What PERMUTE can do (R104). -/
theorem execPermute_cases {n : Nat} {s t : State} (h : execPermute n s = .next t) :
    (hashSize s = 0 ∧ t = raiseError .perm .emptyHash s) ∨
      (hashSize s ≠ 0 ∧ s.params.permDepth < n ∧ t = raiseError .perm .capacity s) ∨
      (hashSize s ≠ 0 ∧ n ≤ s.params.permDepth ∧
        t = complete (storePermutation (permutation (hashVector s) n) n s)) := by
  unfold execPermute at h
  split_ifs at h with h1 h2 <;> simp only [raised_eq, completed_eq, Host.Outcome.next.injEq] at h
  · exact .inl ⟨h1, h.symm⟩
  · exact .inr (.inl ⟨h1, h2, h.symm⟩)
  · exact .inr (.inr ⟨h1, Nat.not_lt.1 h2, h.symm⟩)

/-- What ENCRYPT can do once its text was decoded (R117). -/
theorem encryptPoints_cases {cps : List Nat} {s t : State} (h : encryptPoints cps s = .next t) :
    ((∃ c ∈ cps, 0xFF < c) ∧ t = raiseError .outAndPerm .codePointRange s) ∨
      ((∀ c ∈ cps, c ≤ 0xFF) ∧
        (s.params.permDepth < outputSize (hashSize s) (inputLength s) ∨
          s.params.outDepth < 2 * outputSize (hashSize s) (inputLength s)) ∧
        t = raiseError .outAndPerm .capacity s) ∨
      ((∀ c ∈ cps, c ≤ 0xFF) ∧ outputSize (hashSize s) (inputLength s) ≤ s.params.permDepth ∧
        2 * outputSize (hashSize s) (inputLength s) ≤ s.params.outDepth ∧
        t = complete (storeCipher (hexStr (encipher cps (inputLength s) (hashVector s)).bytes)
          (encipher cps (inputLength s) (hashVector s)) s)) := by
  unfold encryptPoints at h
  simp only [List.any_eq_true, decide_eq_true_eq] at h
  split_ifs at h with h1 h2 <;> simp only [raised_eq, completed_eq, Host.Outcome.next.injEq] at h
  · exact .inl ⟨h1, h.symm⟩
  · push Not at h1
    exact .inr (.inl ⟨h1, h2, h.symm⟩)
  · push Not at h1 h2
    exact .inr (.inr ⟨h1, h2.1, h2.2, h.symm⟩)

/-- What ENCRYPT can do (R117). -/
theorem execEncrypt_cases {s t : State} (h : execEncrypt s = .next t) :
    (hashSize s = 0 ∧ t = raiseError .outAndPerm .emptyHash s) ∨
      (hashSize s ≠ 0 ∧ inputTooLong s = true ∧ t = raiseError .outAndPerm .capacity s) ∨
      (hashSize s ≠ 0 ∧ inputTooLong s = false ∧ utf8Decode (inputBytes s) = none ∧
        t = raiseError .outAndPerm .malformedText s) ∨
      (hashSize s ≠ 0 ∧ inputTooLong s = false ∧
        ∃ cps, utf8Decode (inputBytes s) = some cps ∧ encryptPoints cps s = .next t) := by
  unfold execEncrypt at h
  split_ifs at h with h1 h2
  · exact .inl ⟨h1, by simpa using h.symm⟩
  · exact .inr (.inl ⟨h1, h2, by simpa using h.symm⟩)
  · have h2' : inputTooLong s = false := by simpa using h2
    split at h
    · next hd => exact .inr (.inr (.inl ⟨h1, h2', hd, by simpa using h.symm⟩))
    · next cps hd => exact .inr (.inr (.inr ⟨h1, h2', cps, hd, h⟩))

/-- What DECRYPT can do once its hex was decoded (R118). -/
theorem decryptBytes_cases {d : List Byte} {s t : State} (h : decryptBytes d s = .next t) :
    (d.length % hashSize s ≠ 0 ∧ t = raiseError .outAndPerm .ciphertextLength s) ∨
      (d.length % hashSize s = 0 ∧ s.params.permDepth < d.length ∧
        t = raiseError .outAndPerm .capacity s) ∨
      (d.length % hashSize s = 0 ∧ d.length ≤ s.params.permDepth ∧
        s.params.outDepth < (utf8Encode (decipher d (hashVector s)).bytes).length ∧
        t = raiseError .outAndPerm .capacity s) ∨
      (d.length % hashSize s = 0 ∧ d.length ≤ s.params.permDepth ∧
        (utf8Encode (decipher d (hashVector s)).bytes).length ≤ s.params.outDepth ∧
        t = complete (storeCipher (utf8Encode (decipher d (hashVector s)).bytes)
          (decipher d (hashVector s)) s)) := by
  unfold decryptBytes at h
  dsimp only at h
  split_ifs at h with h1 h2 h3 <;>
    simp only [raised_eq, completed_eq, Host.Outcome.next.injEq] at h
  · exact .inl ⟨h1, h.symm⟩
  · exact .inr (.inl ⟨not_not.1 h1, h2, h.symm⟩)
  · exact .inr (.inr (.inl ⟨not_not.1 h1, Nat.not_lt.1 h2, h3, h.symm⟩))
  · exact .inr (.inr (.inr ⟨not_not.1 h1, Nat.not_lt.1 h2, Nat.not_lt.1 h3, h.symm⟩))

/-- What DECRYPT can do (R118). -/
theorem execDecrypt_cases {s t : State} (h : execDecrypt s = .next t) :
    (hashSize s = 0 ∧ t = raiseError .outAndPerm .emptyHash s) ∨
      (hashSize s ≠ 0 ∧ inputTooLong s = true ∧ t = raiseError .outAndPerm .capacity s) ∨
      (hashSize s ≠ 0 ∧ inputTooLong s = false ∧
        (inputLength s = 0 ∨ inputLength s % 2 = 1 ∨ allHex (inputBytes s) = false) ∧
        t = raiseError .outAndPerm .malformedCiphertext s) ∨
      (hashSize s ≠ 0 ∧ inputTooLong s = false ∧ inputLength s ≠ 0 ∧ inputLength s % 2 = 0 ∧
        allHex (inputBytes s) = true ∧ decryptBytes (hexDecode (inputBytes s)) s = .next t) := by
  unfold execDecrypt at h
  split_ifs at h with h1 h2 h3 h4
  · exact .inl ⟨h1, by simpa using h.symm⟩
  · exact .inr (.inl ⟨h1, h2, by simpa using h.symm⟩)
  · exact .inr (.inr (.inl ⟨h1, by simpa using h2, by tauto, by simpa using h.symm⟩))
  · exact .inr (.inr (.inl ⟨h1, by simpa using h2, by tauto, by simpa using h.symm⟩))
  · push Not at h3
    exact .inr (.inr (.inr ⟨h1, by simpa using h2, h3.1, by omega, by simpa using h4, h⟩))

/-! ### The bus -/

/-- A guarded write either drops the write or performs it (R44). -/
theorem guardedWrite_cases (f : State → State) (s : State) :
    (s.status.busy = true ∧ guardedWrite f s = dropWrite s) ∨
      (s.status.busy = false ∧ guardedWrite f s = f s) := by
  cases h : s.status.busy <;> simp [guardedWrite, h]

/-- What a write to a register can do (R24 to R35). -/
theorem writeReg_cases (r : Reg) (v : Word) (s : State) :
    (s.status.busy = true ∧ (r = .cmd ∨ r = .inLen ∨ r = .hvSize) ∧ writeReg r v s = dropWrite s) ∨
      (s.status.busy = false ∧ r = .cmd ∧ writeReg r v s = accept v s) ∨
      (s.status.busy = false ∧ r = .inLen ∧ writeReg r v s = { s with inLen := v }) ∨
      (s.status.busy = false ∧ r = .hvSize ∧ writeReg r v s = { s with hvSize := v.setWidth 8 }) ∨
      (r = .status ∧ writeReg r v s = { s with status := writtenStatus v s.status }) ∨
      (r = .irqEn ∧ writeReg r v s = { s with irqEn := v.getLsbD 0 }) ∨
      (r = .irqStatus ∧ writeReg r v s = { s with irqDone := writtenIrqDone v s.irqDone }) ∨
      writeReg r v s = s := by
  cases h : s.status.busy <;> cases r <;> simp [writeReg, guardedWrite, h]

/-- What a performed write can do (R57). -/
theorem performWrite_cases (g : Region) (a n : Nat) (v : Word) (s : State) :
    (s.status.busy = true ∧ (g = .inBuf ∨ g = .hv) ∧ performWrite g a n v s = dropWrite s) ∨
      (s.status.busy = false ∧ g = .inBuf ∧
        performWrite g a n v s = setIn (a - inBase) (dataBytes n v) s) ∨
      (s.status.busy = false ∧ g = .hv ∧
        performWrite g a n v s = writeHvEntry ((a - hvBase) / 4) (v.setWidth 8) s) ∨
      (g = .registers ∧ ∃ r, regAt a = some r ∧ performWrite g a n v s = writeReg r v s) ∨
      performWrite g a n v s = s := by
  cases g
  case registers =>
    cases h : regAt a with
    | none => simp [performWrite, h]
    | some r => simp [performWrite, h]
  all_goals cases h : s.status.busy <;> simp [performWrite, guardedWrite, h]

/-- What a performed read does: it writes the response, and the draw counter where it took a draw
(R58). -/
theorem performRead_cases (g : Region) (a n : Nat) (s : State) :
    (s.status.busy = true ∧ hiddenWhenBusy g a = true ∧
        performRead g a n s =
          { s with
            response := some (.okayRead n (lowBytes n (Config.freeWord s.draws))), draws := s.draws + 1 }) ∨
      ((s.status.busy = false ∨ hiddenWhenBusy g a = false) ∧
        performRead g a n s = { s with response := some (.okayRead n (storedData s g a n)) }) := by
  cases h : s.status.busy <;> cases h' : hiddenWhenBusy g a <;> simp [performRead, h, h']

/-- A transaction that answers a next state was performed in a row of the map (R56, R151). -/
theorem busStep_cases {t : Transaction} {s u : State} (h : busStep t s = .next u) :
    s.rstN = true ∧ ∃ r, accessRow s.params (transactionOffset t).toNat (transactionSize t) = some r ∧
      u = performTransaction r.region t s := by
  unfold busStep at h
  split_ifs at h with h1
  refine ⟨by simpa using h1, ?_⟩
  split at h
  · simp at h
  · next r hr => exact ⟨r, hr, by simpa using h.symm⟩

/-- What an accepted access satisfies (R54 to R56). -/
theorem accessRow_some {p : Config.Params} {a n : Nat} {r : MapRow} (h : accessRow p a n = some r) :
    (n = 1 ∨ n = 2 ∨ n = 4) ∧ a % n = 0 ∧ (∀ i < n, (rowAt p (a + i)).isSome = true) ∧
      rowAt p a = some r ∧ widthAllowed r n = true := by
  unfold accessRow at h
  split_ifs at h with h1 h2 h3
  simp only [Option.filter_eq_some_iff] at h
  simp only [Bool.not_eq_true', Bool.or_eq_false_iff, beq_eq_false_iff_ne, not_and, not_not] at h1
  refine ⟨by tauto, not_not.1 h2, fun i hi => ?_, h.1, h.2⟩
  simp only [List.any_eq_true, List.mem_range, not_exists, not_and] at h3
  simpa [Option.isSome_iff_ne_none] using h3 i hi

/-- The row that maps an offset holds it and is one of the map (R49). -/
theorem rowAt_some {p : Config.Params} {a : Nat} {r : MapRow} (h : rowAt p a = some r) :
    r ∈ addressMap p ∧ r.base ≤ a ∧ a < r.base + r.size := by
  refine ⟨List.mem_of_find?_eq_some h, ?_⟩
  simpa [MapRow.holds] using List.find?_some h

@[simp] theorem transactionOffset_read (off : Offset) (n : Nat) : transactionOffset (.read off n) = off := rfl
@[simp] theorem transactionOffset_write (off : Offset) (n : Nat) (v : Word) :
    transactionOffset (.write off n v) = off := rfl
@[simp] theorem transactionSize_read (off : Offset) (n : Nat) : transactionSize (.read off n) = n := rfl
@[simp] theorem transactionSize_write (off : Offset) (n : Nat) (v : Word) :
    transactionSize (.write off n v) = n := rfl

/-- Where the offsets of each region lie (R49). -/
theorem rowAt_region {p : Config.Params} {a : Nat} {r : MapRow} (h : rowAt p a = some r) :
    (r.region = .registers ∧ r.anyWidth = false ∧ a < 0x40) ∨
      (r.region = .hv ∧ r.anyWidth = false ∧ 0x400 ≤ a ∧ a < 0x7FC) ∨
      (r.region = .prime ∧ r.anyWidth = false ∧ 0x800 ≤ a ∧ a < 0xAA0) ∨
      (r.region = .inBuf ∧ r.anyWidth = true ∧ 0x10000 ≤ a ∧ a < 0x10000 + p.inDepth) ∨
      (r.region = .outBuf ∧ r.anyWidth = true ∧ 0x20000 ≤ a ∧ a < 0x20000 + p.outDepth) ∨
      (r.region = .perm ∧ r.anyWidth = false ∧ 0x40000 ≤ a ∧ a < 0x40000 + 4 * p.permDepth) := by
  obtain ⟨hm, h1, h2⟩ := rowAt_some h
  simp only [addressMap, List.mem_cons, List.not_mem_nil, or_false] at hm
  rcases hm with rfl | rfl | rfl | rfl | rfl | rfl <;>
    simp only [hvBase, hvDepth, primeBase, primeCount, inBase, outBase, permBase] at h1 h2 <;> simp <;> omega

/-- An offset is mapped when some region's mapped part holds it (R49). -/
theorem rowAt_isSome (p : Config.Params) (a : Nat) : (rowAt p a).isSome = true ↔ isMapped p a := by
  simp only [rowAt, List.find?_isSome, addressMap, MapRow.holds, isMapped, hvBase, hvDepth, primeBase,
    primeCount, inBase, outBase, permBase]
  simp

/-- The offsets of the registers that the busy window treats apart, and of STATUS (R23, R44). -/
theorem regAt_offset {a : Nat} {r : Reg} (h4 : a % 4 = 0) (h : a < 0x40) (hr : regAt a = some r) :
    (r = .cmd ↔ a = 0x008) ∧ (r = .status ↔ a = 0x00C) ∧ (r = .inLen ↔ a = 0x010) ∧
      (r = .outLen ↔ a = 0x014) ∧ (r = .hvSize ↔ a = 0x018) ∧ (r = .permLen ↔ a = 0x01C) := by
  obtain ⟨k, rfl⟩ : ∃ k, a = 4 * k := ⟨a / 4, by omega⟩
  have hk : k < 16 := by omega
  interval_cases k <;> simp [regAt, registerMap] at hr <;> subst hr <;> simp

/-! ### Steps -/

/-- What the engine's turn can do (R128, R78). -/
theorem engineTurn_cases {s t : State} (h : engineTurn s = .next t) :
    (engineEnabled s = false ∧ t = s) ∨
      (engineEnabled s = true ∧ ∃ i, decode s.cmd = .ok i ∧ exec i s = .next t) ∨
      (engineEnabled s = true ∧ (∃ e, decode s.cmd = .error e) ∧
        t = raiseError .nothing .illegalCommand s) := by
  unfold engineTurn at h
  split_ifs at h with h1
  · unfold completionStep at h
    split at h
    · next i hi => exact .inr (.inl ⟨h1, i, hi, h⟩)
    · next e he => exact .inr (.inr ⟨h1, ⟨e, he⟩, by simpa using h.symm⟩)
  · exact .inl ⟨by simpa using h1, by simpa using h.symm⟩

/-- What a step can do: the engine's turn when the schedule is used up, or its first event. -/
theorem step_cases {s t : State} (h : step s = .next t) :
    (s.schedule = [] ∧ engineTurn s = .next t) ∨
      ∃ rest,
        (s.schedule = .engine :: rest ∧ engineTurn { s with schedule := rest } = .next t) ∨
        (∃ x, s.schedule = .bus x :: rest ∧ busStep x { s with schedule := rest } = .next t) ∨
        (s.schedule = .resetLow :: rest ∧ t = assertReset { s with schedule := rest }) ∨
        (s.schedule = .resetHigh :: rest ∧ t = releaseReset { s with schedule := rest }) := by
  unfold step stepEvent at h
  split at h
  · next hs => exact .inl ⟨hs, h⟩
  · next e rest hs =>
    refine .inr ⟨rest, ?_⟩
    cases e with
    | bus x => exact .inr (.inl ⟨x, hs, h⟩)
    | engine => exact .inl ⟨hs, h⟩
    | resetLow => exact .inr (.inr (.inl ⟨hs, by simpa [perform] using h.symm⟩))
    | resetHigh => exact .inr (.inr (.inr ⟨hs, by simpa [perform] using h.symm⟩))

end Sys2Proof.Machine
end

