-- ==== Sys2Proof/Laws/PerInstr.lean ====
section
/-! SUPPORT. A law that is proved for each command apart: the encoding of a well-formed command lies in its own row of
the opcode map (spec/30_encoding.md R75). -/

namespace Sys2Proof.Laws.EncodeInRow

/-- The word of a well-formed command matches its row: `(w & mask) = match` (R75). -/
def Statement (i : Instr) : Prop := i.WellFormed → encode i &&& maskWord i = matchWord i

theorem nop : Statement .nop := fun _ => by decide

theorem hash (size : Nat) : Statement (.hash size) := fun h => by
  have hs : size ≤ 255 := by simpa [Instr.WellFormed, Instr.wellFormed] using h
  have all : ∀ k < 256, encode (.hash k) &&& maskWord (.hash k) = matchWord (.hash k) := by decide +kernel
  exact all size (by omega)

theorem hexhv : Statement .hexhv := fun _ => by decide

theorem permute (n : Nat) : Statement (.permute n) := fun _ => by
  simp only [encode, matchWord, maskWord, operandWord]
  generalize BitVec.ofNat 32 n = x
  ext i hi
  interval_cases i <;> simp

theorem encrypt : Statement .encrypt := fun _ => by decide

theorem decrypt : Statement .decrypt := fun _ => by decide

end Sys2Proof.Laws.EncodeInRow
end

