-- ==== Sys2Proof/Machine/Script.lean ====
section
/-! DEFINITION. The host script of spec/30_encoding.md R82 as the events it puts into the schedule. It is notation
for programs, not normative for the hardware (spec/92_eei_decisions.md D29). -/

namespace Sys2Proof.Machine

/-- The operations and pseudo-operations of R82. What a host learns while its script runs is an argument
here (log 20): how often WAIT reads BUSY = 1, and the length that READOUT and READPERM read first. -/
inductive ScriptOp where
  /-- `WR32`, `WR16`, `WR8`: `n` is the size in bytes. -/
  | wr (n : Nat) (off : Offset) (v : Word)
  /-- `RD32`, `RD16`, `RD8`. -/
  | rd (n : Nat) (off : Offset)
  /-- `CMD <command>`. -/
  | cmd (i : Instr)
  /-- `WAIT`, whose first `polls` reads still find BUSY = 1. -/
  | wait (polls : Nat)
  /-- `LOADIN` of the bytes of a string (R83). -/
  | loadIn (b : List Byte)
  /-- `LOADHV [h0, ..., hk]`. -/
  | loadHv (h : List Byte)
  /-- `READOUT`, whose read of OUT_LEN returned `len`. -/
  | readOut (len : Nat)
  /-- `READPERM`, whose read of PERM_LEN returned `n`. -/
  | readPerm (n : Nat)
  deriving DecidableEq, Repr

/-- `BusWrite(off, n, v)` with the offset as a number. -/
def writeEvent (off n : Nat) (v : Word) : Event := .bus (.write (BitVec.ofNat 19 off) n v)

/-- `BusRead(off, n)` with the offset as a number. -/
def readEvent (off n : Nat) : Event := .bus (.read (BitVec.ofNat 19 off) n)

/-- Writes of `n` bytes each, the first at `off`, `stride` apart. -/
def writeEvents (n stride : Nat) : (off : Nat) → List Byte → List Event
  | _, [] => []
  | off, b :: bs => writeEvent off n (b.setWidth 32) :: writeEvents n stride (off + stride) bs

/-- The expansions of R82. -/
def expand : ScriptOp → List Event
  | .wr n off v => [.bus (.write off n v)]
  | .rd n off => [.bus (.read off n)]
  | .cmd i => [writeEvent 0x008 4 (encode i)]
  | .wait polls => List.replicate polls (readEvent 0x00C 4) ++ [.engine, readEvent 0x00C 4]
  | .loadIn b => writeEvents 1 1 inBase b ++ [writeEvent 0x010 4 (BitVec.ofNat 32 b.length)]
  | .loadHv h => writeEvents 4 4 hvBase h ++ [writeEvent 0x018 4 (BitVec.ofNat 32 h.length)]
  | .readOut len => readEvent 0x014 4 :: (List.range len).map fun i => readEvent (outBase + i) 1
  | .readPerm n => readEvent 0x01C 4 :: (List.range n).map fun r => readEvent (permBase + 4 * r) 4

/-- The schedule of a script. -/
def scriptEvents (ops : List ScriptOp) : List Event := ops.flatMap expand

/-- A host about to run a script from a state: its events come after those already scheduled. -/
def withScript (ops : List ScriptOp) (s : State) : State :=
  { s with schedule := s.schedule ++ scriptEvents ops }

end Sys2Proof.Machine
end

