-- ==== Sys2Proof/Tests/Slice0.lean ====
section
/-! SUPPORT. Tests on fixed values, each with its source in spec/, and for every statement with hypotheses a witness: a
concrete state and operands that meet them all. -/

namespace Sys2Proof.Tests

-- One test after the other: run side by side, their threads need more memory than check.sh grants.
set_option Elab.async false
open Sys2Proof Sys2Proof.Machine

/-! ### Helpers -/

/-- The hash vector of the passphrase "abc" (spec/95_test_vectors.md, hashabc). -/
def hashAbc : List Byte := [163, 65, 78, 141, 193, 173, 20, 183]

/-- The reset state with a hash vector and an input text. -/
def textState (hv text : List Byte) : State :=
  { State.reset with
    hv := setHv hv State.reset.hv, hvSize := BitVec.ofNat 8 hv.length,
    mem := Memory.writeBytes inBase text [], inLen := BitVec.ofNat 32 text.length }

/-- A state with BUSY = 1 and the word in CMD. -/
def busyState (w : Word) : State := { State.reset with cmd := w, status := acceptedStatus Status.reset }

/-- A state about to perform the events. -/
def scheduled (es : List Event) (s : State) : State := { s with schedule := es }

/-- The next state of an outcome, if it is one. -/
def resultOf : Host.Outcome State Fault Refusal → State
  | .next t => t
  | .fault _ => State.reset
  | .refused _ => State.reset

/-- The outcome is a next state. -/
def isNext : Host.Outcome State Fault Refusal → Bool
  | .next _ => true
  | .fault _ => false
  | .refused _ => false

theorem next_of_isNext {o : Host.Outcome State Fault Refusal} (h : isNext o = true) :
    o = .next (resultOf o) := by
  cases o with
  | next t => rfl
  | fault r => cases h
  | refused r => cases h

/-- The fault of an outcome, if it is one. -/
def faultOf : Host.Outcome State Fault Refusal → Option Fault
  | .fault r => some r
  | .next _ => none
  | .refused _ => none

/-! ### Decoding: words written out from the patterns of spec/30_encoding.md R72 and R84 -/

theorem test_decode_nop : decode 0b00000000000000000000000000000000 = .ok .nop := by decide
theorem test_decode_hash : decode 0b00000000000000000000100000000001 = .ok (.hash 8) := by decide
theorem test_decode_hash_all_ones : decode 0b00000000000000001111111100000001 = .ok (.hash 255) := by decide
theorem test_decode_hexhv : decode 0b00000000000000000000000000000010 = .ok .hexhv := by decide
theorem test_decode_permute : decode 0b00000000000100000000000000000011 = .ok (.permute 16) := by decide
theorem test_decode_permute_top : decode 0b10000000000000010000000000000011 = .ok (.permute 32769) := by decide
theorem test_decode_encrypt : decode 0b00000000000000000000000000000100 = .ok .encrypt := by decide
theorem test_decode_decrypt : decode 0b00000000000000000000000000000101 = .ok .decrypt := by decide
theorem test_decode_reserved_opcode : decode 0x0000000F = .error .reservedOpcode := by decide
theorem test_decode_reserved_field : decode 0x00000014 = .error .reservedField := by decide
theorem test_decode_unused_size : decode 0x0000FF03 = .error .unusedField := by decide
theorem test_decode_unused_n : decode 0x00010801 = .error .unusedField := by decide
theorem test_decode_bytes_low_first : decodeBytes [0x01, 0x08, 0x00, 0x00] = .ok (.hash 8) := by decide
theorem test_decode_bytes_length : decodeBytes [0x01, 0x08, 0x00] = .error .wrongLength := by decide
theorem test_table_word : decodeTableWord 32 0x00040003 = some (.permute 4) := by decide
theorem test_encode_hash : encode (.hash 8) = 0x00000801 := by decide
theorem test_encode_permute : encode (.permute 16) = 0x00100003 := by decide

/-! ### Well-formedness: each check refuses an ill-formed term -/

theorem test_hash_size_refused : ¬ (Instr.hash 256).WellFormed := by decide
theorem test_permute_n_refused : ¬ (Instr.permute 65536).WellFormed := by decide
theorem test_largest_operands : (Instr.hash 255).WellFormed ∧ (Instr.permute 65535).WellFormed := by decide

/-! ### The assembler (R80, R81, R84) -/

theorem test_assemble_hash : assemble ['h', 'a', 's', 'h', ' ', '0', 'x', '8'] = .ok 0x00000801 := by decide
theorem test_assemble_default : assemble ['H', 'A', 'S', 'H'] = .ok 0x00000801 := by decide
theorem test_assemble_range :
    assemble ['H', 'A', 'S', 'H', ' ', '2', '5', '6'] = .error .operandOutOfRange := by decide

/-! ### Functions (spec/40_keyed_hash.md, spec/41_permutation.md, spec/42_cipher.md; 95_test_vectors.md) -/

/-- The trace of hash("abc", 8) in spec/95_test_vectors.md section 3. -/
theorem test_hash_abc : keyedHash [0x61, 0x62, 0x63] 8 = [163, 65, 78, 141, 193, 173, 20, 183] := by decide +kernel
/-- H12: the prime cursor wraps after 168 bytes. -/
theorem test_hash_wraps :
    keyedHash ((List.range 169).map fun i => BitVec.ofNat 8 (i + 1)) 2 = [205, 49] := by decide +kernel
/-- R90. -/
theorem test_hex2 : hexStr [10, 0, 255] = [0x30, 0x61, 0x30, 0x30, 0x66, 0x66] := by decide
/-- P4. -/
theorem test_permutation_partial : permutation hashAbc 9 = [6, 1, 2, 3, 0, 8, 5, 7, 4] := by decide +kernel
/-- P5. -/
theorem test_permutation_ties : permutation [5, 5] 4 = [0, 1, 2, 3] := by decide +kernel
/-- E16, E17, E18 and the last scalar value (R110). -/
theorem test_utf8_overlong : utf8Decode [0xC0, 0x80] = none := by decide
theorem test_utf8_surrogate : utf8Decode [0xED, 0xA0, 0x80] = none := by decide
theorem test_utf8_euro : utf8Decode [0xE2, 0x82, 0xAC] = some [0x20AC] := by decide
theorem test_utf8_last : utf8Decode [0xF4, 0x8F, 0xBF, 0xBF] = some [0x10FFFF] := by decide

/-! ### One completion step of each command -/

theorem test_nop : (resultOf (exec .nop State.reset)).status = ⟨false, true, false, false, 0⟩ := by decide +kernel

/-- H3. -/
theorem test_hash_x :
    let t := resultOf (exec (.hash 1) (textState [] [0x78]))
    t.hv[0] = 240 ∧ t.hvSize = 1 ∧ statusWord t.status = 2 := by decide +kernel
/-- H14: entries beyond the new size keep their values. -/
theorem test_hash_keeps_rest :
    let t := resultOf (exec (.hash 1) (textState hashAbc [0x78, 0x79, 0x7A]))
    t.hv[0] = 1 ∧ t.hv[1] = 65 ∧ t.hv[7] = 183 ∧ t.hvSize = 1 := by decide +kernel
/-- X2. -/
theorem test_hexhv :
    let t := resultOf (exec .hexhv (textState [0, 255, 10, 16] []))
    outBytes t 8 = [0x30, 0x30, 0x66, 0x66, 0x30, 0x61, 0x31, 0x30] ∧ t.outLen = 8 := by decide +kernel
/-- P6. -/
theorem test_permute :
    let t := resultOf (exec (.permute 3) (textState [3, 1, 2] []))
    permEntries t 3 = [1, 2, 0] ∧ t.permLen = 3 := by decide +kernel
/-- P8. -/
theorem test_permute_empty :
    statusWord (resultOf (exec (.permute 3) State.reset)).status = 0x206 := by decide +kernel
/-- E1. -/
theorem test_encrypt_hello :
    let t := resultOf (exec .encrypt (textState hashAbc [0x48, 0x65, 0x6C, 0x6C, 0x6F]))
    outBytes t 16 = [0x63, 0x63, 0x32, 0x34, 0x32, 0x32, 0x65, 0x31, 0x63, 0x31, 0x61, 0x64, 0x35, 0x63, 0x62, 0x37] ∧
      permEntries t 8 = [6, 1, 2, 3, 0, 5, 7, 4] ∧ t.outLen = 16 := by decide +kernel
/-- E4: one code point of two bytes, three padding slots. -/
theorem test_encrypt_two_byte :
    let t := resultOf (exec .encrypt (textState [5, 5] [0xC3, 0xA9]))
    outBytes t 8 = [0x65, 0x63, 0x30, 0x35, 0x30, 0x35, 0x30, 0x35] ∧ t.outLen = 8 := by decide +kernel
/-- D10b: a wrong key and size, OUT_LEN larger than M. -/
theorem test_decrypt_wrong_key :
    let t := resultOf (exec .decrypt (textState [240]
      [0x63, 0x63, 0x32, 0x34, 0x32, 0x32, 0x65, 0x31, 0x63, 0x31, 0x61, 0x64, 0x35, 0x63, 0x62, 0x37]))
    outBytes t 11 = [60, 195, 148, 195, 146, 17, 49, 93, 194, 172, 71] ∧ t.outLen = 11 := by decide +kernel
/-- D16. -/
theorem test_decrypt_length :
    statusWord (resultOf (exec .decrypt (textState [1, 2] [0x61, 0x62, 0x63, 0x64, 0x65, 0x66]))).status = 0x406 := by
  decide +kernel

/-! ### The bus, the busy window and reset -/

/-- B1: registers take only 4-byte accesses. -/
theorem test_register_byte_read :
    faultOf (step (scheduled [.bus (.read 0x000 1)] State.reset)) = some (.busError 0x000 1) := by decide +kernel
/-- Section 2: the read past PRIME[167] is a bus error and PRIME[167] is 997. -/
theorem test_prime_end :
    faultOf (step (scheduled [.bus (.read 0xAA0 4)] State.reset)) = some (.busError 0xAA0 4) ∧
      (resultOf (step (scheduled [.bus (.read 0xA9C 4)] State.reset))).response = some (.okayRead 4 997) := by
  decide +kernel
/-- B6. -/
theorem test_half_read :
    (resultOf (step (scheduled [.bus (.read 0x10002 2)] (textState [] [0x61, 0x62, 0x63, 0x64])))).response =
      some (.okayRead 2 0x6463) := by decide +kernel
/-- B13: a write in the busy window is dropped and sets WBUSY. -/
theorem test_dropped_write :
    let t := resultOf (step (scheduled [.bus (.write 0x010 4 7)] (busyState 0)))
    t.inLen = 0 ∧ statusWord t.status = 0x9 := by decide +kernel
/-- B15. -/
theorem test_reset_while_busy :
    let t := resultOf (step (scheduled [.resetLow] (busyState 4)))
    statusWord t.status = 0 ∧ t.irqDone = false := by decide +kernel
/-- W2. -/
theorem test_illegal_word :
    statusWord (resultOf (step (State.reset.withFetchWord 32 0x00000006))).status = 0x806 := by decide +kernel
theorem test_fetch_word :
    (resultOf (step (State.reset.withFetchWord 32 0x00000801))).hvSize = 8 := by decide +kernel
theorem test_reset_memory_wf : Memory.wf State.reset.mem := by decide
/-- R86: the ROM is what the procedure answers, on its first rows. -/
theorem test_primes_small : generatePrimes 100 = primeTable.take 25 := by decide +kernel
/-- R82: LOADIN expands to byte writes and a write of IN_LEN. -/
theorem test_load_in :
    expand (.loadIn [0x61]) = [.bus (.write 0x10000 1 0x61), .bus (.write 0x010 4 1)] := by decide

/-! ### Witnesses of the hypotheses -/

theorem witness_EncodedCommandsDecode :
    (Instr.hash 255).WellFormed ∧ (Instr.permute 65535).WellFormed ∧ Instr.nop.WellFormed := by decide

theorem witness_DecodedWordsEncodeBack :
    decode 0x0000FF01 = .ok (.hash 255) ∧ decode 0xFFFF0003 = .ok (.permute 65535) := by decide

/-- Mixed letter case, a decimal operand at the top of the range and a hexadecimal one past it. -/
theorem witness_AssemblerFollowsEncoding :
    (['N', 'O', 'P'], 0x00000000#32) ∈ ([(['N', 'O', 'P'], 0x00000000#32)] : List (List Char × Word)) ∧
      ['h', 'A', 's', 'h'].map Char.toUpper = ['H', 'A', 'S', 'H'] ∧ ['2', '5', '5'] = Nat.toDigits 10 255 ∧
      ['p', 'E', 'R', 'm', 'u', 't', 'e'].map Char.toUpper = ['P', 'E', 'R', 'M', 'U', 'T', 'E'] ∧
      ['0', 'x', '1', '0', '0', '0', '0'] = '0' :: 'x' :: Nat.toDigits 16 65536 := by decide +kernel

theorem witness_StepRunsDecodedCommand :
    let s := busyState 0x00000801
    (s.rstN = true ∧ s.status.busy = true ∧ decode s.cmd = .ok (.hash 8) ∧ s.schedule = []) ∧
      (scheduled [.engine] s).schedule = .engine :: [] ∧
      (scheduled [.bus (.read 0x008 4)] s).schedule = .bus (.read 0x008 4) :: [] ∧
      (scheduled [.resetHigh] s).schedule = .resetHigh :: [] := by decide +kernel

theorem witness_IllegalWordEndsWithIllegalCommand :
    let s := scheduled [.bus (.write 0x008 4 6), .engine] State.reset
    decode 6 = .error .reservedOpcode ∧ s.rstN = true ∧ s.status.busy = false ∧
      s.schedule = [.bus (.write 0x008 4 6), .engine] := by decide +kernel

theorem witness_EngineIdleWithoutBusy :
    State.reset.status.busy = false ∧ State.reset.schedule = [] ∧
      (scheduled [.engine] State.reset).schedule = .engine :: [] := by decide +kernel

/-- The sizes 1 and 255, and IN_LEN at IN_DEPTH. -/
theorem witness_HashWritesHashVector :
    let s := textState [] [0x61]
    (1 ≤ 1 ∧ 1 ≤ 255 ∧ 1 ≤ 255 ∧ 255 ≤ 255) ∧ s.inLen.toNat ≤ s.params.inDepth ∧
      ({ s with inLen := 4096 } : State).inLen.toNat ≤ s.params.inDepth := by decide +kernel

/-- An entry in use, and HV_SIZE = 0. -/
theorem witness_HexhvWritesRendering :
    let s := textState [7] []
    (0 < 255 ∧ 0 < s.hvSize.toNat) ∧ (0 < 0 + 1 ∧ ¬ 0 < State.reset.hvSize.toNat) := by decide +kernel

/-- N = PERM_DEPTH, and N = 0. -/
theorem witness_PermuteWritesPermutation :
    let s := textState [5, 5] []
    (8192 ≤ 65535 ∧ 0 < s.hvSize.toNat ∧ 8192 ≤ s.params.permDepth ∧ 0 < 8192) ∧ 0 ≤ s.params.permDepth := by decide +kernel

theorem witness_EncryptWritesCiphertext :
    let s := textState [5, 5] [0xC3, 0xA9]
    s.params.Legal ∧ 0 < s.hvSize.toNat ∧ s.inLen.toNat ≤ s.params.inDepth ∧
      utf8Decode (inBytes s s.inLen.toNat) = some [0xE9] ∧ (∀ c ∈ [0xE9], c ≤ 0xFF) ∧
      4 = s.hvSize.toNat * (1 + s.inLen.toNat / s.hvSize.toNat) ∧ 4 ≤ s.params.permDepth ∧
      2 * 4 ≤ s.params.outDepth := by decide +kernel

theorem witness_DecryptWritesPlaintext :
    let s := textState [0] [0x66, 0x66]
    s.params.Legal ∧ 0 < s.hvSize.toNat ∧ s.inLen.toNat ≤ s.params.inDepth ∧ 0 < 1 ∧ s.inLen.toNat = 2 * 1 ∧
      allHex (inBytes s s.inLen.toNat) = true ∧ 1 % s.hvSize.toNat = 0 ∧ 1 ≤ s.params.permDepth ∧
      [0xC3, 0xBF] = utf8Encode (decipher (hexDecode (inBytes s s.inLen.toNat)) (hashVector s)).bytes ∧
      [0xC3, 0xBF].length ≤ s.params.outDepth := by decide +kernel

/-- Each clause; `next_of_isNext` gives the next state. -/
theorem witness_FirstFailingCheckIsReported :
    (decode (busyState 6).cmd = .error .reservedOpcode ∧ isNext (completionStep (busyState 6)) = true) ∧
      isNext (exec (.hash 0) State.reset) = true ∧ isNext (exec (.hash 255) State.reset) = true ∧
      isNext (exec (.permute 0) State.reset) = true ∧
      isNext (exec .encrypt (textState [5, 5] [0xC3, 0xA9])) = true ∧
      isNext (exec .decrypt (textState [0] [0x66, 0x66])) = true ∧ isNext (exec .nop State.reset) = true ∧
      isNext (exec .hexhv State.reset) = true := by decide +kernel

theorem witness_ErrorsLeaveInputsAndClearLengths :
    ∀ i ∈ [Instr.hash 0, Instr.permute 3, Instr.encrypt, Instr.decrypt],
      isNext (exec i State.reset) = true ∧ (resultOf (exec i State.reset)).status.err = true := by decide +kernel

/-- IN_LEN and N one past their capacities. -/
theorem witness_RejectedOperandsEndWithTheirError :
    (1 ≤ 1 ∧ State.reset.params.inDepth < ({ State.reset with inLen := 4097 } : State).inLen.toNat) ∧
      State.reset.hvSize = 0 ∧ (textState [5] []).hvSize ≠ 0 ∧ (textState [5] []).params.permDepth < 8193 ∧
      (textState [5] []).params.inDepth < ({ textState [5] [] with inLen := 4097 } : State).inLen.toNat := by decide +kernel

theorem witness_CommandsLeaveTheRestUnchanged :
    ∀ i ∈ [Instr.nop, Instr.hash 1, Instr.hexhv, Instr.permute 3, Instr.encrypt, Instr.decrypt],
      isNext (exec i (textState [0] [0x66, 0x66])) = true := by decide +kernel

theorem witness_HashSlotsAreRunningSums :
    0 < 1 ∧ 254 < 255 := by decide

theorem witness_PermutationHasRankForm :
    (0 < 4 ∧ 3 < 4) ∧ ∀ x ∈ ([5, 5] : List Byte), x = 5 := by decide

theorem witness_Utf8EncodeInvertsDecode :
    utf8Decode [0x41, 0xC3, 0xBF] = some [0x41, 0xFF] ∧ ∀ c ∈ [0x41, 0xFF], c ≤ 0xFF := by decide

theorem witness_Utf8DecodeYieldsScalarValues :
    utf8Decode [0xED, 0x9F, 0xBF] = some [0xD7FF] ∧ utf8Decode [0xEE, 0x80, 0x80] = some [0xE000] := by decide

/-- A sequence of three and one of four bytes at the ends of their ranges, and of each cause of `Malformed`
one. -/
theorem witness_Utf8DecodeFollowsItsTable :
    ([(0xED, 0xED), (0x80, 0x9F), (0x80, 0xBF)] ∈ utf8Rows ∧
        fitsRow [(0xED, 0xED), (0x80, 0x9F), (0x80, 0xBF)] [0xED, 0x9F, 0x80] = true) ∧
      ([(0xF4, 0xF4), (0x80, 0x8F), (0x80, 0xBF), (0x80, 0xBF)] ∈ utf8Rows ∧
        fitsRow [(0xF4, 0xF4), (0x80, 0x8F), (0x80, 0xBF), (0x80, 0xBF)] [0xF4, 0x8F, 0xBF, 0xBF] = true) ∧
      ∀ b ∈ ([[0x80], [0xC1, 0x80], [0xF5, 0x80, 0x80, 0x80], [0xED, 0xA0, 0x80], [0xE2, 0x82]] : List (List Byte)),
        b ≠ [] ∧ ∀ row ∈ utf8Rows, fitsRow row (b.take row.length) = false := by decide +kernel

/-- Both letter cases. -/
theorem witness_HexDecodeInvertsHexEncode :
    allHex [0x61, 0x46, 0x30, 0x39] = true ∧ ([0x61, 0x46, 0x30, 0x39] : List Byte).length = 2 * 2 ∧ 1 < 2 := by decide

theorem witness_EncipherFillsSlotsByRank :
    ([5, 5] : List Byte) ≠ [] ∧ [0xE9].length ≤ 2 ∧ 0 < outputSize 2 2 ∧ 3 < outputSize 2 2 ∧
      (permutation [5, 5] (outputSize 2 2))[0]? = some 0 ∧ (permutation [5, 5] (outputSize 2 2))[3]? = some 3 := by decide +kernel

theorem witness_DecipherInvertsEncipher :
    ([5, 5] : List Byte) ≠ [] ∧ [0xE9].length ≤ 2 ∧ ∀ c ∈ [0xE9], c ≤ 0xFF := by decide

/-- Values that no ENCRYPT with this hash vector made: no rank is 0. -/
theorem witness_DecipherReadsSlotsByRank :
    ([5, 5] : List Byte) ≠ [] ∧ ([1, 2, 3, 4] : List Byte).length % ([5, 5] : List Byte).length = 0 ∧ 3 < 4 ∧
      (decipher [1, 2, 3, 4] [5, 5]).bytes = [4, 7, 6, 1] := by decide +kernel

theorem witness_EncryptThenDecryptGivesTextBack :
    let s := textState [5, 5] [0xC3, 0xA9]
    let t := resultOf (exec .encrypt s)
    let s2 := textState [5, 5] [0x65, 0x63, 0x30, 0x35, 0x30, 0x35, 0x30, 0x35]
    s.params.Legal ∧ 1 ≤ s.hvSize.toNat ∧ utf8Decode (inBytes s s.inLen.toNat) = some [0xE9] ∧
      (∀ c ∈ [0xE9], c ≤ 0xFF) ∧ [0xE9].getLast? ≠ some 0 ∧
      4 = s.hvSize.toNat * (1 + s.inLen.toNat / s.hvSize.toNat) ∧ s.inLen.toNat ≤ s.params.inDepth ∧
      4 ≤ s.params.permDepth ∧ 2 * 4 ≤ s.params.outDepth ∧ 2 * 4 ≤ s.params.inDepth ∧
      (s2.params = s.params ∧ s2.hv = s.hv ∧ s2.hvSize = s.hvSize ∧ s2.inLen = t.outLen ∧
        inBytes s2 t.outLen.toNat = outBytes t t.outLen.toNat) := by decide +kernel

theorem witness_EmptyTextRoundTrip :
    let s := textState [5, 5] []
    let t := resultOf (exec .encrypt s)
    let s2 := textState [5, 5] [0x30, 0x35, 0x30, 0x35]
    s.params.Legal ∧ 1 ≤ s.hvSize.toNat ∧ s.inLen = 0 ∧ s.hvSize.toNat ≤ s.params.permDepth ∧
      (s2.params = s.params ∧ s2.hv = s.hv ∧ s2.hvSize = s.hvSize ∧ s2.inLen = t.outLen ∧
        2 * s.hvSize.toNat ≤ s.params.inDepth ∧ inBytes s2 t.outLen.toNat = outBytes t t.outLen.toNat) := by decide +kernel

theorem witness_EncryptLengthRelation :
    let s := textState [5, 5] [0xC3, 0xA9]
    s.params.Legal ∧ isNext (exec .encrypt s) = true ∧ (resultOf (exec .encrypt s)).status.err = false := by decide +kernel

theorem witness_PermuteReproducesCipherPermutation :
    let s := textState [0] [0x66, 0x66]
    s.params.Legal ∧ ∀ i ∈ [Instr.encrypt, Instr.decrypt],
      isNext (exec i s) = true ∧ (resultOf (exec i s)).status.err = false ∧
        (resultOf (exec i s)).permLen.toNat ≤ 65535 := by decide +kernel

/-- For each command two states that differ in all that it does not read. -/
theorem witness_CommandsDependOnlyOnTheirInputs :
    let s := textState [0] [0x66, 0x66]
    let other := setPerm [3] (setOut [1, 2] (textState [7, 8] [0x66, 0x66]))
    let longer := setPerm [3] (setOut [1, 2] (textState [0] [0x67, 0x67, 0x67]))
    let same := setPerm [3] (setOut [1, 2] s)
    (∀ i ∈ [Instr.nop, Instr.hash 255, Instr.hexhv, Instr.permute 3, Instr.encrypt, Instr.decrypt],
      i.WellFormed ∧ isNext (exec i s) = true ∧ (resultOf (exec i s)).status.err = false) ∧
      sameReads .nop s other ∧ sameReads (.hash 255) s other ∧ sameReads .hexhv s longer ∧
      sameReads (.permute 3) s longer ∧ sameReads .encrypt s same ∧ sameReads .decrypt s same ∧
      other.params = s.params ∧ longer.params = s.params ∧ same.params = s.params := by
  simp only [sameReads]
  decide +kernel

/-- The last word of IN_BUF, and the first byte past it. -/
theorem witness_BusErrorExactlyWhenRejected :
    Config.Params.default.Legal ∧ State.reset.rstN = true ∧ isAccepted Config.Params.default 0x10FFC 4 ∧
      ¬ isAccepted Config.Params.default 0x11000 1 := by
  refine ⟨by decide, rfl, ⟨by decide, by decide, ?_, by decide⟩, ?_⟩
  · intro i hi
    simp only [isMapped, Config.Params.default]
    omega
  · rintro ⟨-, -, h, -⟩
    have h0 := h 0 (by decide)
    simp only [isMapped, Config.Params.default] at h0
    omega

theorem witness_ReadsChangeNothing :
    isNext (busStep (.read 0x014 4) (busyState 0)) = true ∧ isNext (busStep (.read 0x000 4) State.reset) = true ∧
      State.reset.status.busy = false := by decide +kernel

theorem witness_RegisterReadsReturnTheirValues :
    State.reset.rstN = true ∧ State.reset.status.busy = false := by decide +kernel

theorem witness_WindowReadsReturnTheirEntries :
    State.reset.params.Legal ∧ State.reset.rstN = true ∧ State.reset.status.busy = false ∧ 0 < 168 ∧ 167 < 168 ∧
      254 < 255 ∧ 8191 < State.reset.params.permDepth := by decide +kernel

/-- The last word of IN_BUF and the last byte of OUT_BUF. -/
theorem witness_BufferReadsAreLittleEndian :
    let s := State.reset
    s.params.Legal ∧ s.rstN = true ∧ s.status.busy = false ∧ 4092 % 4 = 0 ∧ 4092 + 4 ≤ s.params.inDepth ∧
      16383 % 1 = 0 ∧ 16383 + 1 ≤ s.params.outDepth := by decide +kernel

theorem witness_InputWritesStoreTheirBytes :
    let s := State.reset
    s.params.Legal ∧ s.rstN = true ∧ s.status.busy = false ∧ 4092 % 4 = 0 ∧ 4092 + 4 ≤ s.params.inDepth ∧
      4094 % 2 = 0 ∧ 4094 + 2 ≤ s.params.inDepth := by decide +kernel

theorem witness_RegisterWritesTakeEffect :
    State.reset.rstN = true ∧ State.reset.status.busy = false ∧ 0 < 255 ∧ 254 < 255 := by decide +kernel

theorem witness_CommandWriteIsAccepted :
    State.reset.rstN = true ∧ State.reset.status.busy = false := by decide +kernel

/-- A 4-byte access at an aligned offset whose bytes are mapped is accepted. -/
theorem accepted_word {a : Nat} (ha : a % 4 = 0) (h : ∀ i < 4, isMapped Config.Params.default (a + i)) :
    isAccepted Config.Params.default a 4 := ⟨.inr (.inr rfl), ha, h, .inl rfl⟩

/-- The first and last words of the read-only targets, of the busy window's write targets and of its read targets. -/
theorem accepted_examples (a : Nat)
    (h : a ∈ [0x000, 0x03C, 0x800, 0xA9C, 0x20000, 0x23FFC, 0x40000, 0x47FFC, 0x008, 0x010, 0x018, 0x400, 0x7F8,
      0x10000, 0x10FFC, 0x014, 0x01C]) : isAccepted Config.Params.default a 4 := by
  simp only [List.mem_cons, List.not_mem_nil, or_false] at h
  refine accepted_word (by omega) fun i hi => ?_
  simp only [isMapped, Config.Params.default]
  omega

theorem witness_ReadOnlyWritesAreIgnored :
    State.reset.params.Legal ∧ State.reset.rstN = true ∧
      (∀ a ∈ [0x000, 0x03C, 0x800, 0xA9C, 0x20000, 0x23FFC, 0x40000, 0x47FFC], isAccepted Config.Params.default a 4) ∧
      0x000 ∈ [0x000, 0x004, 0x014, 0x01C, 0x028, 0x02C, 0x030, 0x034, 0x038, 0x03C] ∧
      (0x800 ≤ 0xA9C ∧ 0xA9C < 0x1000) ∧ 0x20000 ≤ 0x47FFC := by
  refine ⟨by decide, rfl, fun a ha => accepted_examples a ?_, by decide, by decide, by decide⟩
  simp only [List.mem_cons, List.not_mem_nil, or_false] at ha ⊢
  omega

theorem witness_BusyWindowDropsWrites :
    (busyState 0).params.Legal ∧ (busyState 0).rstN = true ∧ (busyState 0).status.busy = true ∧
      ∀ a ∈ [0x008, 0x010, 0x018, 0x400, 0x7F8, 0x10000, 0x10FFC],
        isAccepted (busyState 0).params a 4 ∧ isBusyWriteTarget a := by
  refine ⟨by decide, rfl, rfl, fun a ha => ⟨accepted_examples a ?_, ?_⟩⟩
  · simp only [List.mem_cons, List.not_mem_nil, or_false] at ha ⊢
    omega
  · simp only [List.mem_cons, List.not_mem_nil, or_false] at ha
    unfold isBusyWriteTarget
    omega

theorem witness_BusyWindowReadsRevealNothing :
    (busyState 0).params = Config.Params.default ∧ Config.Params.default.Legal ∧ (busyState 0).rstN = true ∧
      (busyState 0).status.busy = true ∧ (busyState 0).draws = 1 ∧
      ∀ a ∈ [0x014, 0x018, 0x01C, 0x400, 0x7F8, 0x20000, 0x23FFC, 0x40000, 0x47FFC],
        isAccepted Config.Params.default a 4 ∧ isBusyReadTarget a := by
  refine ⟨rfl, by decide, rfl, rfl, rfl, fun a ha => ⟨accepted_examples a ?_, ?_⟩⟩
  · simp only [List.mem_cons, List.not_mem_nil, or_false] at ha ⊢
    omega
  · simp only [List.mem_cons, List.not_mem_nil, or_false] at ha
    unfold isBusyReadTarget
    omega

theorem witness_InputsAreStableWhileBusy :
    (busyState 0).status.busy = true ∧ isNext (busStep (.write 0x010 4 7) (busyState 0)) = true ∧
      isNext (busStep (.read 0x014 4) (busyState 0)) = true := by decide +kernel

theorem witness_BusyRuleKeepsWbusyClear :
    let s := scheduled [.bus (.write 0x00C 4 0)] { busyState 0 with status := ⟨true, false, false, true, 0⟩ }
    s.params.Legal ∧ isNext (step s) = true ∧ s.status.busy = true ∧
      (∀ x rest, s.schedule = .bus x :: rest → s.status.busy = true → keepsBusyRule x) ∧
      (resultOf (step s)).status.wbusy = true := by
  refine ⟨by decide, by decide +kernel, rfl, fun x rest h _ => ?_, by decide +kernel⟩
  simp only [scheduled, List.cons.injEq, Event.bus.injEq] at h
  rw [← h.1]
  unfold keepsBusyRule isBusyWriteTarget
  decide

/-- A step that leaves WBUSY, one that clears it, and reset. -/
theorem witness_WbusyIsSticky :
    let s := { State.reset with status := ⟨false, true, false, true, 0⟩ }
    s.params.Legal ∧ s.status.wbusy = true ∧ isNext (step s) = true ∧
      isNext (step (scheduled [.bus (.write 0x00C 4 8)] s)) = true ∧ isNext (step (scheduled [.resetLow] s)) = true := by decide +kernel

theorem witness_IrqFollowsEnableAndDone :
    isNext (completionStep (busyState 0)) = true ∧ isNext (completionStep (busyState 6)) = true ∧
      (resultOf (exec .nop State.reset)).rstN = true ∧ (resultOf (exec .nop State.reset)).irqDone = true := by decide +kernel

theorem witness_HashEntriesAreBelow255 :
    isNext (exec (.hash 255) State.reset) = true ∧ (resultOf (exec (.hash 255) State.reset)).status.err = false ∧
      254 < 255 ∧ (∀ x ∈ keyedHash [0x78] 1, x = 240) := by decide +kernel

theorem witness_ResetAbandonsTheCommand :
    (scheduled [.resetLow] (busyState 4)).schedule = .resetLow :: [] := by decide +kernel

/-- The least and the greatest parameters. -/
theorem witness_InvHoldsAtReset :
    Config.Params.Legal ⟨1, 510, 1⟩ ∧ Config.Params.Legal ⟨65536, 131072, 65536⟩ := by decide

theorem witness_StepKeepsInv :
    Inv (busyState 4) ∧ isNext (step (busyState 4)) = true := by
  refine ⟨⟨by decide, List.Pairwise.nil, fun c hc => ?_, rfl, fun h => ?_, by decide⟩, by decide +kernel⟩
  · exact absurd hc (List.not_mem_nil)
  · exact absurd h (by decide)

theorem witness_StepKeepsParams :
    isNext (step (busyState 4)) = true := by decide +kernel

/-- A transaction of the busy window that the map accepts. -/
theorem performed_cmd_read : isPerformed (busyState 4).params (.read 0x008 4) := accepted_examples 0x008 (by decide)

theorem witness_AcceptedCommandCompletes :
    let s := scheduled [.bus (.read 0x008 4)] (busyState 4)
    s.params.Legal ∧ s.rstN = true ∧ s.status.busy = true ∧
      ∀ e ∈ s.schedule, ∃ x, e = .bus x ∧ isPerformed s.params x := by
  refine ⟨by decide, rfl, rfl, fun e he => ⟨.read 0x008 4, ?_, performed_cmd_read⟩⟩
  simpa [scheduled] using he

theorem witness_CompletionIgnoresBusyWindowTraffic :
    let s := scheduled [.bus (.read 0x008 4)] (busyState 2)
    s.params.Legal ∧ s.rstN = true ∧ s.status.busy = true ∧
      (∀ e ∈ s.schedule, ∃ x, e = .bus x ∧ isPerformed s.params x) ∧ isNext (engineTurn s) = true ∧
      (resultOf (engineTurn s)).status.err = false := by
  refine ⟨by decide, rfl, rfl, fun e he => ⟨.read 0x008 4, ?_, performed_cmd_read⟩, by decide +kernel,
    by decide +kernel⟩
  simpa [scheduled] using he

end Sys2Proof.Tests
end

section
/-! PROOFS. A command's completion step factors through a pure function of the inputs that R45 names: the checks and
the results are computed from them alone (`effect`), and are then stored (`Effect.apply`). -/

namespace Sys2Proof.Machine

/-! ### What a completion step stores -/

/-- What one completion step stores, apart from the state it is stored in. -/
inductive Effect where
  /-- `raise c`, with the column "writes on error" of R45. -/
  | fail (w : ErrorWrites) (c : ErrorCode)
  /-- `complete()` and no result: NOP. -/
  | nothing
  /-- HV and HV_SIZE: HASH. -/
  | hash (slots : List Byte)
  /-- OUT_BUF and OUT_LEN: HEXHV. -/
  | output (bs : List Byte)
  /-- PERM and PERM_LEN: PERMUTE. -/
  | positions (pm : List Nat)
  /-- All four: ENCRYPT and DECRYPT. -/
  | cipher (bs : List Byte) (pm : List Nat)

/-- Store a byte string in OUT_BUF with its length in OUT_LEN. -/
def storeOutput (bs : List Byte) (s : State) : State :=
  setOut bs { s with outLen := BitVec.ofNat 32 bs.length }

/-- The state after a completion step. -/
def Effect.apply : Effect → State → State
  | .fail w c, s => raiseError w c s
  | .nothing, s => complete s
  | .hash slots, s =>
    complete { s with hv := setHv slots s.hv, hvSize := BitVec.ofNat 8 slots.length }
  | .output bs, s => complete (storeOutput bs s)
  | .positions pm, s => complete (storePermutation pm pm.length s)
  | .cipher bs pm, s => complete (storePermutation pm pm.length (storeOutput bs s))

/-! ### What each command computes from its inputs

The arguments are the parameters, `text` for IN_BUF[0..IN_LEN-1] and `hv` for HV[0..HV_SIZE-1]. -/

/-- HASH (R96). -/
def hashEffect (p : Config.Params) (text : List Byte) (size : Nat) : Effect :=
  if size = 0 then .fail .nothing .invalidKeySize
  else if p.inDepth < text.length then .fail .nothing .capacity
  else .hash (hashEntries text size)

/-- PERMUTE (R104). -/
def permuteEffect (p : Config.Params) (hv : List Byte) (n : Nat) : Effect :=
  if hv.length = 0 then .fail .perm .emptyHash
  else if p.permDepth < n then .fail .perm .capacity
  else .positions (permutation hv n)

/-- ENCRYPT of a text of `len` bytes after it was decoded (R117). -/
def encryptPointsEffect (p : Config.Params) (cps : List Nat) (len : Nat) (hv : List Byte) : Effect :=
  if ∃ c ∈ cps, 0xFF < c then .fail .outAndPerm .codePointRange
  else if p.permDepth < outputSize hv.length len ∨ p.outDepth < 2 * outputSize hv.length len then
    .fail .outAndPerm .capacity
  else .cipher (hexStr (encipher cps len hv).bytes) (encipher cps len hv).perm

/-- ENCRYPT (R117). -/
def encryptEffect (p : Config.Params) (text hv : List Byte) : Effect :=
  if hv.length = 0 then .fail .outAndPerm .emptyHash
  else if p.inDepth < text.length then .fail .outAndPerm .capacity
  else match utf8Decode text with
    | none => .fail .outAndPerm .malformedText
    | some cps => encryptPointsEffect p cps text.length hv

/-- DECRYPT after its hex was decoded to `d` (R118). -/
def decryptBytesEffect (p : Config.Params) (d hv : List Byte) : Effect :=
  if d.length % hv.length ≠ 0 then .fail .outAndPerm .ciphertextLength
  else if p.permDepth < d.length then .fail .outAndPerm .capacity
  else if p.outDepth < (utf8Encode (decipher d hv).bytes).length then .fail .outAndPerm .capacity
  else .cipher (utf8Encode (decipher d hv).bytes) (decipher d hv).perm

/-- DECRYPT (R118). -/
def decryptEffect (p : Config.Params) (text hv : List Byte) : Effect :=
  if hv.length = 0 then .fail .outAndPerm .emptyHash
  else if p.inDepth < text.length then .fail .outAndPerm .capacity
  else if text.length = 0 ∨ text.length % 2 = 1 then .fail .outAndPerm .malformedCiphertext
  else if allHex text = false then .fail .outAndPerm .malformedCiphertext
  else decryptBytesEffect p (hexDecode text) hv

/-- What a command computes in a state: each gets only the inputs in its column "reads" of R45. -/
def effect (i : Instr) (s : State) : Effect :=
  match i with
  | .nop => .nothing
  | .hash size => hashEffect s.params (inputBytes s) size
  | .hexhv => .output (hexStr (hashVector s))
  | .permute n => permuteEffect s.params (hashVector s) n
  | .encrypt => encryptEffect s.params (inputBytes s) (hashVector s)
  | .decrypt => decryptEffect s.params (inputBytes s) (hashVector s)

/-! ### Each meaning is its effect, stored -/

theorem length_encipher_perm (cps : List Nat) (len : Nat) (hv : List Byte) :
    (encipher cps len hv).perm.length = (encipher cps len hv).size := by simp

theorem length_decipher_perm (d hv : List Byte) :
    (decipher d hv).perm.length = (decipher d hv).size := by simp [decipher]

/-- The two ways to write the successful end of ENCRYPT and DECRYPT agree. -/
theorem cipher_apply_eq {c : CipherResult} (h : c.perm.length = c.size) (bs : List Byte) (s : State) :
    (Effect.cipher bs c.perm).apply s = complete (storeCipher bs c s) := by
  rw [Effect.apply, h]
  rfl

theorem execHash_eq_effect (size : Nat) (s : State) :
    execHash size s = .next ((hashEffect s.params (inputBytes s) size).apply s) := by
  simp only [execHash, hashEffect, inputTooLong_iff, length_inputBytes]
  split_ifs <;> simp [Effect.apply]

theorem execHexhv_eq_effect (s : State) :
    execHexhv s = .next ((Effect.output (hexStr (hashVector s))).apply s) := by
  simp [execHexhv_eq, Effect.apply, storeOutput]

theorem execPermute_eq_effect (n : Nat) (s : State) :
    execPermute n s = .next ((permuteEffect s.params (hashVector s) n).apply s) := by
  simp only [execPermute, permuteEffect, length_hashVector]
  split_ifs <;> simp [Effect.apply]

theorem encryptPoints_eq_effect (cps : List Nat) (s : State) :
    encryptPoints cps s =
      .next ((encryptPointsEffect s.params cps (inputLength s) (hashVector s)).apply s) := by
  simp only [encryptPoints, encryptPointsEffect, length_hashVector, List.any_eq_true, decide_eq_true_eq]
  split_ifs
  · rfl
  · rfl
  · rw [cipher_apply_eq (length_encipher_perm ..), completed_eq]

theorem execEncrypt_eq_effect (s : State) :
    execEncrypt s = .next ((encryptEffect s.params (inputBytes s) (hashVector s)).apply s) := by
  simp only [execEncrypt, encryptEffect, length_hashVector, length_inputBytes, inputTooLong_iff]
  split_ifs
  · rfl
  · rfl
  · cases utf8Decode (inputBytes s) with
    | none => rfl
    | some cps => exact encryptPoints_eq_effect cps s

theorem decryptBytes_eq_effect (d : List Byte) (s : State) :
    decryptBytes d s = .next ((decryptBytesEffect s.params d (hashVector s)).apply s) := by
  simp only [decryptBytes, decryptBytesEffect, length_hashVector]
  split_ifs
  · rfl
  · rfl
  · rfl
  · rw [cipher_apply_eq (length_decipher_perm ..), completed_eq]

theorem execDecrypt_eq_effect (s : State) :
    execDecrypt s = .next ((decryptEffect s.params (inputBytes s) (hashVector s)).apply s) := by
  simp only [execDecrypt, decryptEffect, length_hashVector, length_inputBytes, inputTooLong_iff]
  split_ifs
  · rfl
  · rfl
  · rfl
  · rfl
  · exact decryptBytes_eq_effect _ s

/-- Every command's meaning is what it computes from its inputs, stored. -/
theorem exec_eq_effect (i : Instr) (s : State) : exec i s = .next ((effect i s).apply s) := by
  cases i with
  | nop => rfl
  | hash size => exact execHash_eq_effect size s
  | hexhv => exact execHexhv_eq_effect s
  | permute n => exact execPermute_eq_effect n s
  | encrypt => exact execEncrypt_eq_effect s
  | decrypt => exact execDecrypt_eq_effect s

/-- The effect of the engine's completion step: that of the decoded command, or ILLEGAL_COMMAND (R78). -/
def completionEffect (s : State) : Effect :=
  match decode s.cmd with
  | .ok i => effect i s
  | .error _ => .fail .nothing .illegalCommand

theorem completionStep_eq_effect (s : State) :
    completionStep s = .next ((completionEffect s).apply s) := by
  unfold completionStep completionEffect
  cases decode s.cmd with
  | ok i => exact exec_eq_effect i s
  | error e => rfl

/-! ### Equal inputs, equal effect -/

/-- What a command computes is the same in two states that agree on its inputs (R3, R45). -/
theorem effect_congr {i : Instr} {s s' : State} (hp : s'.params = s.params) (hr : sameReads i s s') :
    effect i s' = effect i s := by
  cases i with
  | nop => rfl
  | hash size => simp only [effect, hp, hr.2]
  | hexhv => simp only [effect, hr.2]
  | permute n => simp only [effect, hp, hr.2]
  | encrypt | decrypt =>
    obtain ⟨-, htext, -, hhv⟩ := hr
    simp only [effect, hp, htext, hhv]

/-- Which results a command has when it does not fail (R45, column "writes on success"). -/
theorem effect_kind (i : Instr) (s : State) :
    (∃ w c, effect i s = .fail w c) ∨
      match i with
      | .nop => effect i s = .nothing
      | .hash _ => ∃ slots, effect i s = .hash slots
      | .hexhv => ∃ bs, effect i s = .output bs
      | .permute _ => ∃ pm, effect i s = .positions pm
      | .encrypt | .decrypt => ∃ bs pm, effect i s = .cipher bs pm := by
  cases i with
  | nop => exact .inr rfl
  | hash size =>
    simp only [effect, hashEffect]
    split_ifs <;> simp
  | hexhv => exact .inr ⟨_, rfl⟩
  | permute n =>
    simp only [effect, permuteEffect]
    split_ifs <;> simp
  | encrypt =>
    simp only [effect, encryptEffect]
    split_ifs
    · simp
    · simp
    · cases utf8Decode (inputBytes s) with
      | none => simp
      | some cps =>
        simp only [encryptPointsEffect]
        split_ifs <;> simp
  | decrypt =>
    simp only [effect, decryptEffect, decryptBytesEffect]
    split_ifs <;> simp

/-! ### What storing an effect does to the flags and the parameters -/

@[simp] theorem Effect.apply_params (e : Effect) (s : State) : (e.apply s).params = s.params := by
  cases e with
  | fail w c => exact raiseError_params w c s
  | _ => rfl

/-- STATUS.ERR and STATUS.ERRCODE after a completion step come from its effect alone. -/
theorem Effect.apply_error (e : Effect) (s s' : State) :
    (e.apply s').status.err = (e.apply s).status.err ∧
      (e.apply s').status.errCode = (e.apply s).status.errCode := by
  cases e <;> exact ⟨rfl, rfl⟩

theorem Effect.apply_fail_err (w : ErrorWrites) (c : ErrorCode) (s : State) :
    ((Effect.fail w c).apply s).status.err = true := rfl

/-! ### Reading the results back -/

@[simp] theorem readByte_complete (s : State) (a : Nat) : readByte (complete s) a = readByte s a := rfl

/-- What every byte reads after PERM was written. -/
theorem readByte_setPerm (ps : List Nat) (s : State) (a : Nat) :
    readByte (setPerm ps s) a =
      if permBase ≤ a ∧ a < permBase + 4 * ps.length ∧ (a - permBase) % 4 < 2 then
        (BitVec.ofNat 16 (ps.getD ((a - permBase) / 4) 0)).extractLsb' (8 * ((a - permBase) % 4)) 8
      else readByte s a := by
  have hd : drawAt (setPerm ps s) a = drawAt s a := rfl
  simp only [readByte, hd, setPerm_mem, Memory.get?_writeEntries]
  split_ifs with h
  · rw [List.getD_eq_getElem?_getD, List.getElem?_eq_getElem (by omega)]
    rfl
  · rfl

/-- A byte that two states have in common they still have in common after the same write of PERM. -/
theorem readByte_setPerm_congr (ps : List Nat) {s t : State} {a : Nat} (h : readByte t a = readByte s a) :
    readByte (setPerm ps t) a = readByte (setPerm ps s) a := by
  simp only [readByte_setPerm, h]

/-- A byte that two states have in common they still have in common after the same write of OUT_BUF. -/
theorem readByte_setOut_congr (bs : List Byte) {s t : State} {a : Nat} (h : readByte t a = readByte s a) :
    readByte (setOut bs t) a = readByte (setOut bs s) a := by
  simp only [readByte_setOut, h]

/-- A byte of OUT_BUF that was written does not depend on the state before. -/
theorem outByte_setOut (bs : List Byte) (s : State) {k : Nat} (h : k < bs.length) :
    outByte (setOut bs s) k = bs.getD k 0 := by
  rw [outByte, readByte_setOut, if_pos (by omega), Nat.add_sub_cancel_left]

/-- A length that is stored in a register is cut, so it reads back at most as large. -/
theorem toNat_ofNat_le (w n : Nat) : (BitVec.ofNat w n).toNat ≤ n := by
  rw [BitVec.toNat_ofNat]
  exact Nat.mod_le ..

theorem outBytes_congr {s t : State} {n : Nat} (h : ∀ k < n, outByte t k = outByte s k) :
    outBytes t n = outBytes s n :=
  List.map_congr_left fun k hk => h k (List.mem_range.1 hk)

theorem permEntries_congr {s t : State} {n : Nat} (h : ∀ r < n, permEntry t r = permEntry s r) :
    permEntries t n = permEntries s n :=
  List.map_congr_left fun r hr => h r (List.mem_range.1 hr)

/-- The output that HEXHV leaves does not depend on the state before. -/
theorem outBytes_output (bs : List Byte) (s s' : State) :
    outBytes ((Effect.output bs).apply s') ((Effect.output bs).apply s').outLen.toNat =
      outBytes ((Effect.output bs).apply s) ((Effect.output bs).apply s).outLen.toNat := by
  refine outBytes_congr fun k (hk : k < (BitVec.ofNat 32 bs.length).toNat) => ?_
  have hlt : k < bs.length := lt_of_lt_of_le hk (toNat_ofNat_le ..)
  exact (outByte_setOut bs _ hlt).trans (outByte_setOut bs _ hlt).symm

/-- The output that ENCRYPT and DECRYPT leave does not depend on the state before. -/
theorem outBytes_cipher (bs : List Byte) (pm : List Nat) (s s' : State) :
    outBytes ((Effect.cipher bs pm).apply s') ((Effect.cipher bs pm).apply s').outLen.toNat =
      outBytes ((Effect.cipher bs pm).apply s) ((Effect.cipher bs pm).apply s).outLen.toNat := by
  refine outBytes_congr fun k (hk : k < (BitVec.ofNat 32 bs.length).toNat) => ?_
  have hlt : k < bs.length := lt_of_lt_of_le hk (toNat_ofNat_le ..)
  exact readByte_setPerm_congr pm ((outByte_setOut bs _ hlt).trans (outByte_setOut bs _ hlt).symm)

/-- A stored permutation reads back the same, whatever the states before and their other fields. -/
theorem permEntries_storePermutation (pm : List Nat) (s s' : State) :
    permEntries (storePermutation pm pm.length s') (BitVec.ofNat 32 pm.length).toNat =
      permEntries (storePermutation pm pm.length s) (BitVec.ofNat 32 pm.length).toNat := by
  refine permEntries_congr fun r hr => ?_
  have hlt : r < pm.length := lt_of_lt_of_le hr (toNat_ofNat_le ..)
  exact (permEntry_setPerm pm _ hlt).trans (permEntry_setPerm pm _ hlt).symm

/-- The slots in use after a HASH do not depend on the HV before. -/
theorem hashVector_hash (slots : List Byte) (s s' : State) :
    hashVector ((Effect.hash slots).apply s') = hashVector ((Effect.hash slots).apply s) := by
  have hsize : (BitVec.ofNat 8 slots.length).toNat ≤ slots.length := toNat_ofNat_le ..
  refine List.ext_getElem (by simp only [length_hashVector]; rfl) fun j hj _ => ?_
  have hj' : j < (BitVec.ofNat 8 slots.length).toNat := by rwa [length_hashVector] at hj
  have h255 : j < 255 := by omega
  simp only [hashVector, List.getElem_take, Vector.getElem_toList]
  exact (getElem_setHv slots s'.hv j h255).trans <| .trans (by simp [show j < slots.length by omega])
    (getElem_setHv slots s.hv j h255).symm

/-! ### The obligation -/

/-- Settles O35: a completion step stores the command's effect, and the effect is a function of the inputs in its
column "reads"; what it stores reads back the same, whatever the state before. -/
theorem commandsDependOnlyOnTheirInputs : Obligations.CommandsDependOnlyOnTheirInputs := by
  intro i s s' t _ hp hr ht
  obtain rfl : (effect i s).apply s = t := by simpa [exec_eq_effect] using ht
  obtain ⟨herr, hcode⟩ := Effect.apply_error (effect i s) s s'
  refine ⟨(effect i s).apply s', by rw [exec_eq_effect, effect_congr hp hr], herr, hcode, fun hok => ?_⟩
  obtain ⟨w, c, hfail⟩ | hkind := effect_kind i s
  · rw [hfail, Effect.apply_fail_err] at hok
    contradiction
  cases i with
  | nop => trivial
  | hash size =>
    obtain ⟨slots, he⟩ := hkind
    rw [he]
    exact hashVector_hash slots s s'
  | hexhv =>
    obtain ⟨bs, he⟩ := hkind
    rw [he]
    exact outBytes_output bs s s'
  | permute n =>
    obtain ⟨pm, he⟩ := hkind
    rw [he]
    exact permEntries_storePermutation pm s s'
  | encrypt | decrypt =>
    obtain ⟨bs, pm, he⟩ := hkind
    rw [he]
    exact ⟨outBytes_cipher bs pm s s', permEntries_storePermutation pm _ _⟩

end Sys2Proof.Machine
end

section
/-! PROOFS. What a host transaction leaves alone: in every state the parameters and the schedule, and while BUSY = 1
all that the running command reads or answers with. -/

namespace Sys2Proof.Machine

/-! ### The parameters and the schedule -/

/-- The parameters and the schedule are unchanged. -/
def SameSetting (s t : State) : Prop := t.params = s.params ∧ t.schedule = s.schedule

theorem writeReg_setting (r : Reg) (v : Word) (s : State) : SameSetting s (writeReg r v s) := by
  rcases writeReg_cases r v s with
    ⟨-, -, h⟩ | ⟨-, -, h⟩ | ⟨-, -, h⟩ | ⟨-, -, h⟩ | ⟨-, h⟩ | ⟨-, h⟩ | ⟨-, h⟩ | h <;>
    rw [h] <;> exact ⟨rfl, rfl⟩

theorem performWrite_setting (g : Region) (a n : Nat) (v : Word) (s : State) :
    SameSetting s (performWrite g a n v s) := by
  rcases performWrite_cases g a n v s with ⟨-, -, h⟩ | ⟨-, -, h⟩ | ⟨-, -, h⟩ | ⟨-, r, -, h⟩ | h <;> rw [h]
  case inr.inr.inr.inl => exact writeReg_setting r v s
  all_goals exact ⟨rfl, rfl⟩

theorem performRead_setting (g : Region) (a n : Nat) (s : State) :
    SameSetting s (performRead g a n s) := by
  rcases performRead_cases g a n s with ⟨-, -, h⟩ | ⟨-, h⟩ <;> rw [h] <;> exact ⟨rfl, rfl⟩

/-- No transaction changes the parameters (R35) or the events still to happen. -/
theorem busStep_setting {x : Transaction} {s t : State} (h : busStep x s = .next t) : SameSetting s t := by
  obtain ⟨-, row, -, rfl⟩ := busStep_cases h
  cases x with
  | read off n => exact performRead_setting row.region off.toNat n s
  | write off n v => exact performWrite_setting row.region off.toNat n v s

theorem engineTurn_params {s t : State} (h : engineTurn s = .next t) : t.params = s.params := by
  unfold engineTurn at h
  split_ifs at h
  · obtain rfl : (completionEffect s).apply s = t := by simpa [completionStep_eq_effect] using h
    exact Effect.apply_params _ s
  · obtain rfl : s = t := by simpa using h
    rfl

/-- Settles O55, along what a step can do. -/
theorem stepKeepsParams : Obligations.StepKeepsParams := by
  intro s t h
  rcases step_cases h with ⟨-, hturn⟩ | ⟨rest, ⟨-, hturn⟩ | ⟨x, -, hbus⟩ | ⟨-, rfl⟩ | ⟨-, rfl⟩⟩
  · exact engineTurn_params hturn
  · exact (engineTurn_params hturn).trans rfl
  · exact (busStep_setting hbus).1
  · rfl
  · rfl

/-! ### What the running command reads or answers with -/

/-- The registers that the running command reads or writes are unchanged, and so are the parameters. STATUS and
the interrupt registers are left out. -/
structure SameRegisters (s t : State) : Prop where
  params : t.params = s.params
  cmd : t.cmd = s.cmd
  inLen : t.inLen = s.inLen
  outLen : t.outLen = s.outLen
  hvSize : t.hvSize = s.hvSize
  permLen : t.permLen = s.permLen
  hv : t.hv = s.hv

/-- The command that runs in `s` still runs in `t`, with the same inputs, registers and buffers. -/
structure SameRun (s t : State) : Prop where
  registers : SameRegisters s t
  bytes : sameBytes (fun _ => True) s t
  busy : t.status.busy = s.status.busy
  rstN : t.rstN = s.rstN

theorem SameRegisters.rfl {s : State} : SameRegisters s s :=
  ⟨Eq.refl _, Eq.refl _, Eq.refl _, Eq.refl _, Eq.refl _, Eq.refl _, Eq.refl _⟩

theorem SameRegisters.trans {s t u : State} (h : SameRegisters s t) (h' : SameRegisters t u) :
    SameRegisters s u :=
  ⟨h'.params.trans h.params, h'.cmd.trans h.cmd, h'.inLen.trans h.inLen, h'.outLen.trans h.outLen,
    h'.hvSize.trans h.hvSize, h'.permLen.trans h.permLen, h'.hv.trans h.hv⟩

theorem SameRun.rfl {s : State} : SameRun s s := ⟨.rfl, fun _ _ => Eq.refl _, Eq.refl _, Eq.refl _⟩

theorem SameRun.trans {s t u : State} (h : SameRun s t) (h' : SameRun t u) : SameRun s u :=
  ⟨h.registers.trans h'.registers, fun a ha => (h'.bytes a ha).trans (h.bytes a ha), h'.busy.trans h.busy,
    h'.rstN.trans h.rstN⟩

/-- A change of WBUSY, of the interrupt registers and of the model's own fields leaves the running command alone. -/
theorem sameRun_of_side_fields (s : State) (wbusy irqEn irqDone : Bool) (draws : Nat)
    (schedule : List Event) (response : Option Response) :
    SameRun s { s with
      status := { s.status with wbusy }, irqEn, irqDone, draws, schedule, response } :=
  ⟨⟨rfl, rfl, rfl, rfl, rfl, rfl, rfl⟩, fun _ _ => rfl, rfl, rfl⟩

/-! ### Transactions of the busy window (R44, R63) -/

theorem writeReg_sameRun (r : Reg) (v : Word) {s : State} (hb : s.status.busy = true) :
    SameRun s (writeReg r v s) := by
  rcases writeReg_cases r v s with
    ⟨-, -, h⟩ | ⟨hidle, -⟩ | ⟨hidle, -⟩ | ⟨hidle, -⟩ | ⟨-, h⟩ | ⟨-, h⟩ | ⟨-, h⟩ | h
  case inr.inl | inr.inr.inl | inr.inr.inr.inl => simp [hb] at hidle
  all_goals
    rw [h]
    exact sameRun_of_side_fields s _ _ _ _ _ _

theorem performWrite_sameRun (g : Region) (a n : Nat) (v : Word) {s : State} (hb : s.status.busy = true) :
    SameRun s (performWrite g a n v s) := by
  rcases performWrite_cases g a n v s with ⟨-, -, h⟩ | ⟨hidle, -⟩ | ⟨hidle, -⟩ | ⟨-, r, -, h⟩ | h
  case inr.inl | inr.inr.inl => simp [hb] at hidle
  case inr.inr.inr.inl => exact h ▸ writeReg_sameRun r v hb
  · exact h ▸ sameRun_of_side_fields s _ _ _ _ _ _
  · exact h.symm ▸ .rfl

theorem performRead_sameRun (g : Region) (a n : Nat) (s : State) : SameRun s (performRead g a n s) := by
  rcases performRead_cases g a n s with ⟨-, -, h⟩ | ⟨-, h⟩ <;> rw [h] <;>
    exact sameRun_of_side_fields s _ _ _ _ _ _

/-- R63: no transaction of the busy window touches the running command's inputs or results. -/
theorem busStep_sameRun {x : Transaction} {s t : State} (hb : s.status.busy = true)
    (h : busStep x s = .next t) : SameRun s t := by
  obtain ⟨-, row, -, rfl⟩ := busStep_cases h
  cases x with
  | read off n => exact performRead_sameRun row.region off.toNat n s
  | write off n v =>
    exact (performWrite_sameRun row.region off.toNat n v hb).trans (sameRun_of_side_fields _ _ _ _ _ _ _)

/-- The buffers take every width, and the other regions 4-byte accesses only (R54). -/
theorem widthAllowed_of_rowAt {p : Config.Params} {a n : Nat} {row : MapRow} (hrow : rowAt p a = some row)
    (hsize : n = 1 ∨ n = 2 ∨ n = 4) (hwidth : n = 4 ∨ (0x10000 ≤ a ∧ a < 0x40000)) :
    widthAllowed row n = true := by
  rcases hwidth with rfl | ⟨hlo, hhi⟩
  · rfl
  have hany : row.anyWidth = true := by
    rcases rowAt_region hrow with ⟨-, -, h⟩ | ⟨-, -, h⟩ | ⟨-, -, h⟩ | ⟨-, h, -⟩ | ⟨-, h, -⟩ | ⟨-, -, h⟩
    case inr.inr.inr.inl | inr.inr.inr.inr.inl => exact h
    all_goals omega
  rcases hsize with rfl | rfl | rfl <;> simp [widthAllowed, hany]

/-- R56: an access that the address map accepts has a row. -/
theorem accessRow_of_isAccepted {p : Config.Params} {a n : Nat} (h : isAccepted p a n) :
    ∃ row, accessRow p a n = some row := by
  obtain ⟨hsize, halign, hmapped, hwidth⟩ := h
  have hsome : ∀ i < n, (rowAt p (a + i)).isSome = true := fun i hi => (rowAt_isSome p _).2 (hmapped i hi)
  obtain ⟨row, (hrow : rowAt p a = some row)⟩ :=
    Option.isSome_iff_exists.1 (hsome 0 (by omega))
  have hn : ¬ (!(n == 1 || n == 2 || n == 4)) = true := by
    rcases hsize with rfl | rfl | rfl <;> simp
  have hall : ¬ (List.range n).any (fun i => (rowAt p (a + i)).isNone) = true := by
    simpa [Option.isSome_iff_ne_none] using hsome
  exact ⟨row, by
    rw [accessRow, if_neg hn, if_neg (not_not.2 halign), if_neg hall, hrow, Option.filter_some,
      if_pos (widthAllowed_of_rowAt hrow hsize hwidth)]⟩

/-- R56, R151: with `rst_n` high a transaction that R56 does not reject is performed. -/
theorem busStep_of_isPerformed {s : State} {x : Transaction} (hr : s.rstN = true)
    (hx : isPerformed s.params x) : ∃ t, busStep x s = .next t := by
  obtain ⟨row, hrow⟩ := accessRow_of_isAccepted hx
  exact ⟨performTransaction row.region x s, by simp [busStep, hr, hrow]⟩

/-! ### Runs -/

theorem run_succ_of_next {s t : State} (h : step s = .next t) (k : Nat) :
    Sys2Proof.core.run (k + 1) s = Sys2Proof.core.run k t := by
  have h' : Sys2Proof.core.step s = .next t := h
  simp only [Host.Core.run, h']

theorem run_one (s : State) : Sys2Proof.core.run 1 s = step s := by
  have h' : Sys2Proof.core.step s = step s := rfl
  simp only [Host.Core.run, h']
  cases step s <;> rfl

/-- The transactions of the busy window are performed, leave the running command alone, and then the engine has
its turn (R63, R163). -/
theorem run_busyWindow (l : List Event) {s : State} (hs : s.schedule = l) (hr : s.rstN = true)
    (hb : s.status.busy = true) (hl : ∀ e ∈ l, ∃ x, e = .bus x ∧ isPerformed s.params x) :
    ∃ s', SameRun s s' ∧ Sys2Proof.core.run (l.length + 1) s = engineTurn s' := by
  induction l generalizing s with
  | nil => exact ⟨s, .rfl, by rw [List.length_nil, run_one, step, stepEvent, hs]⟩
  | cons e rest ih =>
    obtain ⟨⟨x, rfl, hx⟩, hrest⟩ := List.forall_mem_cons.1 hl
    obtain ⟨t, ht⟩ := busStep_of_isPerformed (s := { s with schedule := rest }) hr hx
    have hstep : step s = .next t := by rw [step, stepEvent, hs]; exact ht
    have hst : SameRun s t :=
      (sameRun_of_side_fields s _ _ _ _ rest _).trans (busStep_sameRun hb ht)
    obtain ⟨s', hrun, hturn⟩ := ih (busStep_setting ht).2 (hst.rstN.trans hr) (hst.busy.trans hb)
      (by rwa [hst.registers.params])
    exact ⟨s', hst.trans hrun, by rw [List.length_cons, run_succ_of_next hstep, hturn]⟩

/-! ### The completion step of the same run -/

theorem SameRun.sameReads {s t : State} (h : SameRun s t) (i : Instr) : sameReads i s t := by
  have hlen := h.registers.inLen
  have hsize := h.registers.hvSize
  have htext : inputBytes t = inputBytes s := by
    simp only [inputBytes, inputLength, hlen]
    exact List.map_congr_left fun o _ => h.bytes (inBase + o) trivial
  have hvec : hashVector t = hashVector s := by simp only [hashVector, hashSize, h.registers.hv, hsize]
  cases i with
  | nop => trivial
  | hash _ => exact ⟨hlen, htext⟩
  | hexhv | permute _ => exact ⟨hsize, hvec⟩
  | encrypt | decrypt => exact ⟨hlen, htext, hsize, hvec⟩

theorem SameRun.completionEffect_eq {s t : State} (h : SameRun s t) :
    completionEffect t = completionEffect s := by
  unfold completionEffect
  rw [h.registers.cmd]
  cases decode s.cmd with
  | ok i => exact effect_congr h.registers.params (h.sameReads i)
  | error _ => rfl

/-- The same effect stored in states with the same registers leaves the same registers. -/
theorem Effect.apply_sameRegisters (e : Effect) {s t : State} (h : SameRegisters s t) :
    SameRegisters (e.apply s) (e.apply t) := by
  cases e with
  | fail w c =>
    cases w with
    | nothing => exact { h with }
    | perm => exact { h with permLen := rfl }
    | outAndPerm => exact { h with outLen := rfl, permLen := rfl }
  | nothing => exact { h with }
  | hash slots => exact { h with hvSize := rfl, hv := congrArg (setHv slots) h.hv }
  | output bs => exact { h with outLen := rfl }
  | positions pm => exact { h with permLen := rfl }
  | cipher bs pm => exact { h with outLen := rfl, permLen := rfl }

/-- The same effect, when it is no error, stored in states with the same bytes leaves the same bytes. -/
theorem Effect.apply_sameBytes (e : Effect) {s t : State} (h : sameBytes (fun _ => True) s t)
    (hok : (e.apply s).status.err = false) : sameBytes (fun _ => True) (e.apply s) (e.apply t) := by
  intro a ha
  cases e with
  | fail w c =>
    rw [Effect.apply_fail_err] at hok
    contradiction
  | nothing | hash _ => exact h a ha
  | output bs => exact readByte_setOut_congr bs (h a ha)
  | positions pm => exact readByte_setPerm_congr pm (h a ha)
  | cipher bs pm => exact readByte_setPerm_congr pm (readByte_setOut_congr bs (h a ha))

theorem engineTurn_of_busy {s : State} (hr : s.rstN = true) (hb : s.status.busy = true) :
    engineTurn s = .next ((completionEffect s).apply s) := by
  rw [engineTurn, engineEnabled, hr, hb]
  exact completionStep_eq_effect s

/-- Settles O58: after the traffic the engine's turn finds the same run, so its completion step stores the same
effect. -/
theorem completionIgnoresBusyWindowTraffic : Obligations.CompletionIgnoresBusyWindowTraffic := by
  intro s u _ hr hb hl hu
  obtain rfl : (completionEffect s).apply s = u := by simpa [engineTurn_of_busy hr hb] using hu
  obtain ⟨s', hrun, hturn⟩ := run_busyWindow s.schedule rfl hr hb hl
  have ht := hturn.trans (engineTurn_of_busy (hrun.rstN.trans hr) (hrun.busy.trans hb))
  rw [hrun.completionEffect_eq] at ht
  have hregs := (completionEffect s).apply_sameRegisters hrun.registers
  obtain ⟨herr, hcode⟩ := (completionEffect s).apply_error s s'
  exact ⟨_, ht, hregs.cmd, hregs.inLen, hregs.outLen, hregs.hvSize, hregs.permLen, hregs.hv, herr, hcode,
    (completionEffect s).apply_sameBytes hrun.bytes⟩

end Sys2Proof.Machine
end

section
/-! PROOFS. What a performed transaction returns and does: the region of an accepted access follows from its offset, a
read answers the stored value or, in the busy window, a fresh draw, and a write acts on its own target. -/

namespace Sys2Proof.Machine

/-! ### The region of an access (R49, R54 to R56) -/

/-- The offset is in the mapped part of the region (R49). -/
def Region.spans (p : Config.Params) (g : Region) (a : Nat) : Prop :=
  match g with
  | .registers => a < 0x40
  | .hv => 0x400 ≤ a ∧ a < 0x7FC
  | .prime => 0x800 ≤ a ∧ a < 0xAA0
  | .inBuf => 0x10000 ≤ a ∧ a < 0x10000 + p.inDepth
  | .outBuf => 0x20000 ≤ a ∧ a < 0x20000 + p.outDepth
  | .perm => 0x40000 ≤ a ∧ a < 0x40000 + 4 * p.permDepth

theorem spans_of_rowAt {p : Config.Params} {a : Nat} {row : MapRow} (h : rowAt p a = some row) :
    row.region.spans p a := by
  rcases rowAt_region h with ⟨hg, -, ha⟩ | ⟨hg, -, ha⟩ | ⟨hg, -, ha⟩ | ⟨hg, -, ha⟩ | ⟨hg, -, ha⟩ | ⟨hg, -, ha⟩ <;>
    rw [hg] <;> exact ha

theorem spans_of_accessRow {p : Config.Params} {a n : Nat} {row : MapRow}
    (h : accessRow p a n = some row) : row.region.spans p a := by
  obtain ⟨-, -, -, hrow, -⟩ := accessRow_some h
  exact spans_of_rowAt hrow

/-- Below the buffers no parameter matters. With legal parameters no two regions overlap. -/
def Unambiguous (p : Config.Params) (a : Nat) : Prop := a < 0x10000 ∨ p.Legal

theorem spans_unique {p : Config.Params} {a : Nat} {g g' : Region} (hu : Unambiguous p a)
    (h : g.spans p a) (h' : g'.spans p a) : g' = g := by
  unfold Unambiguous at hu
  cases g <;> cases g' <;> simp only [Region.spans, reduceCtorEq] at h h' ⊢ <;> omega

/-- R56, R151: with `rst_n` high an accepted transaction is performed in the region of its offset. -/
theorem busStep_of_spans {x : Transaction} {s : State} {g : Region} (hr : s.rstN = true)
    (hx : isPerformed s.params x) (hg : g.spans s.params (transactionOffset x).toNat)
    (hu : Unambiguous s.params (transactionOffset x).toNat) :
    busStep x s = .next (performTransaction g x s) := by
  obtain ⟨row, hrow⟩ := accessRow_of_isAccepted hx
  obtain rfl := spans_unique hu hg (spans_of_accessRow hrow)
  simp [busStep, hr, hrow]

/-- An aligned word whose bytes lie in one region is accepted (R54, R55). -/
theorem isAccepted_word {p : Config.Params} {g : Region} {a : Nat} (h4 : a % 4 = 0)
    (h : ∀ i < 4, g.spans p (a + i)) : isAccepted p a 4 := by
  refine ⟨.inr (.inr rfl), h4, fun i hi => ?_, .inl rfl⟩
  have hspan := h i hi
  cases g <;> simp only [Region.spans] at hspan <;> simp only [isMapped] <;> omega

/-- A word access whose bytes lie in one region is performed there. -/
theorem busStep_word {x : Transaction} {s : State} {g : Region} (hn : transactionSize x = 4)
    (hr : s.rstN = true) (h4 : (transactionOffset x).toNat % 4 = 0)
    (h : ∀ i < 4, g.spans s.params ((transactionOffset x).toNat + i))
    (hu : Unambiguous s.params (transactionOffset x).toNat) :
    busStep x s = .next (performTransaction g x s) := by
  refine busStep_of_spans hr ?_ (h 0 (by omega)) hu
  rw [isPerformed, hn]
  exact isAccepted_word h4 h

/-! ### Reads and writes of a word (R57, R58) -/

/-- Outside the busy window's exceptions a read answers the stored value. -/
theorem performRead_of_visible {s : State} {g : Region} {a : Nat} (n : Nat)
    (h : s.status.busy = false ∨ hiddenWhenBusy g a = false) :
    performRead g a n s = { s with response := some (.okayRead n (storedData s g a n)) } := by
  rcases performRead_cases g a n s with ⟨hb, hh, -⟩ | ⟨-, hread⟩
  · simp [hb, hh] at h
  · exact hread

/-- A hidden read in the busy window answers a fresh draw (R44, V3). -/
theorem performRead_of_hidden {s : State} {g : Region} {a : Nat} (n : Nat) (hb : s.status.busy = true)
    (hh : hiddenWhenBusy g a = true) :
    performRead g a n s =
      { s with
        response := some (.okayRead n (lowBytes n (Config.freeWord s.draws))), draws := s.draws + 1 } := by
  rcases performRead_cases g a n s with ⟨-, -, hread⟩ | ⟨h, -⟩
  · exact hread
  · simp [hb, hh] at h

/-- A read of a word that lies in one region, outside the busy window's exceptions. -/
theorem busStep_read_word {s : State} {off : Offset} (g : Region) {a : Nat} (ha : off.toNat = a)
    (hr : s.rstN = true) (h4 : a % 4 = 0) (h : ∀ i < 4, g.spans s.params (a + i))
    (hu : Unambiguous s.params a) (hvis : s.status.busy = false ∨ hiddenWhenBusy g a = false) :
    busStep (.read off 4) s = .next { s with response := some (.okayRead 4 (storedData s g a 4)) } := by
  subst ha
  rw [busStep_word (x := .read off 4) rfl hr h4 h hu]
  exact congrArg _ (performRead_of_visible 4 hvis)

/-- A write of a word that lies in one region. -/
theorem busStep_write_word {s : State} {off : Offset} (g : Region) {a : Nat} {v : Word} (ha : off.toNat = a)
    (hr : s.rstN = true) (h4 : a % 4 = 0) (h : ∀ i < 4, g.spans s.params (a + i))
    (hu : Unambiguous s.params a) :
    busStep (.write off 4 v) s = .next { performWrite g a 4 v s with response := some .okayWrite } := by
  subst ha
  exact busStep_word (x := .write off 4 v) rfl hr h4 h hu

/-! ### Registers (R23) -/

/-- The offset of a register (R23). -/
def regOffset (r : Reg) : Offset := BitVec.ofNat 19 (4 * registerMap.idxOf r)

theorem regAt_regOffset (r : Reg) : regAt (regOffset r).toNat = some r := by cases r <;> rfl

theorem regOffset_spans (r : Reg) (p : Config.Params) :
    (regOffset r).toNat % 4 = 0 ∧ (regOffset r).toNat < 0x40 ∧
      ∀ i < 4, Region.registers.spans p ((regOffset r).toNat + i) := by
  have h : (regOffset r).toNat % 4 = 0 ∧ (regOffset r).toNat < 0x40 := by cases r <;> decide
  obtain ⟨h4, hlt⟩ := h
  exact ⟨h4, hlt, fun i hi => by simp only [Region.spans]; omega⟩

/-- A 4-byte read of a register that the busy window does not hide (R44, R58). -/
theorem busStep_read_reg {s : State} (hr : s.rstN = true) (r : Reg) {v : Word}
    (hvis : s.status.busy = false ∨ regHiddenWhenBusy r = false) (hv : regValue s r = v) :
    busStep (.read (regOffset r) 4) s = .next { s with response := some (.okayRead 4 v) } := by
  subst hv
  obtain ⟨h4, hlt, hspans⟩ := regOffset_spans r s.params
  rw [busStep_read_word .registers rfl hr h4 hspans (.inl (by omega))
    (by simpa [hiddenWhenBusy, regAt_regOffset] using hvis)]
  simp [storedData, regAt_regOffset]

/-- A 4-byte write of a register does what the register's rule says (R24 to R35). -/
theorem busStep_write_reg {s : State} (hr : s.rstN = true) (r : Reg) (v : Word) :
    busStep (.write (regOffset r) 4 v) s =
      .next { writeReg r v s with response := some .okayWrite } := by
  obtain ⟨h4, hlt, hspans⟩ := regOffset_spans r s.params
  rw [busStep_write_word .registers rfl hr h4 hspans (.inl (by omega))]
  simp [performWrite, regAt_regOffset]

/-- STATUS as a number (R27). -/
theorem statusWord_eq (st : Status) :
    statusWord st = BitVec.ofNat 32 (st.busy.toNat + 2 * st.done.toNat + 4 * st.err.toNat +
      8 * st.wbusy.toNat + 256 * st.errCode.toNat) := by
  obtain ⟨busy, done, err, wbusy, code⟩ := st
  revert busy done err wbusy code
  decide

theorem bit_setWidth (b : Bool) : (bit b).setWidth 32 = BitVec.ofNat 32 b.toNat := by
  cases b <;> rfl

/-- Settles O38: each register of the lists is read at its own offset, and its value is written in plain numbers. -/
theorem registerReadsReturnTheirValues : Obligations.RegisterReadsReturnTheirValues := by
  intro s hr
  simp only [List.forall_mem_cons, List.not_mem_nil, false_imp_iff, implies_true, and_true]
  refine ⟨⟨?_, ?_, ?_, ?_, ?_, ?_, ?_, ?_, ?_, ?_, ?_, ?_, ?_⟩, fun hb => ⟨?_, ?_, ?_⟩⟩
  · exact busStep_read_reg hr .id (.inr rfl) rfl
  · exact busStep_read_reg hr .version (.inr rfl) rfl
  · exact busStep_read_reg hr .cmd (.inr rfl) rfl
  · exact busStep_read_reg hr .inLen (.inr rfl) rfl
  · exact busStep_read_reg hr .status (.inr rfl) (statusWord_eq s.status)
  · exact busStep_read_reg hr .irqEn (.inr rfl) (bit_setWidth s.irqEn)
  · exact busStep_read_reg hr .irqStatus (.inr rfl) (bit_setWidth s.irqDone)
  · exact busStep_read_reg hr .capIn (.inr rfl) rfl
  · exact busStep_read_reg hr .capOut (.inr rfl) rfl
  · exact busStep_read_reg hr .capPerm (.inr rfl) rfl
  · exact busStep_read_reg hr .primeCount (.inr rfl) rfl
  · exact busStep_read_reg hr .primeBound (.inr rfl) rfl
  · exact busStep_read_reg hr .hvDepth (.inr rfl) rfl
  · exact busStep_read_reg hr .outLen (.inl hb) rfl
  · exact busStep_read_reg hr .hvSize (.inl hb) (BitVec.ofNat_toNat ..).symm
  · exact busStep_read_reg hr .permLen (.inl hb) rfl

/-! ### The windows of entries (R36, R37, R40) -/

theorem toNat_offset {a : Nat} (h : a < 0x80000) : (BitVec.ofNat 19 a).toNat = a :=
  BitVec.toNat_ofNat .. ▸ Nat.mod_eq_of_lt h

theorem prime_spans (p : Config.Params) {i : Nat} (h : i < 168) :
    ∀ k < 4, Region.prime.spans p (0x800 + 4 * i + k) := fun k hk => by
  simp only [Region.spans]
  omega

theorem hv_spans (p : Config.Params) {i : Nat} (h : i < 255) :
    ∀ k < 4, Region.hv.spans p (0x400 + 4 * i + k) := fun k hk => by
  simp only [Region.spans]
  omega

theorem perm_spans {p : Config.Params} {r : Nat} (h : r < p.permDepth) :
    ∀ k < 4, Region.perm.spans p (0x40000 + 4 * r + k) := fun k hk => by
  simp only [Region.spans]
  omega

/-- The index of the entry at an offset of a window with 4 offsets for each entry. -/
theorem entry_index (base i : Nat) : (base + 4 * i - base) / 4 = i := by omega

/-- Settles O39: each entry lies in its window, so its read answers what `storedData` has there. -/
theorem windowReadsReturnTheirEntries : Obligations.WindowReadsReturnTheirEntries := by
  intro s hp hr
  refine ⟨fun i hi => ?_, fun hb => ⟨fun i hi => ?_, fun r hlt => ?_⟩⟩
  · rw [busStep_read_word .prime (toNat_offset (by omega)) hr (by omega) (prime_spans _ hi) (.inr hp)
      (.inr rfl)]
    simp only [storedData, primeBase, entry_index, prime]
  · rw [busStep_read_word .hv (toNat_offset (by omega)) hr (by omega) (hv_spans _ hi) (.inr hp) (.inl hb)]
    simp [storedData, hvBase, hi]
  · have hdepth : s.params.permDepth ≤ 65536 := hp.2.2.2
    rw [busStep_read_word .perm (toNat_offset (by omega)) hr (by omega) (perm_spans hlt) (.inr hp)
      (.inl hb)]
    simp only [storedData, permBase, entry_index, BitVec.ofNat_toNat]

/-! ### Writes (R57) -/

theorem writeHvEntry_of_lt {i : Nat} (h : i < 255) (b : Byte) (s : State) :
    writeHvEntry i b s = { s with hv := s.hv.set i b } := by
  have hset : s.hv.setIfInBounds i b = s.hv.set i b :=
    Vector.ext fun j hj => by rw [Vector.getElem_setIfInBounds, Vector.getElem_set]
  rw [writeHvEntry, hset]

/-- Settles O42: each register's write rule, and the HV entry at its offset. -/
theorem registerWritesTakeEffect : Obligations.RegisterWritesTakeEffect := by
  intro s v hr
  refine ⟨busStep_write_reg hr .status v, busStep_write_reg hr .irqEn v, busStep_write_reg hr .irqStatus v,
    fun hb => ⟨(busStep_write_reg hr .inLen v).trans ?_, (busStep_write_reg hr .hvSize v).trans ?_,
      fun i hi => ?_⟩⟩
  · simp [writeReg, guardedWrite, hb]
  · simp [writeReg, guardedWrite, hb]
  · rw [busStep_write_word .hv (toNat_offset (by omega)) hr (by omega) (hv_spans _ hi) (.inl (by omega))]
    simp [performWrite, guardedWrite, hb, hvBase, writeHvEntry_of_lt hi]

/-- A write to a read-only register changes nothing (R34). -/
theorem performWrite_readOnly_reg {a : Nat}
    (h : a ∈ [0x000, 0x004, 0x014, 0x01C, 0x028, 0x02C, 0x030, 0x034, 0x038, 0x03C]) (n : Nat) (v : Word)
    (s : State) : performWrite .registers a n v s = s := by
  simp only [List.mem_cons, List.not_mem_nil, or_false] at h
  rcases h with rfl | rfl | rfl | rfl | rfl | rfl | rfl | rfl | rfl | rfl <;> rfl

/-- Settles O44: the offset leaves only regions and registers whose write rule is to do nothing. -/
theorem readOnlyWritesAreIgnored : Obligations.ReadOnlyWritesAreIgnored := by
  intro s off n v hp hr hacc htarget
  obtain ⟨row, hrow⟩ := accessRow_of_isAccepted hacc
  have hspan := spans_of_accessRow hrow
  have hsame : performWrite row.region off.toNat n v s = s := by
    obtain ⟨⟨-, hin⟩, -⟩ := hp
    cases hg : row.region <;> simp only [hg, Region.spans] at hspan
    case registers => exact performWrite_readOnly_reg (htarget.resolve_right (by omega)) n v s
    case prime | outBuf | perm => rfl
    all_goals
      simp only [List.mem_cons, List.not_mem_nil, or_false] at htarget
      omega
  simp [busStep, hr, hrow, performTransaction, hsame]

/-! ### The busy window (R44) -/

/-- The read targets of R44 are hidden in whichever region they lie. -/
theorem hidden_of_isBusyReadTarget {p : Config.Params} {g : Region} {a : Nat} (hp : p.Legal)
    (hg : g.spans p a) (h : isBusyReadTarget a) : hiddenWhenBusy g a = true := by
  obtain ⟨⟨-, hin⟩, -⟩ := hp
  unfold isBusyReadTarget at h
  cases g <;> simp only [Region.spans] at hg
  case registers =>
    obtain rfl | rfl | rfl : a = 0x014 ∨ a = 0x018 ∨ a = 0x01C := by omega
    all_goals rfl
  case hv | outBuf | perm => rfl
  all_goals omega

/-- Settles O46: the read answers the draw's free value, whatever the state holds. -/
theorem busyWindowReadsRevealNothing : Obligations.BusyWindowReadsRevealNothing := by
  intro p off n k hp hacc htarget
  refine ⟨lowBytes n (Config.freeWord k), ?_⟩
  rintro s rfl hr hb rfl
  obtain ⟨row, hrow⟩ := accessRow_of_isAccepted hacc
  have hhidden := hidden_of_isBusyReadTarget hp (spans_of_accessRow hrow) htarget
  simp [busStep, hr, hrow, performTransaction, performRead_of_hidden n hb hhidden]

end Sys2Proof.Machine
end

section
/-! PROOFS. The invariant: it holds at reset, and every event keeps it, because a command stores only what fits in the
buffers and a transaction writes IN_BUF only where R56 lets it. -/

namespace Sys2Proof.Machine

/-! ### The stored bytes -/

/-- The part of the invariant that speaks of the memory: canonical form, and buffer bytes only. -/
structure GoodMemory (p : Config.Params) (m : Memory) : Prop where
  canonical : Memory.wf m
  stored : ∀ c ∈ m, isStored p c.1

theorem goodMemory_nil (p : Config.Params) : GoodMemory p [] :=
  ⟨Memory.wf_nil, fun _ hc => absurd hc List.not_mem_nil⟩

theorem GoodMemory.forget {p : Config.Params} {m : Memory} (h : GoodMemory p m) (lo hi : Nat) :
    GoodMemory p (m.forget lo hi) :=
  ⟨Memory.wf_forget lo hi h.canonical, fun c hc => h.stored c (Memory.mem_forget hc)⟩

theorem GoodMemory.writeBytes {p : Config.Params} {m : Memory} (h : GoodMemory p m) {a : Nat}
    {bs : List Byte} (hrange : ∀ x, a ≤ x → x < a + bs.length → isStored p x) :
    GoodMemory p (m.writeBytes a bs) where
  canonical := Memory.wf_writeBytes a bs h.canonical
  stored c hc := by
    rcases Memory.mem_writeBytes hc with ⟨hlo, hhi⟩ | hold
    · exact hrange c.1 hlo hhi
    · exact h.stored c hold

theorem GoodMemory.writeOut {p : Config.Params} {m : Memory} (h : GoodMemory p m) {bs : List Byte}
    (hfit : bs.length ≤ p.outDepth) : GoodMemory p (m.writeBytes outBase bs) :=
  h.writeBytes fun _ hlo hhi => .inr (.inl ⟨hlo, by omega⟩)

theorem GoodMemory.writePerm {p : Config.Params} {m : Memory} (h : GoodMemory p m) {ps : List Nat}
    (hfit : ps.length ≤ p.permDepth) : GoodMemory p (m.writeEntries permBase ps) where
  canonical := Memory.wf_writeEntries permBase ps h.canonical
  stored c hc := by
    rcases Memory.mem_writeEntries hc with ⟨hlo, hhi, hbyte⟩ | hold
    · exact .inr (.inr ⟨hlo, by omega, hbyte⟩)
    · exact h.stored c hold

/-! ### STATUS -/

theorem legalStatus_reset : legalStatus Status.reset = true := rfl

theorem legalStatus_accepted (st : Status) : legalStatus (acceptedStatus st) = true := rfl

theorem legalStatus_completed (st : Status) : legalStatus (completedStatus st) = true := rfl

theorem legalStatus_raised (e : ErrorCode) (st : Status) : legalStatus (raisedStatus e st) = true := by
  cases e <;> rfl

/-- WBUSY is independent of the rest of STATUS (R27). -/
theorem legalStatus_wbusy (st : Status) (b : Bool) :
    legalStatus { st with wbusy := b } = legalStatus st := rfl

/-! ### The invariant from its parts -/

/-- Every draw in use was taken before. -/
def FreshDraws (s : State) : Prop := s.inDraw < s.draws ∧ s.outDraw < s.draws ∧ s.permDraw < s.draws

theorem Inv.goodMemory {s : State} (h : Inv s) : GoodMemory s.params s.mem := ⟨h.canonical, h.stored⟩

/-- While `rst_n` is high an update keeps the invariant when it keeps the parameters and leaves good memory, a legal
STATUS and fresh draws. -/
theorem Inv.update {s t : State} (h : Inv s) (hr : t.rstN = true) (hp : t.params = s.params)
    (hm : GoodMemory s.params t.mem) (hst : legalStatus t.status = true) (hd : FreshDraws t) : Inv t where
  params := hp ▸ h.params
  canonical := hm.canonical
  stored := hp ▸ hm.stored
  status := hst
  reset hlow := by simp [hr] at hlow
  fresh := hd

/-- The schedule is the model's own: taking an event from it keeps the invariant. -/
theorem Inv.withSchedule {s : State} (h : Inv s) (rest : List Event) : Inv { s with schedule := rest } :=
  ⟨h.params, h.canonical, h.stored, h.status, h.reset, h.fresh⟩

/-! ### Reset -/

theorem inv_resetWith {p : Config.Params} (h : p.Legal) : Inv (State.resetWith p) where
  params := h
  canonical := Memory.wf_nil
  stored := (goodMemory_nil p).stored
  status := legalStatus_reset
  reset hlow := by simp [State.resetWith] at hlow
  fresh := by simp [State.resetWith]

/-- Settles O53: the memory lists nothing, and the default depths are legal. -/
theorem invHoldsAtReset : Obligations.InvHoldsAtReset :=
  ⟨inv_resetWith (by decide), fun _ => inv_resetWith⟩

/-- R151: asserting reset establishes what must hold while `rst_n` is low. -/
theorem inv_assertReset {s : State} (h : Inv s) : Inv (assertReset s) where
  params := h.params
  canonical := Memory.wf_nil
  stored := (goodMemory_nil s.params).stored
  status := legalStatus_reset
  reset _ := ⟨rfl, rfl, rfl, rfl, rfl, rfl, rfl, rfl, rfl, rfl⟩
  fresh := by simp

theorem inv_releaseReset {s : State} (h : Inv s) : Inv (releaseReset s) :=
  h.update rfl rfl h.goodMemory h.status h.fresh

/-! ### The engine -/

/-- What the effect stores in OUT_BUF and PERM is within their depths. -/
def Effect.Fits (p : Config.Params) : Effect → Prop
  | .fail _ _ => True
  | .nothing => True
  | .hash _ => True
  | .output bs => bs.length ≤ p.outDepth
  | .positions pm => pm.length ≤ p.permDepth
  | .cipher bs pm => bs.length ≤ p.outDepth ∧ pm.length ≤ p.permDepth

theorem hashEffect_fits (p : Config.Params) (text : List Byte) (size : Nat) :
    (hashEffect p text size).Fits p := by
  unfold hashEffect
  split_ifs <;> trivial

/-- HEXHV checks no capacity: OUT_DEPTH is at least twice the greatest hash size (R8, R97). -/
theorem hexhv_fits {p : Config.Params} (hp : p.Legal) (s : State) :
    (Effect.output (hexStr (hashVector s))).Fits p := by
  obtain ⟨-, ⟨hout, -⟩, -⟩ := hp
  have hhs := hashSize_le s
  simp only [Effect.Fits, length_hexStr, length_hashVector]
  omega

theorem permuteEffect_fits (p : Config.Params) (hv : List Byte) (n : Nat) :
    (permuteEffect p hv n).Fits p := by
  unfold permuteEffect
  split_ifs with hempty hcap
  · trivial
  · trivial
  · simpa [Effect.Fits] using hcap

theorem encryptPointsEffect_fits (p : Config.Params) (cps : List Nat) (len : Nat) (hv : List Byte) :
    (encryptPointsEffect p cps len hv).Fits p := by
  unfold encryptPointsEffect
  split_ifs with hrange hcap
  · trivial
  · trivial
  · push Not at hcap
    simpa [Effect.Fits] using hcap.symm

theorem encryptEffect_fits (p : Config.Params) (text hv : List Byte) :
    (encryptEffect p text hv).Fits p := by
  unfold encryptEffect
  split_ifs
  · trivial
  · trivial
  · cases utf8Decode text with
    | none => trivial
    | some cps => exact encryptPointsEffect_fits p cps text.length hv

theorem decryptBytesEffect_fits (p : Config.Params) (d : List Byte) {hv : List Byte} (hhv : hv.length ≠ 0) :
    (decryptBytesEffect p d hv).Fits p := by
  unfold decryptBytesEffect
  split_ifs with hmod hperm hout
  · trivial
  · trivial
  · trivial
  · refine ⟨Nat.not_lt.1 hout, ?_⟩
    rw [decipher_perm (Nat.pos_of_ne_zero hhv) (not_not.1 hmod), length_permutation]
    exact Nat.not_lt.1 hperm

theorem decryptEffect_fits (p : Config.Params) (text hv : List Byte) :
    (decryptEffect p text hv).Fits p := by
  unfold decryptEffect
  split_ifs with hempty
  case neg => exact decryptBytesEffect_fits p _ hempty
  all_goals trivial

/-- No command stores more than the buffers hold (R97, R104, R117, R118). -/
theorem effect_fits (i : Instr) {s : State} (hp : s.params.Legal) : (effect i s).Fits s.params := by
  cases i with
  | nop => trivial
  | hash size => exact hashEffect_fits ..
  | hexhv => exact hexhv_fits hp s
  | permute n => exact permuteEffect_fits ..
  | encrypt => exact encryptEffect_fits ..
  | decrypt => exact decryptEffect_fits ..

theorem completionEffect_fits {s : State} (hp : s.params.Legal) : (completionEffect s).Fits s.params := by
  unfold completionEffect
  cases decode s.cmd with
  | ok i => exact effect_fits i hp
  | error _ => trivial

@[simp] theorem Effect.apply_rstN (e : Effect) (s : State) : (e.apply s).rstN = s.rstN := by
  cases e with
  | fail w c => exact raiseError_rstN w c s
  | _ => rfl

theorem Effect.apply_legalStatus (e : Effect) (s : State) : legalStatus (e.apply s).status = true := by
  cases e with
  | fail w c => exact legalStatus_raised c s.status
  | _ => exact legalStatus_completed s.status

/-- Storing results takes no draw; an error takes one for each buffer that it makes unspecified (R130). -/
theorem Effect.apply_freshDraws (e : Effect) {s : State} (h : FreshDraws s) : FreshDraws (e.apply s) := by
  cases e with
  | fail w c =>
    obtain ⟨hin, hout, hperm⟩ := h
    cases w <;> simp only [Effect.apply, FreshDraws, raiseError_inDraw, raiseError_nothing_outDraw,
      raiseError_nothing_permDraw, raiseError_nothing_draws, raiseError_perm_outDraw,
      raiseError_perm_permDraw, raiseError_perm_draws, raiseError_outAndPerm_outDraw,
      raiseError_outAndPerm_permDraw, raiseError_outAndPerm_draws] <;> omega
  | _ => exact h

theorem Effect.apply_goodMemory {e : Effect} {s : State} (hfit : e.Fits s.params)
    (h : GoodMemory s.params s.mem) : GoodMemory s.params (e.apply s).mem := by
  cases e with
  | fail w c =>
    cases w with
    | nothing => exact h
    | perm => exact h.forget _ _
    | outAndPerm => exact (h.forget _ _).forget _ _
  | nothing | hash slots => exact h
  | output bs => exact h.writeOut hfit
  | positions pm => exact h.writePerm hfit
  | cipher bs pm => exact (h.writeOut hfit.1).writePerm hfit.2

theorem Effect.apply_inv {e : Effect} {s : State} (h : Inv s) (hr : s.rstN = true)
    (hfit : e.Fits s.params) : Inv (e.apply s) :=
  h.update ((e.apply_rstN s).trans hr) (e.apply_params s) (Effect.apply_goodMemory hfit h.goodMemory)
    (e.apply_legalStatus s) (e.apply_freshDraws h.fresh)

/-- The engine's turn stores its effect, or changes nothing where it has no step (R128). -/
theorem engineTurn_effect {s t : State} (h : engineTurn s = .next t) :
    t = s ∨ (s.rstN = true ∧ s.status.busy = true ∧ t = (completionEffect s).apply s) := by
  unfold engineTurn at h
  split_ifs at h with hen
  · obtain ⟨hr, hb⟩ : s.rstN = true ∧ s.status.busy = true := by simpa [engineEnabled] using hen
    exact .inr ⟨hr, hb, by simpa [completionStep_eq_effect] using h.symm⟩
  · exact .inl (by simpa using h.symm)

theorem inv_engineTurn {s t : State} (h : Inv s) (ht : engineTurn s = .next t) : Inv t := by
  obtain rfl | ⟨hr, -, rfl⟩ := engineTurn_effect ht
  · exact h
  · exact Effect.apply_inv h hr (completionEffect_fits h.params)

/-! ### The bus -/

@[simp] theorem length_dataBytes (n : Nat) (v : Word) : (dataBytes n v).length = n := by simp [dataBytes]

/-- An accepted access that begins in IN_BUF lies in IN_BUF: it is aligned, so it does not reach past the buffer into
the next one (R55, R56). -/
theorem inBuf_access_stored {p : Config.Params} {a n : Nat} {row : MapRow} (h : accessRow p a n = some row)
    (hreg : row.region = .inBuf) (hp : p.Legal) {x : Nat} (hlo : a ≤ x) (hhi : x < a + n) : isStored p x := by
  obtain ⟨hsize, halign, hmapped, -, -⟩ := accessRow_some h
  obtain ⟨⟨-, hin⟩, -⟩ := hp
  have ha := spans_of_accessRow h
  simp only [hreg, Region.spans] at ha
  have hend : a + n ≤ 0x20000 := by rcases hsize with rfl | rfl | rfl <;> omega
  have hx : isMapped p x := by
    have := (rowAt_isSome p _).1 (hmapped (x - a) (by omega))
    rwa [Nat.add_sub_cancel' hlo] at this
  unfold isMapped at hx
  simp only [isStored, inBase]
  omega

theorem inv_dropWrite {s : State} (h : Inv s) (hr : s.rstN = true) : Inv (dropWrite s) :=
  h.update hr rfl h.goodMemory ((legalStatus_wbusy s.status true).trans h.status) h.fresh

theorem inv_writeReg (r : Reg) (v : Word) {s : State} (h : Inv s) (hr : s.rstN = true) :
    Inv (writeReg r v s) := by
  rcases writeReg_cases r v s with
    ⟨-, -, hw⟩ | ⟨-, -, hw⟩ | ⟨-, -, hw⟩ | ⟨-, -, hw⟩ | ⟨-, hw⟩ | ⟨-, hw⟩ | ⟨-, hw⟩ | hw <;> rw [hw]
  case inr.inl => exact h.update hr rfl h.goodMemory (legalStatus_accepted s.status) h.fresh
  case inr.inr.inr.inr.inl =>
    exact h.update hr rfl h.goodMemory ((legalStatus_wbusy s.status _).trans h.status) h.fresh
  · exact inv_dropWrite h hr
  all_goals exact h.update hr rfl h.goodMemory h.status h.fresh

theorem inv_performWrite {s : State} {a n : Nat} {row : MapRow} (h : Inv s) (hr : s.rstN = true)
    (hacc : accessRow s.params a n = some row) (v : Word) : Inv (performWrite row.region a n v s) := by
  rcases performWrite_cases row.region a n v s with
    ⟨-, -, hw⟩ | ⟨-, hreg, hw⟩ | ⟨-, -, hw⟩ | ⟨-, r, -, hw⟩ | hw <;> rw [hw]
  · exact inv_dropWrite h hr
  · refine h.update hr rfl (h.goodMemory.writeBytes fun x hlo hhi => ?_) h.status h.fresh
    have hspan := spans_of_accessRow hacc
    rw [hreg] at hspan
    have hbase : inBase ≤ a := hspan.1
    rw [Nat.add_sub_cancel' hbase] at hlo hhi
    rw [length_dataBytes] at hhi
    exact inBuf_access_stored hacc hreg h.params hlo hhi
  · exact h.update hr rfl h.goodMemory h.status h.fresh
  · exact inv_writeReg r v h hr
  · exact h

theorem inv_performRead (g : Region) (a n : Nat) {s : State} (h : Inv s) (hr : s.rstN = true) :
    Inv (performRead g a n s) := by
  rcases performRead_cases g a n s with ⟨-, -, hread⟩ | ⟨-, hread⟩ <;> rw [hread]
  · obtain ⟨hin, hout, hperm⟩ := h.fresh
    exact h.update hr rfl h.goodMemory h.status
      ⟨Nat.lt_succ_of_lt hin, Nat.lt_succ_of_lt hout, Nat.lt_succ_of_lt hperm⟩
  · exact h.update hr rfl h.goodMemory h.status h.fresh

theorem writeReg_rstN (r : Reg) (v : Word) (s : State) : (writeReg r v s).rstN = s.rstN := by
  rcases writeReg_cases r v s with
    ⟨-, -, h⟩ | ⟨-, -, h⟩ | ⟨-, -, h⟩ | ⟨-, -, h⟩ | ⟨-, h⟩ | ⟨-, h⟩ | ⟨-, h⟩ | h <;> rw [h] <;> rfl

theorem performWrite_rstN (g : Region) (a n : Nat) (v : Word) (s : State) :
    (performWrite g a n v s).rstN = s.rstN := by
  rcases performWrite_cases g a n v s with ⟨-, -, h⟩ | ⟨-, -, h⟩ | ⟨-, -, h⟩ | ⟨-, r, -, h⟩ | h <;> rw [h]
  case inr.inr.inr.inl => exact writeReg_rstN r v s
  all_goals rfl

theorem inv_busStep {x : Transaction} {s t : State} (h : Inv s) (ht : busStep x s = .next t) : Inv t := by
  obtain ⟨hr, row, hacc, rfl⟩ := busStep_cases ht
  cases x with
  | read off n => exact inv_performRead row.region off.toNat n h hr
  | write off n v =>
    have hw : Inv (performWrite row.region off.toNat n v s) := inv_performWrite h hr hacc v
    exact hw.update ((performWrite_rstN ..).trans hr) rfl hw.goodMemory hw.status hw.fresh

/-! ### The step -/

/-- Settles O54, along what a step can do: each event keeps the invariant. -/
theorem stepKeepsInv : Obligations.StepKeepsInv := by
  intro s t h ht
  rcases step_cases ht with ⟨-, hturn⟩ | ⟨rest, ⟨-, hturn⟩ | ⟨x, -, hbus⟩ | ⟨-, rfl⟩ | ⟨-, rfl⟩⟩
  · exact inv_engineTurn h hturn
  · exact inv_engineTurn (h.withSchedule rest) hturn
  · exact inv_busStep (h.withSchedule rest) hbus
  · exact inv_assertReset (h.withSchedule rest)
  · exact inv_releaseReset (h.withSchedule rest)

end Sys2Proof.Machine
end

section
/-! PROOFS. What is left alone: by each command on every path (R45, R130), WBUSY by all but its clearing write and reset,
and the state that reset leaves. -/

namespace Sys2Proof.Machine

/-! ### Reset (R43) -/

theorem readByte_resetWith (p : Config.Params) (a : Nat) :
    readByte (State.resetWith p) a = Config.freeByte 0 a := by
  simp [readByte, drawAt, State.resetWith]

/-- Settles O51, field by field. -/
theorem resetStateHasResetValues : Obligations.ResetStateHasResetValues :=
  ⟨rfl, rfl, rfl, rfl, rfl, rfl, rfl, rfl, rfl, fun _ h => Vector.getElem_replicate h, rfl, rfl, rfl,
    readByte_resetWith Config.Params.default⟩

/-! ### What every completion step leaves alone (R45) -/

theorem raiseError_sameControl (w : ErrorWrites) (c : ErrorCode) (s : State) :
    sameControl s (raiseError w c s) := by
  simp [sameControl]

theorem Effect.apply_sameControl (e : Effect) (s : State) : sameControl s (e.apply s) := by
  cases e with
  | fail w c => exact raiseError_sameControl w c s
  | _ => exact ⟨rfl, rfl, rfl, rfl, rfl, rfl, rfl⟩

theorem Effect.apply_inDraw (e : Effect) (s : State) : (e.apply s).inDraw = s.inDraw := by
  cases e with
  | fail w c => exact raiseError_inDraw w c s
  | _ => rfl

theorem readByte_storeOutput_of_outside (bs : List Byte) (s : State) {a : Nat}
    (h : a < outBase ∨ outBase + bs.length ≤ a) : readByte (storeOutput bs s) a = readByte s a := by
  rw [storeOutput, readByte_setOut, if_neg (by omega)]
  rfl

theorem readByte_storePermutation_of_lt (pm : List Nat) (n : Nat) (s : State) {a : Nat}
    (h : a < permBase) : readByte (storePermutation pm n s) a = readByte s a :=
  (readByte_setPerm_of_outside pm _ (.inl h)).trans rfl

/-- IN_BUF lies below the results. -/
theorem Effect.apply_sameInput (e : Effect) (s : State) :
    sameBytes (fun a => a < outBase) s (e.apply s) := by
  intro a (ha : a < outBase)
  have hperm : a < permBase := lt_trans ha (by decide)
  cases e with
  | fail w c => exact readByte_raiseError_of_lt w c s ha
  | nothing | hash slots => rfl
  | output bs => exact readByte_storeOutput_of_outside bs s (.inl ha)
  | positions pm => exact readByte_storePermutation_of_lt pm _ s hperm
  | cipher bs pm =>
    exact (readByte_storePermutation_of_lt pm _ _ hperm).trans
      (readByte_storeOutput_of_outside bs s (.inl ha))

/-! ### What each command leaves alone (R45) -/

/-- The column "writes on error" of R45. -/
def errorColumn : Instr → ErrorWrites
  | .nop | .hash _ | .hexhv => .nothing
  | .permute _ => .perm
  | .encrypt | .decrypt => .outAndPerm

theorem encryptEffect_fail {p : Config.Params} {text hv : List Byte} {w : ErrorWrites} {c : ErrorCode}
    (h : encryptEffect p text hv = .fail w c) : w = .outAndPerm := by
  unfold encryptEffect at h
  split_ifs at h
  · simp_all
  · simp_all
  · cases hd : utf8Decode text with
    | none => simp_all
    | some cps =>
      simp only [hd, encryptPointsEffect] at h
      split_ifs at h <;> simp_all

theorem decryptEffect_fail {p : Config.Params} {text hv : List Byte} {w : ErrorWrites} {c : ErrorCode}
    (h : decryptEffect p text hv = .fail w c) : w = .outAndPerm := by
  unfold decryptEffect decryptBytesEffect at h
  split_ifs at h <;> simp_all

/-- A failing command writes what its column says. -/
theorem effect_fail_column {i : Instr} {s : State} {w : ErrorWrites} {c : ErrorCode}
    (h : effect i s = .fail w c) : w = errorColumn i := by
  cases i with
  | nop | hexhv => simp [effect] at h
  | hash size =>
    simp only [effect, hashEffect] at h
    split_ifs at h <;> simp_all [errorColumn]
  | permute n =>
    simp only [effect, permuteEffect] at h
    split_ifs at h <;> simp_all [errorColumn]
  | encrypt => exact encryptEffect_fail h
  | decrypt => exact decryptEffect_fail h

/-- No error touches HV or HV_SIZE (R130). -/
theorem raiseError_sameHash (w : ErrorWrites) (c : ErrorCode) (s : State) :
    sameHash s (raiseError w c s) :=
  ⟨raiseError_hv w c s, raiseError_hvSize w c s⟩

/-- A failing PERMUTE makes PERM unspecified and no byte below it (R130). -/
theorem readByte_raiseError_perm_of_lt (c : ErrorCode) (s : State) {a : Nat} (h : a < permBase) :
    readByte (raiseError .perm c s) a = readByte s a := by
  have hread := readByte_unspecifyPerm { s with permLen := 0 } (lt_trans h (by decide : permBase < offsetEnd))
  rw [if_neg (Nat.not_le.2 h)] at hread
  exact hread

/-- HEXHV writes at most 510 bytes, so it ends below PERM (R97). -/
theorem output_hexStr_ends_below_perm (s : State) : outBase + (hexStr (hashVector s)).length ≤ permBase := by
  have hhs := hashSize_le s
  have ob : outBase = 0x20000 := rfl
  have pb : permBase = 0x40000 := rfl
  simp only [length_hexStr, length_hashVector]
  omega

/-- The frame of each command, beyond what all of them leave alone (R45). -/
def OwnFrame (i : Instr) (s t : State) : Prop :=
  match i with
  | .nop => sameHash s t ∧ t.outLen = s.outLen ∧ t.permLen = s.permLen ∧ sameBytes (fun _ => True) s t
  | .hash _ => t.outLen = s.outLen ∧ t.permLen = s.permLen ∧ sameBytes (fun _ => True) s t
  | .hexhv => sameHash s t ∧ t.permLen = s.permLen ∧ sameBytes (fun a => permBase ≤ a) s t
  | .permute _ => sameHash s t ∧ t.outLen = s.outLen ∧ sameBytes (fun a => a < permBase) s t
  | .encrypt | .decrypt => sameHash s t

theorem ownFrame_of_fail (i : Instr) (c : ErrorCode) (s : State) :
    OwnFrame i s (raiseError (errorColumn i) c s) := by
  cases i with
  | nop => exact ⟨raiseError_sameHash .., rfl, rfl, fun _ _ => rfl⟩
  | hash size => exact ⟨rfl, rfl, fun _ _ => rfl⟩
  | hexhv => exact ⟨raiseError_sameHash .., rfl, fun _ _ => rfl⟩
  | permute n => exact ⟨raiseError_sameHash .., rfl, fun _ ha => readByte_raiseError_perm_of_lt c s ha⟩
  | encrypt | decrypt => exact raiseError_sameHash ..

theorem ownFrame_effect (i : Instr) (s : State) : OwnFrame i s ((effect i s).apply s) := by
  obtain ⟨w, c, hfail⟩ | hkind := effect_kind i s
  · obtain rfl := effect_fail_column hfail
    rw [hfail]
    exact ownFrame_of_fail i c s
  cases i with
  | nop => exact ⟨⟨rfl, rfl⟩, rfl, rfl, fun _ _ => rfl⟩
  | hash size =>
    obtain ⟨slots, he⟩ := hkind
    rw [he]
    exact ⟨rfl, rfl, fun _ _ => rfl⟩
  | hexhv =>
    exact ⟨⟨rfl, rfl⟩, rfl, fun _ ha =>
      readByte_storeOutput_of_outside _ s (.inr (le_trans (output_hexStr_ends_below_perm s) ha))⟩
  | permute n =>
    obtain ⟨pm, he⟩ := hkind
    rw [he]
    exact ⟨⟨rfl, rfl⟩, rfl, fun _ ha => readByte_storePermutation_of_lt pm _ s ha⟩
  | encrypt | decrypt =>
    obtain ⟨bs, pm, he⟩ := hkind
    rw [he]
    exact ⟨rfl, rfl⟩

/-- Settles O19: the common part by what storing any effect does, the rest by the command's own frame. -/
theorem commandsLeaveTheRestUnchanged : Obligations.CommandsLeaveTheRestUnchanged := by
  intro i s t h
  obtain rfl : (effect i s).apply s = t := by simpa [exec_eq_effect] using h
  refine ⟨Effect.apply_sameControl _ s, Effect.apply_sameInput _ s, Effect.apply_inDraw _ s, ?_⟩
  have hown := ownFrame_effect i s
  cases i <;> exact hown

/-! ### WBUSY (R27, R158) -/

@[simp] theorem Effect.apply_wbusy (e : Effect) (s : State) :
    (e.apply s).status.wbusy = s.status.wbusy := by
  cases e <;> rfl

theorem engineTurn_wbusy {s t : State} (h : engineTurn s = .next t) : t.status.wbusy = s.status.wbusy := by
  obtain rfl | ⟨-, -, rfl⟩ := engineTurn_effect h
  · rfl
  · exact Effect.apply_wbusy ..

/-- A register write clears WBUSY only by a 1 in bit 3 of STATUS. -/
theorem writeReg_wbusy (r : Reg) (v : Word) {s : State} (hw : s.status.wbusy = true) :
    (writeReg r v s).status.wbusy = true ∨ (r = .status ∧ v.getLsbD 3 = true) := by
  rcases writeReg_cases r v s with
    ⟨-, -, h⟩ | ⟨-, -, h⟩ | ⟨-, -, h⟩ | ⟨-, -, h⟩ | ⟨hr, h⟩ | ⟨-, h⟩ | ⟨-, h⟩ | h <;> rw [h]
  case inr.inr.inr.inr.inl =>
    cases hv : v.getLsbD 3
    · exact .inl (by rw [writtenStatus_wbusy, hw, hv]; rfl)
    · exact .inr ⟨hr, rfl⟩
  · exact .inl rfl
  all_goals exact .inl hw

theorem performWrite_wbusy (g : Region) (a n : Nat) (v : Word) {s : State} (hw : s.status.wbusy = true) :
    (performWrite g a n v s).status.wbusy = true ∨
      (g = .registers ∧ regAt a = some .status ∧ v.getLsbD 3 = true) := by
  rcases performWrite_cases g a n v s with ⟨-, -, h⟩ | ⟨-, -, h⟩ | ⟨-, -, h⟩ | ⟨hg, r, hreg, h⟩ | h <;> rw [h]
  case inr.inr.inr.inl =>
    rcases writeReg_wbusy r v hw with hkept | ⟨rfl, hv⟩
    · exact .inl hkept
    · exact .inr ⟨hg, hreg, hv⟩
  · exact .inl rfl
  all_goals exact .inl hw

/-- The registers take aligned 4-byte accesses only (R54, R55), so STATUS is reached at its offset alone. -/
theorem status_access {p : Config.Params} {off : Offset} {n : Nat} {row : MapRow}
    (h : accessRow p off.toNat n = some row) (hg : row.region = .registers)
    (hreg : regAt off.toNat = some .status) : off = 0x00C ∧ n = 4 := by
  obtain ⟨-, halign, -, hrow, hwidth⟩ := accessRow_some h
  obtain ⟨hany, hlt⟩ : row.anyWidth = false ∧ off.toNat < 0x40 := by
    rcases rowAt_region hrow with ⟨-, h'⟩ | ⟨h', -⟩ | ⟨h', -⟩ | ⟨h', -⟩ | ⟨h', -⟩ | ⟨h', -⟩
    case inl => exact h'
    all_goals simp [hg] at h'
  obtain rfl : n = 4 := by simpa [widthAllowed, hany] using hwidth
  obtain ⟨-, hstatus, -⟩ := regAt_offset halign hlt hreg
  exact ⟨BitVec.eq_of_toNat_eq (hstatus.1 rfl), rfl⟩

/-- A transaction clears WBUSY only when it writes 1 to bit 3 of STATUS. -/
theorem busStep_wbusy {x : Transaction} {s t : State} (h : busStep x s = .next t)
    (hw : s.status.wbusy = true) :
    t.status.wbusy = true ∨ ∃ v, x = .write 0x00C 4 v ∧ v.getLsbD 3 = true := by
  obtain ⟨-, row, hrow, rfl⟩ := busStep_cases h
  cases x with
  | read off n =>
    rcases performRead_cases row.region off.toNat n s with ⟨-, -, h⟩ | ⟨-, h⟩ <;>
      exact .inl (by rw [performTransaction, h]; exact hw)
  | write off n v =>
    rcases performWrite_wbusy row.region off.toNat n v hw with hkept | ⟨hg, hreg, hv⟩
    · exact .inl hkept
    · obtain ⟨rfl, rfl⟩ := status_access hrow hg hreg
      exact .inr ⟨v, rfl, hv⟩

/-- Settles O49, along what a step can do. -/
theorem wbusyIsSticky : Obligations.WbusyIsSticky := by
  intro s t _ h hw
  rcases step_cases h with ⟨-, hturn⟩ | ⟨rest, ⟨-, hturn⟩ | ⟨x, hs, hbus⟩ | ⟨hs, rfl⟩ | ⟨-, rfl⟩⟩
  · exact .inl ((engineTurn_wbusy hturn).trans hw)
  · exact .inl ((engineTurn_wbusy hturn).trans hw)
  · obtain hkept | ⟨v, rfl, hv⟩ := busStep_wbusy hbus hw
    · exact .inl hkept
    · exact .inr (.inl ⟨v, rest, hs, hv⟩)
  · exact .inr (.inr ⟨rest, hs⟩)
  · exact .inl hw

end Sys2Proof.Machine
end

section
/-! PROOFS. The bus rules of 20_memory.md: which transactions are bus errors, the bytes of a buffer access in their
order, and what neither a read nor a transaction of the busy window can change. -/

namespace Sys2Proof.Machine

/-! ### Bus errors (R54 to R56) -/

/-- A region that takes 1- and 2-byte accesses is a buffer, and with legal parameters it lies in its window (R54). -/
theorem anyWidth_offset {p : Config.Params} {a : Nat} {row : MapRow} (hp : p.Legal)
    (hrow : rowAt p a = some row) (hany : row.anyWidth = true) : 0x10000 ≤ a ∧ a < 0x40000 := by
  obtain ⟨⟨-, hin⟩, ⟨-, hout⟩, -⟩ := hp
  rcases rowAt_region hrow with ⟨-, h, -⟩ | ⟨-, h, -⟩ | ⟨-, h, -⟩ | ⟨-, -, ha⟩ | ⟨-, -, ha⟩ | ⟨-, h, -⟩
  case inr.inr.inr.inl | inr.inr.inr.inr.inl => omega
  all_goals simp [hany] at h

/-- R56: an access that has a row is one that the address map accepts. -/
theorem isAccepted_of_accessRow {p : Config.Params} {a n : Nat} {row : MapRow} (hp : p.Legal)
    (h : accessRow p a n = some row) : isAccepted p a n := by
  obtain ⟨hsize, halign, hsome, hrow, hwidth⟩ := accessRow_some h
  refine ⟨hsize, halign, fun i hi => (rowAt_isSome p _).1 (hsome i hi), ?_⟩
  cases hany : row.anyWidth with
  | true => exact .inr (anyWidth_offset hp hrow hany)
  | false => exact .inl (by simpa [widthAllowed, hany] using hwidth)

/-- R56: a transaction that the address map does not accept is a bus error. -/
theorem busStep_of_rejected {s : State} {x : Transaction} (hp : s.params.Legal) (hr : s.rstN = true)
    (hx : ¬ isPerformed s.params x) :
    busStep x s = .fault (.busError (transactionOffset x) (transactionSize x)) := by
  have hnone : accessRow s.params (transactionOffset x).toNat (transactionSize x) = none :=
    Option.eq_none_iff_forall_ne_some.2 fun _ hrow => hx (isAccepted_of_accessRow hp hrow)
  simp [busStep, hr, hnone]

/-- Settles O36: the accesses that have a row of the map are exactly the accepted ones. -/
theorem busErrorExactlyWhenRejected : Obligations.BusErrorExactlyWhenRejected :=
  fun _ _ hp hr => ⟨busStep_of_isPerformed hr, busStep_of_rejected hp hr⟩

/-! ### Byte order (R50) -/

theorem dataOfBytes_lt (bs : List Byte) : dataOfBytes bs < 256 ^ bs.length := by
  induction bs with
  | nil => simp [dataOfBytes]
  | cons b bs ih =>
    have hb := b.isLt
    simp only [dataOfBytes, List.length_cons, pow_succ]
    omega

/-- Byte `k` of a datum is the byte at the `k`-th of the ascending offsets. -/
theorem dataOfBytes_digit (bs : List Byte) {k : Nat} (h : k < bs.length) :
    dataOfBytes bs / 256 ^ k % 256 = bs[k].toNat := by
  induction bs generalizing k with
  | nil => exact absurd h (Nat.not_lt_zero k)
  | cons b bs ih =>
    have hb := b.isLt
    cases k with
    | zero => simp only [dataOfBytes, pow_zero, Nat.div_one, List.getElem_cons_zero]; omega
    | succ k =>
      have hdrop : (b.toNat + 256 * dataOfBytes bs) / 256 = dataOfBytes bs := by omega
      rw [dataOfBytes, pow_succ', ← Nat.div_div_eq_div_mul, hdrop]
      exact ih (Nat.lt_of_succ_lt_succ h)

/-- The datum of an access to the bytes `f 0 .. f (n-1)`. -/
def littleEndian (n : Nat) (f : Nat → Byte) : Word := BitVec.ofNat 32 (dataOfBytes ((List.range n).map f))

/-- At most four bytes fit in a datum. -/
theorem toNat_littleEndian {n : Nat} (hn : n ≤ 4) (f : Nat → Byte) :
    (littleEndian n f).toNat = dataOfBytes ((List.range n).map f) := by
  have hlt := dataOfBytes_lt ((List.range n).map f)
  rw [List.length_map, List.length_range] at hlt
  rw [littleEndian, BitVec.toNat_ofNat]
  exact Nat.mod_eq_of_lt (hlt.trans_le (Nat.pow_le_pow_right (by decide) hn))

theorem littleEndian_lt {n : Nat} (hn : n ≤ 4) (f : Nat → Byte) : (littleEndian n f).toNat < 256 ^ n := by
  simpa [toNat_littleEndian hn] using dataOfBytes_lt ((List.range n).map f)

theorem extractLsb'_littleEndian {n k : Nat} (hn : n ≤ 4) (hk : k < n) (f : Nat → Byte) :
    (littleEndian n f).extractLsb' (8 * k) 8 = f k := by
  apply BitVec.eq_of_toNat_eq
  calc ((littleEndian n f).extractLsb' (8 * k) 8).toNat
      = dataOfBytes ((List.range n).map f) / 256 ^ k % 256 := by
        rw [BitVec.extractLsb'_toNat, toNat_littleEndian hn, Nat.shiftRight_eq_div_pow, pow_mul]
        rfl
    _ = (f k).toNat := by
        rw [dataOfBytes_digit _ (by simpa using hk)]
        simp

theorem getD_dataBytes (v : Word) {n k : Nat} (hk : k < n) :
    (dataBytes n v).getD k 0 = v.extractLsb' (8 * k) 8 := by
  simp [dataBytes, hk]

/-! ### Accesses of IN_BUF and OUT_BUF (R38, R39, R54) -/

/-- The buffers, which take accesses of 1, 2 and 4 bytes (R54). -/
def Region.IsBuffer (g : Region) : Prop := g = .inBuf ∨ g = .outBuf

/-- An aligned access whose bytes lie in one buffer is accepted at every width (R54, R55). -/
theorem isAccepted_of_buffer {p : Config.Params} {g : Region} {a n : Nat} (hg : g.IsBuffer) (hp : p.Legal)
    (hn : n = 1 ∨ n = 2 ∨ n = 4) (halign : a % n = 0) (h : ∀ i < n, g.spans p (a + i)) :
    isAccepted p a n := by
  obtain ⟨⟨-, hin⟩, ⟨-, hout⟩, -⟩ := hp
  have hfirst : g.spans p a := h 0 (by omega)
  have hmapped : ∀ i < n, isMapped p (a + i) := fun i hi => by
    have hspan := h i hi
    rcases hg with rfl | rfl <;> simp only [Region.spans] at hspan <;> simp only [isMapped] <;> omega
  have hwindow : 0x10000 ≤ a ∧ a < 0x40000 := by
    rcases hg with rfl | rfl <;> simp only [Region.spans] at hfirst <;> omega
  exact ⟨hn, halign, hmapped, .inr hwindow⟩

section
variable {s : State} {off : Offset} {a n : Nat}

/-- A read of a buffer, outside the busy window's exceptions. -/
theorem busStep_read_buffer {g : Region} (hg : g.IsBuffer) (ha : off.toNat = a) (hp : s.params.Legal)
    (hr : s.rstN = true) (hn : n = 1 ∨ n = 2 ∨ n = 4) (halign : a % n = 0)
    (h : ∀ i < n, g.spans s.params (a + i)) (hvis : s.status.busy = false ∨ hiddenWhenBusy g a = false) :
    busStep (.read off n) s = .next { s with response := some (.okayRead n (storedData s g a n)) } := by
  subst ha
  rw [busStep_of_spans (x := .read off n) hr (isAccepted_of_buffer hg hp hn halign h)
    (h 0 (by omega)) (.inr hp)]
  exact congrArg _ (performRead_of_visible n hvis)

/-- A write of a buffer does what the region's rule says (R57). -/
theorem busStep_write_buffer {g : Region} (hg : g.IsBuffer) {v : Word} (ha : off.toNat = a)
    (hp : s.params.Legal) (hr : s.rstN = true) (hn : n = 1 ∨ n = 2 ∨ n = 4) (halign : a % n = 0)
    (h : ∀ i < n, g.spans s.params (a + i)) :
    busStep (.write off n v) s = .next { performWrite g a n v s with response := some .okayWrite } := by
  subst ha
  exact busStep_of_spans (x := .write off n v) hr (isAccepted_of_buffer hg hp hn halign h)
    (h 0 (by omega)) (.inr hp)

end

theorem inBuf_spans {p : Config.Params} {o n : Nat} (h : o + n ≤ p.inDepth) :
    ∀ i < n, Region.inBuf.spans p (0x10000 + o + i) := fun i hi => by
  simp only [Region.spans]
  omega

theorem outBuf_spans {p : Config.Params} {o n : Nat} (h : o + n ≤ p.outDepth) :
    ∀ i < n, Region.outBuf.spans p (0x20000 + o + i) := fun i hi => by
  simp only [Region.spans]
  omega

/-- The buffers begin at multiples of 4, so index and offset are aligned alike. -/
theorem buffer_aligned {base o n : Nat} (hbase : base % 4 = 0) (hn : n = 1 ∨ n = 2 ∨ n = 4)
    (ho : o % n = 0) : (base + o) % n = 0 := by
  rcases hn with rfl | rfl | rfl <;> omega

theorem storedData_inBuf (s : State) (o n : Nat) :
    storedData s .inBuf (0x10000 + o) n = littleEndian n fun k => inByte s (o + k) := by
  simp only [storedData, littleEndian, inBase, Nat.add_sub_cancel_left]

theorem storedData_outBuf (s : State) (o n : Nat) :
    storedData s .outBuf (0x20000 + o) n = littleEndian n fun k => outByte s (o + k) := by
  simp only [storedData, littleEndian, outBase, Nat.add_sub_cancel_left]

/-- Settles O40: a read of a buffer answers the little-endian datum of its bytes; a read of IN_BUF is never hidden. -/
theorem bufferReadsAreLittleEndian : Obligations.BufferReadsAreLittleEndian := by
  intro s o n hp hr hn ho
  have hn4 : n ≤ 4 := by omega
  have ⟨⟨_, hin⟩, ⟨_, hout⟩, _⟩ := hp
  refine ⟨fun hfit => ⟨_, littleEndian_lt hn4 _, fun k hk => extractLsb'_littleEndian hn4 hk _, ?_⟩,
    fun hfit hb => ⟨_, littleEndian_lt hn4 _, fun k hk => extractLsb'_littleEndian hn4 hk _, ?_⟩⟩
  · rw [busStep_read_buffer (.inl rfl) (toNat_offset (by omega)) hp hr hn (buffer_aligned rfl hn ho)
      (inBuf_spans hfit) (.inr rfl), storedData_inBuf]
  · rw [busStep_read_buffer (.inr rfl) (toNat_offset (by omega)) hp hr hn (buffer_aligned rfl hn ho)
      (outBuf_spans hfit) (.inl hb), storedData_outBuf]

/-! ### What a write of IN_BUF stores (R57) -/

theorem performWrite_inBuf {s : State} (hb : s.status.busy = false) (o n : Nat) (v : Word) :
    performWrite .inBuf (0x10000 + o) n v s = setIn o (dataBytes n v) s := by
  simp [performWrite, guardedWrite, hb, inBase]

/-- The bytes of the write data, at ascending offsets (R50). -/
theorem inByte_setIn_dataBytes (s : State) (o : Nat) (v : Word) {n k : Nat} (hk : k < n) :
    inByte (setIn o (dataBytes n v) s) (o + k) = v.extractLsb' (8 * k) 8 := by
  rw [inByte, readByte_setIn, if_pos (by rw [length_dataBytes]; omega),
    show inBase + (o + k) - (inBase + o) = k by omega, getD_dataBytes v hk]

theorem setIn_sameBytes (s : State) (o n : Nat) (v : Word) :
    sameBytes (fun a => ¬ (inBase + o ≤ a ∧ a < inBase + o + n)) s (setIn o (dataBytes n v) s) := by
  intro a ha
  rw [readByte_setIn, length_dataBytes, if_neg ha]

/-- Settles O41: the write is `setIn` of its data bytes, and a read of any byte after `setIn` is known. -/
theorem inputWritesStoreTheirBytes : Obligations.InputWritesStoreTheirBytes := by
  intro s o n v hp hr hb hn ho hfit
  have ⟨⟨_, hin⟩, _⟩ := hp
  have hstep := busStep_write_buffer (.inl rfl) (v := v) (toNat_offset (by omega)) hp hr hn
    (buffer_aligned rfl hn ho) (inBuf_spans hfit)
  rw [performWrite_inBuf hb] at hstep
  exact ⟨_, hstep, rfl, fun _ hk => inByte_setIn_dataBytes s o v hk, setIn_sameBytes s o n v⟩

/-! ### The busy window and reads (R58, R60, R63) -/

/-- Settles O47: a transaction of the busy window leaves the whole run alone, its inputs among the rest. -/
theorem inputsAreStableWhileBusy : Obligations.InputsAreStableWhileBusy := by
  intro s t x hb ht
  have hrun := busStep_sameRun hb ht
  have hregs := hrun.registers
  exact ⟨⟨hregs.cmd, hregs.inLen, ⟨hregs.hv, hregs.hvSize⟩, hregs.params, fun a _ => hrun.bytes a trivial⟩,
    hrun.busy.trans hb, hregs.outLen, hregs.permLen, hrun.bytes⟩

/-- Settles O37: a read writes the response, and the draw counter only in the busy window. -/
theorem readsChangeNothing : Obligations.ReadsChangeNothing := by
  intro s t off n h
  obtain ⟨-, row, -, rfl⟩ := busStep_cases h
  rcases performRead_cases row.region off.toNat n s with ⟨hb, -, hread⟩ | ⟨-, hread⟩ <;>
    rw [performTransaction, hread]
  · exact ⟨rfl, fun hidle => by simp [hb] at hidle⟩
  · exact ⟨rfl, fun _ => rfl⟩

end Sys2Proof.Machine
end

section
/-! PROOFS. Decoding and encoding: a word is determined by its four fields (R71), a word decodes to a command exactly when
it has that command's fields, and a row of the opcode table (R75) says the same by mask and match. Any other word is
accepted too, and ends in its error (R78). -/

namespace Sys2Proof

/-! ### The fields of a word (R71) -/

/-- The four fields of a word. -/
structure Fields (w : Word) (op rsv : BitVec 4) (size : Byte) (n : Half) : Prop where
  op : opField w = op
  rsv : rsvField w = rsv
  size : sizeField w = size
  n : nField w = n

/-- The fields cover the word. -/
theorem word_eq_append_fields (w : Word) : w = nField w ++ (sizeField w ++ (rsvField w ++ opField w)) := by
  have hlow : rsvField w ++ opField w = w.extractLsb' 0 8 :=
    BitVec.extractLsb'_append_extractLsb'_eq_extractLsb' rfl
  have hmid : sizeField w ++ w.extractLsb' 0 8 = w.extractLsb' 0 16 :=
    BitVec.extractLsb'_append_extractLsb'_eq_extractLsb' rfl
  rw [hlow, hmid]
  exact (BitVec.extractLsb'_append_extractLsb' (w := 16) (len := 16)).symm

theorem Fields.eq_iff {v w : Word} {op rsv : BitVec 4} {size : Byte} {n : Half} (hv : Fields v op rsv size n) :
    w = v ↔ Fields w op rsv size n := by
  refine ⟨fun h => h ▸ hv, fun hw => ?_⟩
  rw [word_eq_append_fields w, word_eq_append_fields v, hw.op, hw.rsv, hw.size, hw.n, hv.op, hv.rsv, hv.size, hv.n]

theorem Fields.and {v w : Word} {op rsv op' rsv' : BitVec 4} {size size' : Byte} {n n' : Half}
    (hv : Fields v op rsv size n) (hw : Fields w op' rsv' size' n') :
    Fields (v &&& w) (op &&& op') (rsv &&& rsv') (size &&& size') (n &&& n') := by
  obtain ⟨rfl, rfl, rfl, rfl⟩ := hv
  obtain ⟨rfl, rfl, rfl, rfl⟩ := hw
  constructor <;> exact BitVec.extractLsb'_and

theorem Fields.or {v w : Word} {op rsv op' rsv' : BitVec 4} {size size' : Byte} {n n' : Half}
    (hv : Fields v op rsv size n) (hw : Fields w op' rsv' size' n') :
    Fields (v ||| w) (op ||| op') (rsv ||| rsv') (size ||| size') (n ||| n') := by
  obtain ⟨rfl, rfl, rfl, rfl⟩ := hv
  obtain ⟨rfl, rfl, rfl, rfl⟩ := hw
  constructor <;> exact BitVec.extractLsb'_or

theorem toNat_sizeField (w : Word) : (sizeField w).toNat = w.toNat / 2 ^ 8 % 2 ^ 8 := by
  simp [sizeField, Nat.shiftRight_eq_div_pow]

theorem toNat_nField (w : Word) : (nField w).toNat = w.toNat / 2 ^ 16 := by
  have hlt := w.isLt
  simp [nField, Nat.shiftRight_eq_div_pow]
  omega

/-- A word whose low byte is 0 has its value in SIZE and N. -/
theorem fields_of_toNat {w : Word} {size n : Nat} (hsize : size < 2 ^ 8)
    (h : w.toNat = 2 ^ 8 * size + 2 ^ 16 * n) : Fields w 0 0 (BitVec.ofNat 8 size) (BitVec.ofNat 16 n) := by
  have hlt := w.isLt
  constructor <;> apply BitVec.eq_of_toNat_eq
  case size => rw [toNat_sizeField, h, BitVec.toNat_ofNat]; omega
  case n => rw [toNat_nField, h, BitVec.toNat_ofNat]; omega
  case op => simp [opField, h]; omega
  case rsv => simp [rsvField, Nat.shiftRight_eq_div_pow, h]; omega

/-! ### The fields of a command -/

/-- OP of a command's row (R74). -/
@[simp] def Instr.opcode : Instr → BitVec 4
  | .nop => 0
  | .hash _ => 1
  | .hexhv => 2
  | .permute _ => 3
  | .encrypt => 4
  | .decrypt => 5

/-- What a command has in w[15:8]: its SIZE, or the 0 of an unused field (R72, R73). -/
@[simp] def Instr.sizeByte : Instr → Byte
  | .hash size => BitVec.ofNat 8 size
  | _ => 0

/-- What a command has in w[31:16]: its N, or the 0 of an unused field (R72, R73). -/
@[simp] def Instr.nHalf : Instr → Half
  | .permute n => BitVec.ofNat 16 n
  | _ => 0

/-- The word has the fields of the command. -/
abbrev Instr.FieldsIn (i : Instr) (w : Word) : Prop := Fields w i.opcode 0 i.sizeByte i.nHalf

theorem wellFormed_hash {size : Nat} : (Instr.hash size).WellFormed ↔ size < 2 ^ 8 :=
  decide_eq_true_iff.trans Nat.lt_succ_iff.symm

theorem wellFormed_permute {n : Nat} : (Instr.permute n).WellFormed ↔ n < 2 ^ 16 :=
  decide_eq_true_iff.trans Nat.lt_succ_iff.symm

theorem matchWord_fields (i : Instr) : Fields (matchWord i) i.opcode 0 0 0 := by
  constructor <;> cases i <;> rw [matchWord] <;> rfl

theorem operandWord_fields {i : Instr} (h : i.WellFormed) : Fields (operandWord i) 0 0 i.sizeByte i.nHalf := by
  cases i with
  | nop | hexhv | encrypt | decrypt => constructor <;> rfl
  | hash size =>
    rw [wellFormed_hash] at h
    refine fields_of_toNat (n := 0) h ?_
    simp [operandWord, Nat.shiftLeft_eq]
    omega
  | permute n =>
    rw [wellFormed_permute] at h
    refine fields_of_toNat (size := 0) (by decide) ?_
    simp [operandWord, Nat.shiftLeft_eq]
    omega

theorem encode_fields {i : Instr} (h : i.WellFormed) : i.FieldsIn (encode i) := by
  simpa [encode, Instr.FieldsIn] using (matchWord_fields i).or (operandWord_fields h)

/-! ### Decoding -/

theorem decodeForm_eq_ok_iff {b : Bool} {i j : Instr} : decodeForm b i = .ok j ↔ b = true ∧ i = j := by
  cases b <;> simp [decodeForm]

/-- R76: a word decodes to a command exactly when it has the command's fields and the operand fits. -/
theorem decode_eq_ok_iff {w : Word} {i : Instr} : decode w = .ok i ↔ i.WellFormed ∧ i.FieldsIn w := by
  constructor
  · intro h
    unfold decode at h
    split_ifs at h with hrsv hop hop hop hop hop hop
    all_goals
      obtain ⟨hunused, rfl⟩ := decodeForm_eq_ok_iff.1 h
      simp only [Bool.and_eq_true, beq_iff_eq] at hunused
      refine ⟨?_, hop, not_not.1 hrsv, by simp [hunused], by simp [hunused]⟩
    exacts [rfl, wellFormed_hash.2 (sizeField w).isLt, rfl, wellFormed_permute.2 (nField w).isLt, rfl, rfl]
  · rintro ⟨hwf, hop, hrsv, hsize, hn⟩
    cases i with
    | nop | hexhv | encrypt | decrypt => simp [decode, decodeForm, hop, hrsv, hsize, hn]
    | hash size => simpa [decode, decodeForm, hop, hrsv, hsize, hn] using wellFormed_hash.1 hwf
    | permute n => simpa [decode, decodeForm, hop, hrsv, hsize, hn] using wellFormed_permute.1 hwf

theorem decode_encode {i : Instr} (h : i.WellFormed) : decode (encode i) = .ok i :=
  decode_eq_ok_iff.2 ⟨h, encode_fields h⟩

theorem decode_of_encode_eq {i : Instr} {w : Word} (h : i.WellFormed) (he : encode i = w) : decode w = .ok i :=
  he ▸ decode_encode h

theorem wordOfBytes_extractLsb' (w : Word) :
    wordOfBytes (w.extractLsb' 0 8) (w.extractLsb' 8 8) (w.extractLsb' 16 8) (w.extractLsb' 24 8) = w := by
  have hhigh : w.extractLsb' 24 8 ++ w.extractLsb' 16 8 = w.extractLsb' 16 16 :=
    BitVec.extractLsb'_append_extractLsb'_eq_extractLsb' rfl
  have hupper : w.extractLsb' 16 16 ++ w.extractLsb' 8 8 = w.extractLsb' 8 24 :=
    BitVec.extractLsb'_append_extractLsb'_eq_extractLsb' rfl
  rw [wordOfBytes, hhigh, hupper]
  exact BitVec.extractLsb'_append_extractLsb' (w := 24) (len := 8)

@[simp] theorem decodeBytes_bytesOfWord (w : Word) : decodeBytes (bytesOfWord w) = decode w :=
  congrArg decode (wordOfBytes_extractLsb' w)

@[simp] theorem decodeTableWord_toNat (w : Word) : decodeTableWord 32 w.toNat = (decode w).toOption := by
  rw [decodeTableWord, Nat.mod_eq_of_lt w.isLt, BitVec.ofNat_toNat, BitVec.setWidth_eq, decodeBytes_bytesOfWord]

/-- Settles O1: the encoding has the command's fields, and its bytes and its table number are the same word. -/
theorem encodedCommandsDecode : Obligations.EncodedCommandsDecode := by
  intro i h
  have hdec := decode_encode h
  refine ⟨hdec, ?_, ?_⟩
  · rw [encodeBytes, decodeBytes_bytesOfWord, hdec]
  · rw [decodeTableWord_toNat, hdec]
    rfl

/-- Settles O2: a word that decodes has the command's fields, and so has the encoding. -/
theorem decodedWordsEncodeBack : Obligations.DecodedWordsEncodeBack := by
  intro w i h
  obtain ⟨hwf, hw⟩ := decode_eq_ok_iff.1 h
  exact ⟨hwf, hw.eq_iff.2 (encode_fields hwf)⟩

/-! ### The rows of the opcode table (R75) -/

/-- The command with its operand read from the word (R73). -/
def Instr.reading (w : Word) : Instr → Instr
  | .hash _ => .hash (w.toNat / 2 ^ 8 % 2 ^ 8)
  | .permute _ => .permute (w.toNat / 2 ^ 16)
  | i => i

/-- Every mask covers OP and RSV. -/
theorem maskWord_fields (i : Instr) :
    Fields (maskWord i) (BitVec.allOnes 4) (BitVec.allOnes 4) (sizeField (maskWord i)) (nField (maskWord i)) := by
  refine ⟨?_, ?_, rfl, rfl⟩ <;> cases i <;> rw [maskWord] <;> rfl

theorem matches_row_iff {w : Word} {i : Instr} :
    w &&& maskWord i = matchWord i ↔
      opField w = i.opcode ∧ rsvField w = 0 ∧ sizeField w &&& sizeField (maskWord i) = 0 ∧
        nField w &&& nField (maskWord i) = 0 := by
  have hw : Fields w (opField w) (rsvField w) (sizeField w) (nField w) := ⟨rfl, rfl, rfl, rfl⟩
  obtain ⟨hop, hrsv, hsize, hn⟩ := hw.and (maskWord_fields i)
  rw [BitVec.and_allOnes] at hop hrsv
  rw [(matchWord_fields i).eq_iff, ← hop, ← hrsv, ← hsize, ← hn]
  exact ⟨fun h => ⟨h.op, h.rsv, h.size, h.n⟩, fun ⟨hop, hrsv, hsize, hn⟩ => ⟨hop, hrsv, hsize, hn⟩⟩

theorem lt_and_eq_ofNat_iff {k n : Nat} {x : BitVec k} : n < 2 ^ k ∧ x = BitVec.ofNat k n ↔ n = x.toNat := by
  constructor
  · rintro ⟨hlt, rfl⟩
    rw [BitVec.toNat_ofNat, Nat.mod_eq_of_lt hlt]
  · rintro rfl
    exact ⟨x.isLt, by simp⟩

/-- R75: mask and match, with the operand read from its field, say that the word has the command's fields. -/
theorem decode_eq_ok_iff_row {w : Word} {i : Instr} :
    decode w = .ok i ↔ w &&& maskWord i = matchWord i ∧ i = i.reading w := by
  rw [decode_eq_ok_iff, matches_row_iff]
  cases i with
  | nop | hexhv | encrypt | decrypt =>
    have hsizeMask : sizeField 0xFFFFFFFF = BitVec.allOnes 8 := rfl
    have hnMask : nField 0xFFFFFFFF = BitVec.allOnes 16 := rfl
    simp only [maskWord, hsizeMask, hnMask, BitVec.and_allOnes, Instr.reading, and_true]
    exact ⟨fun ⟨_, h⟩ => ⟨h.op, h.rsv, h.size, h.n⟩, fun ⟨hop, hrsv, hsize, hn⟩ => ⟨rfl, hop, hrsv, hsize, hn⟩⟩
  | hash size =>
    have hsizeMask : sizeField 0xFFFF00FF = 0 := rfl
    have hnMask : nField 0xFFFF00FF = BitVec.allOnes 16 := rfl
    have hoperand := lt_and_eq_ofNat_iff (n := size) (x := sizeField w)
    simp only [maskWord, hsizeMask, hnMask, BitVec.and_allOnes, Instr.reading, Instr.hash.injEq,
      ← toNat_sizeField, wellFormed_hash]
    exact ⟨fun ⟨hlt, h⟩ => ⟨⟨h.op, h.rsv, BitVec.and_zero, h.n⟩, hoperand.1 ⟨hlt, h.size⟩⟩,
      fun ⟨⟨hop, hrsv, _, hn⟩, h⟩ => ⟨(hoperand.2 h).1, hop, hrsv, (hoperand.2 h).2, hn⟩⟩
  | permute n =>
    have hsizeMask : sizeField 0x0000FFFF = BitVec.allOnes 8 := rfl
    have hnMask : nField 0x0000FFFF = 0 := rfl
    have hoperand := lt_and_eq_ofNat_iff (n := n) (x := nField w)
    simp only [maskWord, hsizeMask, hnMask, BitVec.and_allOnes, Instr.reading, Instr.permute.injEq,
      ← toNat_nField, wellFormed_permute]
    exact ⟨fun ⟨hlt, h⟩ => ⟨⟨h.op, h.rsv, h.size, BitVec.and_zero⟩, hoperand.1 ⟨hlt, h.n⟩⟩,
      fun ⟨⟨hop, hrsv, hsize, _⟩, h⟩ => ⟨(hoperand.2 h).1, hop, hrsv, hsize, (hoperand.2 h).2⟩⟩

theorem decode_eq_ok_iff_matches {w : Word} {i : Instr} (hi : i = i.reading w) :
    decode w = .ok i ↔ w &&& maskWord i = matchWord i := by
  rw [decode_eq_ok_iff_row, and_iff_left hi]

/-- A word matches the rows of commands with different opcodes at most once, since each mask covers OP. -/
theorem countP_rows_le_one {commands : List Instr} (hop : (commands.map Instr.opcode).Nodup) (w : Word) :
    (commands.map fun i => (matchWord i, maskWord i)).countP (fun row => w &&& row.2 == row.1) ≤ 1 := by
  have hcount : commands.countP (fun i => i.opcode == opField w) ≤ 1 := by
    simpa [List.count, List.countP_map, Function.comp_def] using List.nodup_iff_count_le_one.1 hop (opField w)
  rw [List.countP_map]
  refine (List.countP_mono_left fun i _ hmatch => ?_).trans hcount
  obtain ⟨hopcode, -⟩ := matches_row_iff.1 (beq_iff_eq.1 hmatch)
  exact beq_iff_eq.2 hopcode.symm

/-- Settles O3: each row by its mask and match, and the six opcodes differ. -/
theorem decodeMatchesOpcodeTable : Obligations.DecodeMatchesOpcodeTable := by
  intro w
  refine ⟨decode_eq_ok_iff_matches rfl, fun size => ?_, decode_eq_ok_iff_matches rfl, fun n => ?_,
    decode_eq_ok_iff_matches rfl, decode_eq_ok_iff_matches rfl, ?_⟩
  · rw [decode_eq_ok_iff_row, Instr.reading, Instr.hash.injEq]
    rfl
  · rw [decode_eq_ok_iff_row, Instr.reading, Instr.permute.injEq]
    rfl
  · exact countP_rows_le_one (commands := [.nop, .hash 0, .hexhv, .permute 0, .encrypt, .decrypt]) (by decide) w

/-- Settles O4: each legal word is its command's encoding; the decoder rejects the other four by name. -/
theorem exampleWordsDecode : Obligations.ExampleWordsDecode := by
  refine ⟨decode_of_encode_eq rfl rfl, decode_of_encode_eq rfl rfl, decode_of_encode_eq rfl rfl,
    decode_of_encode_eq rfl rfl, decode_of_encode_eq rfl rfl, decode_of_encode_eq rfl rfl,
    decode_of_encode_eq rfl rfl, decode_of_encode_eq rfl rfl, decode_of_encode_eq rfl rfl,
    decode_of_encode_eq rfl rfl, decode_of_encode_eq rfl rfl, ?_, ?_, ?_, ?_⟩
  all_goals decide

end Sys2Proof

namespace Sys2Proof.Machine

/-! ### Illegal words (R78) -/

theorem engineTurn_of_illegal {s : State} {e : DecodeError} (hr : s.rstN = true) (hb : s.status.busy = true)
    (he : decode s.cmd = .error e) : engineTurn s = .next (raiseError .nothing .illegalCommand s) := by
  simp [engineTurn, engineEnabled, completionStep, hr, hb, he]

/-- R26, R127: while idle a CMD write is accepted, whatever its word. -/
theorem busStep_write_cmd {s : State} (hr : s.rstN = true) (hb : s.status.busy = false) (w : Word) :
    busStep (.write 0x008 4 w) s = .next { accept w s with response := some .okayWrite } := by
  refine (busStep_write_reg hr .cmd w).trans ?_
  simp [writeReg, guardedWrite, hb]

/-- Settles O7: the write is accepted, and the engine's turn raises ILLEGAL_COMMAND, which writes no result. -/
theorem illegalWordEndsWithIllegalCommand : Obligations.IllegalWordEndsWithIllegalCommand := by
  intro s w e he hr hb hs
  have haccept : step s = .next { accept w s with schedule := [.engine], response := some .okayWrite } := by
    rw [step, stepEvent, hs]
    exact busStep_write_cmd (s := { s with schedule := [.engine] }) hr hb w
  exact ⟨_, _, haccept, engineTurn_of_illegal (e := e) hr rfl he, rfl, rfl, ⟨rfl, rfl⟩, rfl⟩

end Sys2Proof.Machine
end

section
/-! PROOFS. The assembler (R80, R81): the words of a line are its parts between spaces, the digits that `Nat.toDigits`
writes read back as the number, and a mnemonic in any letter case is its upper-case name. -/

namespace Sys2Proof.Machine

/-! ### The words of a line -/

theorem splitWords_append {m : List Char} (hm : ' ' ∉ m) (word l : List Char) :
    splitWords word (m ++ l) = splitWords (m.reverse ++ word) l := by
  induction m generalizing word with
  | nil => rfl
  | cons c cs ih =>
    rw [List.mem_cons, not_or] at hm
    obtain ⟨hc, hcs⟩ := hm
    simp [splitWords, Ne.symm hc, ih hcs]

theorem splitWords_word {m : List Char} (hm : ' ' ∉ m) (hne : m ≠ []) : splitWords [] m = [m] := by
  simpa [splitWords, hne] using splitWords_append hm [] []

theorem splitWords_word_space {m : List Char} (hm : ' ' ∉ m) (hne : m ≠ []) (l : List Char) :
    splitWords [] (m ++ ' ' :: l) = m :: splitWords [] l := by
  simp [splitWords_append hm, splitWords, hne]

/-! ### Operands in decimal and in hexadecimal -/

theorem digitValue_digitChar {d : Nat} (h : d < 16) : digitValue (Nat.digitChar d) = some d := by
  revert d
  decide

theorem digitsValue_append_singleton {b acc v d : Nat} {l : List Char} {c : Char} (hl : digitsValue b acc l = some v)
    (hc : digitValue c = some d) (hd : d < b) : digitsValue b acc (l ++ [c]) = some (b * v + d) := by
  induction l generalizing acc with
  | nil =>
    obtain rfl : acc = v := Option.some.inj hl
    simp [digitsValue, hc, hd]
  | cons x xs ih =>
    simp only [digitsValue, List.cons_append] at hl ⊢
    split at hl
    · split_ifs at hl ⊢
      exact ih hl
    · cases hl

/-- By the recursion of `Nat.toDigits`, which splits off the last digit. -/
theorem digitsValue_toDigits {b : Nat} (hb : 1 < b) (hb16 : b ≤ 16) (k : Nat) :
    digitsValue b 0 (Nat.toDigits b k) = some k := by
  induction k using Nat.strong_induction_on with
  | _ k ih =>
    by_cases hk : k < b
    · simp [Nat.toDigits_of_lt_base hk, digitsValue, digitValue_digitChar (hk.trans_le hb16), hk]
    · have hdiv : k / b < k := Nat.div_lt_self (by omega) hb
      have hmod : k % b < b := Nat.mod_lt k (by omega)
      rw [Nat.toDigits_of_base_le hb (by omega),
        digitsValue_append_singleton (ih _ hdiv) (digitValue_digitChar (hmod.trans_le hb16)) hmod, Nat.div_add_mod]

theorem digitValue_ne_none_of_digitsValue {b acc v : Nat} {l : List Char} (h : digitsValue b acc l = some v)
    {c : Char} (hc : c ∈ l) : digitValue c ≠ none := by
  induction l generalizing acc with
  | nil => cases hc
  | cons x xs ih =>
    simp only [digitsValue] at h
    split at h
    · next d hd =>
      split_ifs at h
      rcases List.mem_cons.1 hc with rfl | hmem
      · simp [hd]
      · exact ih h hmem
    · cases h

theorem not_mem_toDigits {b : Nat} (hb : 1 < b) (hb16 : b ≤ 16) (k : Nat) {c : Char} (hc : digitValue c = none) :
    c ∉ Nat.toDigits b k :=
  fun hmem => digitValue_ne_none_of_digitsValue (digitsValue_toDigits hb hb16 k) hmem hc

theorem operandValue_of_no_x {l : List Char} (hne : l ≠ []) (hx : 'x' ∉ l) : operandValue l = digitsValue 10 0 l := by
  unfold operandValue
  split
  case h_1 => exact absurd rfl hne
  case h_2 | h_3 => simp at hx
  case h_4 => rfl

theorem operandValue_of_0x {l : List Char} (hne : l ≠ []) : operandValue ('0' :: 'x' :: l) = digitsValue 16 0 l := by
  cases l with
  | nil => exact absurd rfl hne
  | cons c cs => rfl

/-- A decimal or `0x` hexadecimal spelling of a number is one word, and its value is the number (R80). -/
theorem operand_spelling {k : Nat} {o : List Char}
    (h : o = Nat.toDigits 10 k ∨ o = '0' :: 'x' :: Nat.toDigits 16 k) : ' ' ∉ o ∧ operandValue o = some k := by
  rcases h with rfl | rfl
  · have hx : 'x' ∉ Nat.toDigits 10 k := not_mem_toDigits (by omega) (by omega) k rfl
    refine ⟨not_mem_toDigits (by omega) (by omega) k rfl, ?_⟩
    rw [operandValue_of_no_x Nat.toDigits_ne_nil hx, digitsValue_toDigits (by omega) (by omega)]
  · have hspace : ' ' ∉ Nat.toDigits 16 k := not_mem_toDigits (by omega) (by omega) k rfl
    refine ⟨by simp [hspace], ?_⟩
    rw [operandValue_of_0x Nat.toDigits_ne_nil, digitsValue_toDigits (by omega) (by omega)]

/-! ### Mnemonics -/

theorem isLower_iff (c : Char) : c.isLower = true ↔ 97 ≤ c.toNat ∧ c.toNat ≤ 122 := by
  simp [Char.isLower, UInt32.le_iff_toNat_le]

theorem upperCase_eq_map_toUpper (m : List Char) : upperCase m = m.map Char.toUpper := by
  refine List.map_congr_left fun c _ => ?_
  split_ifs with hlower <;> rw [← isLower_iff] at hlower
  · exact (Char.toUpper_eq_of_isLower hlower).symm
  · exact (Char.toUpper_eq_of_not_isLower hlower).symm

/-- The six mnemonics of R80. -/
def mnemonics : List (List Char) :=
  [['N', 'O', 'P'], ['H', 'A', 'S', 'H'], ['H', 'E', 'X', 'H', 'V'], ['P', 'E', 'R', 'M', 'U', 'T', 'E'],
    ['E', 'N', 'C', 'R', 'Y', 'P', 'T'], ['D', 'E', 'C', 'R', 'Y', 'P', 'T']]

/-- A mnemonic in any letter case is one word of a line. -/
theorem mnemonic_is_word {m : List Char} (hm : m.map Char.toUpper ∈ mnemonics) : ' ' ∉ m ∧ m ≠ [] := by
  have hnames : ∀ name ∈ mnemonics, ' '.toUpper ∉ name ∧ name ≠ [] := by decide
  obtain ⟨hspace, hne⟩ := hnames _ hm
  exact ⟨fun h => hspace (List.mem_map_of_mem h), by simpa using hne⟩

/-! ### Lines -/

theorem assemble_word {m : List Char} (hm : ' ' ∉ m) (hne : m ≠ []) :
    assemble m = (assembleCommand (m.map Char.toUpper) []).map encode := by
  simp [assemble, parseLine, splitWords_word hm hne, operandValues, upperCase_eq_map_toUpper]

theorem assemble_word_operand {m o : List Char} {k : Nat} (hm : ' ' ∉ m) (hne : m ≠ []) (ho : ' ' ∉ o)
    (hval : operandValue o = some k) :
    assemble (m ++ ' ' :: o) = (assembleCommand (m.map Char.toUpper) [k]).map encode := by
  have hone : o ≠ [] := by
    rintro rfl
    cases hval
  simp [assemble, parseLine, splitWords_word_space hm hne, splitWords_word ho hone, operandValues, hval,
    upperCase_eq_map_toUpper]

theorem map_encode_ite (p : Prop) [Decidable p] (i : Instr) (e : AsmError) :
    (if p then .ok i else .error e : Except AsmError Instr).map encode = if p then .ok (encode i) else .error e := by
  split_ifs <;> rfl

/-- No mnemonic takes two operands (R80). -/
theorem assembleCommand_two_operands (m : List Char) (a b : Nat) (ops : List Nat) :
    ∃ e, assembleCommand m (a :: b :: ops) = .error e := by
  unfold assembleCommand
  split_ifs <;> exact ⟨_, rfl⟩

/-- Settles O5: the six mnemonics one by one, and a line in any letter case is split, read and put in upper case. -/
theorem assemblerFollowsEncoding : Obligations.AssemblerFollowsEncoding := by
  refine ⟨?_, rfl, fun size => map_encode_ite (size ≤ 255) (.hash size) _, rfl,
    fun n => map_encode_ite (n ≤ 65535) (.permute n) _, assembleCommand_two_operands, ?_⟩
  · simp only [List.forall_mem_cons, List.not_mem_nil, false_imp_iff, implies_true, and_true]
    exact ⟨⟨rfl, fun _ => rfl⟩, ⟨rfl, fun _ => rfl⟩, ⟨rfl, fun _ => rfl⟩, ⟨rfl, fun _ => rfl⟩⟩
  · rintro _ hname m rfl
    obtain ⟨hspace, hne⟩ := mnemonic_is_word hname
    refine ⟨assemble_word hspace hne, fun k o ho => ?_⟩
    obtain ⟨hospace, hval⟩ := operand_spelling ho
    exact assemble_word_operand hspace hne hospace hval

end Sys2Proof.Machine
end

section
/-! PROOFS. The prime table (R86): the procedure `generatePrimes` collects exactly the primes below its bound, in
ascending order, and the table is what it answers for the bound 1000. -/

namespace Sys2Proof.Machine

/-- One candidate of `generatePrimes` (R86), the odd number `2 * i + 3`. -/
def testCandidate (ps : List Nat) (i : Nat) : List Nat :=
  if ps.all (fun p => (2 * i + 3) % p != 0) then ps ++ [2 * i + 3] else ps

/-- What `generatePrimes` has collected after the first `n` candidates. -/
def collectedPrimes (n : Nat) : List Nat := (List.range n).foldl testCandidate [2]

theorem generatePrimes_eq (bound : Nat) : generatePrimes bound = collectedPrimes ((bound - 2) / 2) := rfl

theorem collectedPrimes_succ (n : Nat) :
    collectedPrimes (n + 1) = testCandidate (collectedPrimes n) n := by
  simp [collectedPrimes, List.range_succ]

/-- Trial division by the smaller primes decides primality. -/
theorem prime_iff_no_smaller_prime_dvd {c : Nat} (hc : 2 ≤ c) :
    c.Prime ↔ ∀ p, p.Prime → p < c → ¬ p ∣ c := by
  refine ⟨fun hprime p hp hlt hdvd => ?_, fun h => ?_⟩
  · exact hlt.ne ((Nat.prime_dvd_prime_iff_eq hp hprime).1 hdvd)
  · by_contra hnot
    exact h c.minFac (Nat.minFac_prime (by omega)) ((Nat.not_prime_iff_minFac_lt hc).1 hnot) c.minFac_dvd

/-- A candidate passes the test against all smaller primes exactly when it is prime. -/
theorem all_mod_ne_zero_iff_prime {ps : List Nat} {c : Nat} (hc : 2 ≤ c)
    (hps : ∀ p, p ∈ ps ↔ p.Prime ∧ p < c) : (ps.all fun p => c % p != 0) = true ↔ c.Prime := by
  simp only [List.all_eq_true, bne_iff_ne, ne_eq, ← Nat.dvd_iff_mod_eq_zero, hps, and_imp,
    prime_iff_no_smaller_prime_dvd hc]

/-- Between two odd candidates lies an even number, so only the candidate itself can be a new prime. -/
theorem prime_lt_next_candidate_iff (n p : Nat) :
    p.Prime ∧ p < 2 * (n + 1) + 3 ↔ (p.Prime ∧ p < 2 * n + 3) ∨ (p = 2 * n + 3 ∧ p.Prime) := by
  have heven : p = 2 * n + 4 → ¬ p.Prime := by
    rintro rfl hp
    have := hp.eq_two_or_odd
    omega
  constructor
  · rintro ⟨hp, hlt⟩
    have : p ≠ 2 * n + 4 := fun h => heven h hp
    by_cases hold : p < 2 * n + 3
    · exact .inl ⟨hp, hold⟩
    · exact .inr ⟨by omega, hp⟩
  · rintro (⟨hp, hlt⟩ | ⟨rfl, hp⟩)
    · exact ⟨hp, by omega⟩
    · exact ⟨hp, by omega⟩

theorem mem_collectedPrimes (n p : Nat) : p ∈ collectedPrimes n ↔ p.Prime ∧ p < 2 * n + 3 := by
  induction n generalizing p with
  | zero =>
    simp only [collectedPrimes, List.range_zero, List.foldl_nil, List.mem_singleton]
    refine ⟨by rintro rfl; exact ⟨Nat.prime_two, by omega⟩, fun ⟨hp, hlt⟩ => ?_⟩
    have := hp.two_le
    omega
  | succ n ih =>
    rw [collectedPrimes_succ, testCandidate, prime_lt_next_candidate_iff]
    have htest := all_mod_ne_zero_iff_prime (by omega) ih
    split_ifs with hall
    · have hprime := htest.1 hall
      simp only [List.mem_append, ih, List.mem_singleton]
      exact or_congr_right ⟨fun h => ⟨h, h ▸ hprime⟩, And.left⟩
    · rw [ih, or_iff_left]
      rintro ⟨rfl, hprime⟩
      exact hall (htest.2 hprime)

theorem collectedPrimes_pairwise_lt (n : Nat) : (collectedPrimes n).Pairwise (· < ·) := by
  induction n with
  | zero => exact List.pairwise_singleton ..
  | succ n ih =>
    rw [collectedPrimes_succ, testCandidate]
    split_ifs
    · refine List.pairwise_append.2 ⟨ih, List.pairwise_singleton .., fun p hp c hc => ?_⟩
      rw [List.mem_singleton.1 hc]
      exact ((mem_collectedPrimes n p).1 hp).2
    · exact ih

/-- The table of R86 as its procedure computes it. -/
theorem primeTable_eq_generatePrimes : primeTable = generatePrimes 1000 := by decide +kernel

/-- Settles O20: the table is the procedure's answer, and the procedure collects the primes in order. -/
theorem primeTableIsAllPrimesBelowBound : Obligations.PrimeTableIsAllPrimesBelowBound := by
  refine ⟨primeTable_eq_generatePrimes, fun p => ?_, ?_, rfl, rfl⟩
  · rw [primeTable_eq_generatePrimes, generatePrimes_eq, mem_collectedPrimes]
    refine and_congr_right fun hp => ?_
    have : p ≠ 1000 := by rintro rfl; exact absurd hp (by norm_num)
    omega
  · rw [primeTable_eq_generatePrimes, generatePrimes_eq]
    exact collectedPrimes_pairwise_lt _

end Sys2Proof.Machine
end

section
/-! PROOFS. The keyed hash and the hexadecimal rendering (R88 to R91, R115): the slots after one key byte are running
sums and the accumulator is the last of them; two hex characters stand for each byte, and the decoder reads them back. -/

namespace Sys2Proof.Machine

/-! ### One key byte (R88) -/

/-- Each slot is the sum of the accumulator, the slots up to it and as many terms as slots. -/
theorem getD_hashSlots (pb t : Nat) {rs : List Nat} {j : Nat} (h : j < rs.length) :
    (hashSlots pb t rs).1.getD j 0 = (t + (rs.take (j + 1)).sum + (j + 1) * pb) % 255 := by
  induction rs generalizing t j with
  | nil => cases h
  | cons r rs ih =>
    cases j with
    | zero => simp [hashSlots, hashModulus, Nat.add_comm r t]
    | succ j =>
      have hj : j < rs.length := Nat.lt_of_succ_lt_succ h
      calc (hashSlots pb t (r :: rs)).1.getD (j + 1) 0
          = ((r + t + pb) % 255 + (rs.take (j + 1)).sum + (j + 1) * pb) % 255 := ih _ hj
        _ = (r + t + pb + (rs.take (j + 1)).sum + (j + 1) * pb) % 255 := by
          simp only [Nat.add_assoc, Nat.mod_add_mod]
        _ = (t + ((r :: rs).take (j + 1 + 1)).sum + (j + 1 + 1) * pb) % 255 := by
          rw [List.take_succ_cons, List.sum_cons]
          ring_nf

/-- The accumulator is carried from slot to slot, so it ends as the last slot. -/
theorem hashSlots_accumulator (pb t : Nat) (rs : List Nat) :
    (hashSlots pb t rs).2 = (hashSlots pb t rs).1.getLastD t := by
  induction rs generalizing t with
  | nil => rfl
  | cons r rs ih =>
    rw [hashSlots, List.getLastD_cons]
    exact ih _

theorem lt_of_mem_hashSlots {pb t : Nat} {rs : List Nat} {x : Nat} (h : x ∈ (hashSlots pb t rs).1) :
    x < 255 := by
  induction rs generalizing t with
  | nil => cases h
  | cons r rs ih =>
    rcases List.mem_cons.1 h with rfl | h
    · exact Nat.mod_lt _ (by decide)
    · exact ih h

/-! ### The whole key (R88, R89) -/

@[simp] theorem length_keyedHash (key : List Byte) (size : Nat) : (keyedHash key size).length = size := by
  simp [keyedHash]

/-- The default is reached only by a hash without slots, whose accumulator stays as it is. -/
theorem getLastD_hashSlots (pb : Nat) (rs : List Nat) :
    (hashSlots pb (rs.getLastD 0) rs).1.getLastD (rs.getLastD 0) =
      (hashSlots pb (rs.getLastD 0) rs).1.getLastD 0 := by
  cases rs with
  | nil => rfl
  | cons r rs => simp only [hashSlots, List.getLastD_cons]

/-- The last key byte acts on the slots that the bytes before it leave, with their last slot as accumulator. -/
theorem hashBytes_concat (key : List Byte) (b : Byte) (k : Nat) (rs : List Nat) :
    hashBytes (key ++ [b]) (k % 168) (rs.getLastD 0) rs =
      (hashSlots (prime ((k + key.length) % 168) * b.toNat)
        ((hashBytes key (k % 168) (rs.getLastD 0) rs).getLastD 0)
        (hashBytes key (k % 168) (rs.getLastD 0) rs)).1 := by
  induction key generalizing k rs with
  | nil => rfl
  | cons c key ih =>
    have hcursor : (k % 168 + 1) % primeCount = (k + 1) % 168 := Nat.mod_add_mod ..
    simp only [List.cons_append, hashBytes, hashSlots_accumulator, getLastD_hashSlots, hcursor, ih,
      List.length_cons, Nat.add_assoc, Nat.add_comm 1]

theorem keyedHash_concat (key : List Byte) (b : Byte) (size : Nat) :
    keyedHash (key ++ [b]) size =
      (hashSlots (prime (key.length % 168) * b.toNat) ((keyedHash key size).getLastD 0)
        (keyedHash key size)).1 := by
  have hzero : (List.replicate size 0).getLastD 0 = 0 := by
    cases size <;> simp [List.getLastD_eq_getLast?, List.getLast?_replicate]
  have h := hashBytes_concat key b 0 (List.replicate size 0)
  rwa [hzero, Nat.zero_add] at h

theorem getLastD_eq_getD (l : List Nat) : l.getLastD 0 = l.getD (l.length - 1) 0 := by
  rw [List.getLastD_eq_getLast?, List.getLast?_eq_getElem?, List.getD_eq_getElem?_getD]

/-- Settles O21, by the last byte of the key. -/
theorem hashSlotsAreRunningSums : Obligations.HashSlotsAreRunningSums := by
  refine ⟨length_keyedHash, fun _ => rfl, fun key b size j hj => ?_⟩
  rw [keyedHash_concat, getD_hashSlots _ _ (by simpa using hj), getLastD_eq_getD, length_keyedHash]
  rfl

/-- R89: every slot is a remainder modulo 255, from the zeros at the start on. -/
theorem lt_of_mem_keyedHash {key : List Byte} {size x : Nat} (h : x ∈ keyedHash key size) : x < 255 := by
  induction key using List.reverseRecOn with
  | nil =>
    rw [List.eq_of_mem_replicate h]
    decide
  | append_singleton key b =>
    rw [keyedHash_concat] at h
    exact lt_of_mem_hashSlots h

theorem getD_keyedHash_lt (key : List Byte) (size j : Nat) : (keyedHash key size).getD j 0 < 255 := by
  rcases Nat.lt_or_ge j (keyedHash key size).length with hj | hj
  · rw [List.getD_eq_getElem _ _ hj]
    exact lt_of_mem_keyedHash (List.getElem_mem hj)
  · rw [List.getD_eq_default _ _ hj]
    decide

/-- A slot fits its HV entry. -/
theorem toNat_getD_hashEntries (key : List Byte) (size j : Nat) :
    ((hashEntries key size).getD j 0).toNat = (keyedHash key size).getD j 0 := by
  have hentry : (hashEntries key size).getD j 0 = BitVec.ofNat 8 ((keyedHash key size).getD j 0) :=
    List.getD_map ..
  rw [hentry, BitVec.toNat_ofNat, Nat.mod_eq_of_lt (lt_trans (getD_keyedHash_lt key size j) (by decide))]

/-! ### The hex encoder (R90, R91) -/

theorem toNat_hexDigit {d : Nat} (h : d < 16) :
    (hexDigit d).toNat = if d ≤ 9 then 0x30 + d else 0x61 + (d - 10) := by
  unfold hexDigit
  split_ifs <;> rw [BitVec.toNat_ofNat, Nat.mod_eq_of_lt (by omega)]

@[simp] theorem hexStr_cons (b : Byte) (v : List Byte) :
    hexStr (b :: v) = hexDigit (b.toNat / 16) :: hexDigit (b.toNat % 16) :: hexStr v := rfl

/-- Byte `j` is rendered at `2 * j`, the high nibble first. -/
theorem getD_hexStr {v : List Byte} {j : Nat} (h : j < v.length) :
    (hexStr v).getD (2 * j) 0 = hexDigit ((v.getD j 0).toNat / 16) ∧
      (hexStr v).getD (2 * j + 1) 0 = hexDigit ((v.getD j 0).toNat % 16) := by
  induction v generalizing j with
  | nil => cases h
  | cons b v ih =>
    cases j with
    | zero => exact ⟨rfl, rfl⟩
    | succ j => exact ih (Nat.lt_of_succ_lt_succ h)

/-! ### The hex decoder (R115) -/

theorem inRange_iff (lo hi b : Byte) : inRange lo hi b = true ↔ lo.toNat ≤ b.toNat ∧ b.toNat ≤ hi.toNat := by
  simp [inRange, BitVec.le_def]

theorem hexVal_eq (c : Byte) :
    hexVal c =
      if 0x30 ≤ c.toNat ∧ c.toNat ≤ 0x39 then some (c.toNat - 0x30)
      else if 0x61 ≤ c.toNat ∧ c.toNat ≤ 0x66 then some (c.toNat - 0x61 + 10)
      else if 0x41 ≤ c.toNat ∧ c.toNat ≤ 0x46 then some (c.toNat - 0x41 + 10)
      else none := by
  simp [hexVal, inRange_iff]

theorem hexVal_lt {c : Byte} {d : Nat} (h : hexVal c = some d) : d < 16 := by
  rw [hexVal_eq] at h
  split_ifs at h <;> simp only [Option.some.injEq] at h <;> omega

/-- The decoder's table inverts the encoder's. -/
theorem hexVal_hexDigit {d : Nat} (h : d < 16) : hexVal (hexDigit d) = some d := by
  rw [hexVal_eq, toNat_hexDigit h]
  rcases Nat.lt_or_ge 9 d with hletter | hdigit
  · rw [if_neg (Nat.not_le.2 hletter), if_neg (by omega), if_pos (by omega)]
    congr 1
    omega
  · rw [if_pos hdigit, if_pos (by omega), Nat.add_sub_cancel_left]

theorem allHex_iff (s : List Byte) : allHex s = true ↔ ∀ c ∈ s, hexVal c ≠ none := by
  simp [allHex, Option.isSome_iff_ne_none]

theorem allHex_cons (c : Byte) (s : List Byte) :
    allHex (c :: s) = true ↔ (∃ d, hexVal c = some d) ∧ allHex s = true := by
  simp [allHex, Option.isSome_iff_exists]

/-- Two hex characters make one byte, the high nibble first. -/
theorem hexDecode_cons_cons {c1 c2 : Byte} {hi lo : Nat} (h1 : hexVal c1 = some hi) (h2 : hexVal c2 = some lo)
    (s : List Byte) : hexDecode (c1 :: c2 :: s) = BitVec.ofNat 8 (16 * hi + lo) :: hexDecode s := by
  simp [hexDecode, h1, h2]

/-- Each byte of a decoded string comes from its two characters. -/
theorem getD_hexDecode {s : List Byte} {m i : Nat} (hs : allHex s = true) (hm : s.length = 2 * m) (him : i < m) :
    ∃ hi lo, hexVal (s.getD (2 * i) 0) = some hi ∧ hexVal (s.getD (2 * i + 1) 0) = some lo ∧
      ((hexDecode s).getD i 0).toNat = 16 * hi + lo := by
  induction s using hexDecode.induct generalizing m i with
  | case1 c1 c2 s ih =>
    obtain ⟨⟨hi, h1⟩, h⟩ := (allHex_cons ..).1 hs
    obtain ⟨⟨lo, h2⟩, hs'⟩ := (allHex_cons ..).1 h
    simp only [List.length_cons] at hm
    rw [hexDecode_cons_cons h1 h2]
    cases i with
    | zero =>
      refine ⟨hi, lo, h1, h2, ?_⟩
      have := hexVal_lt h1
      have := hexVal_lt h2
      exact Nat.mod_eq_of_lt (by omega)
    | succ i => exact ih (m := m - 1) hs' (by omega) (by omega)
  | case2 s hshort =>
    have hlen : (hexDecode s).length = m := by rw [length_hexDecode, hm, Nat.mul_div_cancel_left m two_pos]
    rw [hexDecode.eq_2 s hshort, List.length_nil] at hlen
    omega

theorem nibbles_of_byte_lt (b : Byte) : b.toNat / 16 < 16 ∧ b.toNat % 16 < 16 := by
  have := b.isLt
  omega

theorem allHex_hexStr (v : List Byte) : allHex (hexStr v) = true := by
  induction v with
  | nil => rfl
  | cons b v ih =>
    obtain ⟨hhigh, hlow⟩ := nibbles_of_byte_lt b
    simp only [hexStr_cons, allHex_cons]
    exact ⟨⟨_, hexVal_hexDigit hhigh⟩, ⟨_, hexVal_hexDigit hlow⟩, ih⟩

/-- R91: the rendering decodes to the bytes that were rendered. -/
theorem hexDecode_hexStr (v : List Byte) : hexDecode (hexStr v) = v := by
  induction v with
  | nil => rfl
  | cons b v ih =>
    obtain ⟨hhigh, hlow⟩ := nibbles_of_byte_lt b
    rw [hexStr_cons, hexDecode_cons_cons (hexVal_hexDigit hhigh) (hexVal_hexDigit hlow), ih, Nat.div_add_mod,
      BitVec.ofNat_toNat, BitVec.setWidth_eq]

/-- Settles O23: decoding pair by pair, and the digits of the encoder are read back by the decoder. -/
theorem hexDecodeInvertsHexEncode : Obligations.HexDecodeInvertsHexEncode := by
  refine ⟨hexVal_eq, allHex_iff, fun s m hs hm => ⟨?_, fun i him => getD_hexDecode hs hm him⟩, fun v => ?_⟩
  · rw [length_hexDecode, hm, Nat.mul_div_cancel_left m two_pos]
  · exact ⟨length_hexStr v, allHex_hexStr v, hexDecode_hexStr v⟩

end Sys2Proof.Machine
end

section
/-! PROOFS. The completion steps of NOP, HASH and HEXHV (R95 to R97), and of every command on operands that its first
checks reject (R130, R131): what each stores is read off its effect, and the frame is that of every completion step. -/

namespace Sys2Proof.Machine

/-! ### How a completion step ends (R128 to R130) -/

theorem endsWithError_raiseError (w : ErrorWrites) (c : ErrorCode) (s : State) :
    endsWithError (errorBits c) s (raiseError w c s) := ⟨rfl, rfl⟩

/-- Every effect but a failure ends with `complete()`. -/
theorem Effect.apply_endsWell {e : Effect} (s : State) (h : ∀ w c, e ≠ .fail w c) : endsWell s (e.apply s) := by
  cases e with
  | fail w c => exact absurd rfl (h w c)
  | _ => exact ⟨rfl, rfl⟩

/-- A command whose effect is a failure completes with the error's code. -/
theorem exec_fails {i : Instr} {s : State} {w : ErrorWrites} {c : ErrorCode} (h : effect i s = .fail w c) :
    ∃ t, exec i s = .next t ∧ endsWithError (errorBits c) s t :=
  ⟨_, by rw [exec_eq_effect, h]; rfl, endsWithError_raiseError w c s⟩

/-! ### Rejected operands (R96, R104, R117, R118) -/

theorem effect_hash_zero (s : State) : effect (.hash 0) s = .fail .nothing .invalidKeySize := rfl

theorem effect_hash_capacity {size : Nat} {s : State} (h0 : size ≠ 0) (h : s.params.inDepth < s.inLen.toNat) :
    effect (.hash size) s = .fail .nothing .capacity := by
  simp only [effect, hashEffect, if_neg h0]
  exact if_pos (by simpa [inputLength] using h)

theorem length_hashVector_eq_zero_iff (s : State) : (hashVector s).length = 0 ↔ s.hvSize = 0 := by
  rw [length_hashVector, BitVec.toNat_eq]
  rfl

/-- The commands that use the hash vector check first that there is one. -/
theorem effect_emptyHash {i : Instr} {s : State} (hi : i = .encrypt ∨ i = .decrypt ∨ ∃ n, i = .permute n)
    (h : s.hvSize = 0) : ∃ w, effect i s = .fail w .emptyHash := by
  have hempty := (length_hashVector_eq_zero_iff s).2 h
  obtain rfl | rfl | ⟨n, rfl⟩ := hi
  · exact ⟨_, if_pos hempty⟩
  · exact ⟨_, if_pos hempty⟩
  · exact ⟨_, if_pos hempty⟩

theorem effect_permute_capacity {n : Nat} {s : State} (h : s.hvSize ≠ 0) (hn : s.params.permDepth < n) :
    effect (.permute n) s = .fail .perm .capacity :=
  (if_neg (mt (length_hashVector_eq_zero_iff s).1 h)).trans (if_pos hn)

theorem effect_cipher_capacity {i : Instr} {s : State} (hi : i = .encrypt ∨ i = .decrypt) (h : s.hvSize ≠ 0)
    (hlen : s.params.inDepth < s.inLen.toNat) : effect i s = .fail .outAndPerm .capacity := by
  have hvec := mt (length_hashVector_eq_zero_iff s).1 h
  have htext : s.params.inDepth < (inputBytes s).length := by rwa [length_inputBytes]
  obtain rfl | rfl := hi
  · exact (if_neg hvec).trans (if_pos htext)
  · exact (if_neg hvec).trans (if_pos htext)

/-- Settles O17: each clause is a check of the command's effect that fails. -/
theorem rejectedOperandsEndWithTheirError : Obligations.RejectedOperandsEndWithTheirError := by
  refine fun s => ⟨exec_fails (effect_hash_zero s), fun size h1 hlen => ?_, fun h0 i hi => ?_,
    fun h0 n hn => ?_, fun h0 hlen i hi => ?_⟩
  · exact exec_fails (effect_hash_capacity (Nat.ne_of_gt h1) hlen)
  · obtain ⟨w, hw⟩ := effect_emptyHash hi h0
    exact exec_fails hw
  · exact exec_fails (effect_permute_capacity h0 hn)
  · exact exec_fails (effect_cipher_capacity hi h0 hlen)

/-! ### NOP (R95) -/

/-- Settles O9: NOP stores nothing, so its own frame is everything. -/
theorem nopCompletes : Obligations.NopCompletes := by
  intro s
  have hexec := exec_eq_effect .nop s
  obtain ⟨hcontrol, -, -, hhash, hout, hperm, hbytes⟩ := commandsLeaveTheRestUnchanged .nop s _ hexec
  exact ⟨_, hexec, Effect.apply_endsWell s (by simp [effect]), hcontrol, hhash, hout, hperm, hbytes⟩

/-! ### HASH (R96, R89) -/

theorem effect_hash_success {size : Nat} {s : State} (h0 : size ≠ 0) (h : s.inLen.toNat ≤ s.params.inDepth) :
    effect (.hash size) s = .hash (hashEntries (inputBytes s) size) := by
  simp only [effect, hashEffect, if_neg h0]
  exact if_neg (by simpa [inputLength] using h)

/-- The entries of HV after a successful HASH, as numbers. -/
theorem toNat_getElem_setHv_hashEntries (key : List Byte) (size : Nat) (hv : Vector Byte 255) {j : Nat}
    (h : j < 255) : (setHv (hashEntries key size) hv)[j].toNat =
      if j < size then (keyedHash key size).getD j 0 else hv[j].toNat := by
  rw [getElem_setHv, length_hashEntries]
  split_ifs
  · exact toNat_getD_hashEntries key size j
  · rfl

/-- Settles O10: the effect holds the hash's entries, and the rest is the command's own frame. -/
theorem hashWritesHashVector : Obligations.HashWritesHashVector := by
  intro size s h1 h255 hlen
  have heffect := effect_hash_success (Nat.ne_of_gt h1) hlen
  have hexec := exec_eq_effect (.hash size) s
  obtain ⟨hcontrol, -, -, hout, hperm, hbytes⟩ := commandsLeaveTheRestUnchanged _ s _ hexec
  refine ⟨_, hexec, Effect.apply_endsWell s (by simp [heffect]), ?_, fun j hj => ?_, hcontrol, hout, hperm, hbytes⟩
  · rw [heffect]
    simp only [Effect.apply, complete_hvSize, length_hashEntries, BitVec.toNat_ofNat]
    omega
  · rw [heffect]
    exact toNat_getElem_setHv_hashEntries (inputBytes s) size s.hv hj

/-- Settles O22: a slot is a remainder modulo 255, and a HASH that does not fail writes slots. -/
theorem hashEntriesAreBelow255 : Obligations.HashEntriesAreBelow255 := by
  refine ⟨fun key size x hx => Nat.le_of_lt_succ (lt_of_mem_keyedHash hx), fun size s t h herr j hj hjsize h255 => ?_⟩
  obtain ⟨-, rfl⟩ | ⟨-, -, rfl⟩ | ⟨-, -, rfl⟩ := execHash_cases h
  · cases herr
  · cases herr
  · have hentry := toNat_getElem_setHv_hashEntries (inputBytes s) size s.hv hj
    have hlt := getD_keyedHash_lt (inputBytes s) size j
    rw [if_pos hjsize, show (setHv (hashEntries (inputBytes s) size) s.hv)[j] = 255 from h255] at hentry
    exact hlt.ne hentry.symm

/-! ### HEXHV (R97) -/

theorem getD_hashVector (s : State) {j : Nat} (h : j < 255) (hj : j < s.hvSize.toNat) :
    (hashVector s).getD j 0 = s.hv[j] := by
  have hlen : j < (hashVector s).length := by rwa [length_hashVector]
  rw [List.getD_eq_getElem _ _ hlen]
  simp [hashVector]

theorem length_hexStr_hashVector (s : State) : (hexStr (hashVector s)).length = 2 * s.hvSize.toNat := by
  rw [length_hexStr, length_hashVector, hashSize]

/-- Both characters of an HV entry in OUT_BUF, the high nibble first. -/
theorem outByte_setOut_hexStr (s s' : State) {j : Nat} (h : j < 255) (hj : j < s.hvSize.toNat) :
    outByte (setOut (hexStr (hashVector s)) s') (2 * j) = hexDigit (s.hv[j].toNat / 16) ∧
      outByte (setOut (hexStr (hashVector s)) s') (2 * j + 1) = hexDigit (s.hv[j].toNat % 16) := by
  have hlen := length_hexStr_hashVector s
  obtain ⟨hhigh, hlow⟩ := getD_hexStr (v := hashVector s) (j := j) (by rwa [length_hashVector])
  rw [getD_hashVector s h hj] at hhigh hlow
  exact ⟨(outByte_setOut _ _ (by omega)).trans hhigh, (outByte_setOut _ _ (by omega)).trans hlow⟩

/-- Settles O11: OUT_BUF takes the rendering, whose characters are the digits of each nibble. -/
theorem hexhvWritesRendering : Obligations.HexhvWritesRendering := by
  intro s
  have hexec := exec_eq_effect .hexhv s
  have hlen := length_hexStr_hashVector s
  obtain ⟨hcontrol, -, -, hhash, hperm, -⟩ := commandsLeaveTheRestUnchanged .hexhv s _ hexec
  refine ⟨_, hexec, Effect.apply_endsWell s (by simp [effect]), ?_, fun j h hj => ?_, fun a ha => ?_,
    hcontrol, hhash, hperm⟩
  · have hsize := s.hvSize.isLt
    simp only [effect, Effect.apply, storeOutput, complete_outLen, setOut_outLen, hlen, BitVec.toNat_ofNat]
    omega
  · obtain ⟨hhigh, hlow⟩ := outByte_setOut_hexStr s
      { s with outLen := BitVec.ofNat 32 (hexStr (hashVector s)).length } h hj
    obtain ⟨hhighLt, hlowLt⟩ := nibbles_of_byte_lt s.hv[j]
    exact ⟨(congrArg BitVec.toNat hhigh).trans (toNat_hexDigit hhighLt),
      (congrArg BitVec.toNat hlow).trans (toNat_hexDigit hlowLt)⟩
  · exact readByte_storeOutput_of_outside _ s (by rw [hlen]; omega)

end Sys2Proof.Machine
end

section
/-! PROOFS. The permutation of the hash vector (R101 to R103) as a list sorted strictly by the key (tile value, index),
and the commands that leave it in PERM (R104, R105). -/

namespace Sys2Proof.Machine

/-! ### The sort key (R101, R102) -/

/-- The value of the position vector at `p`, whatever its length (R101). -/
def tiledValue (hv : List Byte) (p : Nat) : Byte := hv.getD (p % hv.length) 0

/-- The key (tile value, index) of `p` is below that of `q` in lexicographic order (R102). -/
def keyBelow (hv : List Byte) (p q : Nat) : Bool :=
  decide (tiledValue hv p < tiledValue hv q) || (tiledValue hv p == tiledValue hv q && decide (p < q))

theorem getD_tile (hv : List Byte) {n p : Nat} (h : p < n) : (tile hv n).getD p 0 = tiledValue hv p := by
  rw [List.getD_eq_getElem _ _ (by simpa using h)]
  exact getElem_tile hv n p _

theorem keyBelow_iff (hv : List Byte) (p q : Nat) :
    keyBelow hv p q = true ↔
      tiledValue hv p < tiledValue hv q ∨ (tiledValue hv p = tiledValue hv q ∧ p < q) := by
  simp [keyBelow]

theorem keyBelow_asymm {hv : List Byte} {p q : Nat} (h : keyBelow hv p q = true) : keyBelow hv q p = false := by
  rw [Bool.eq_false_iff, ne_eq, keyBelow_iff]
  rw [keyBelow_iff] at h
  bv_omega

theorem rankBefore_iff (v : List Byte) (i j : Nat) :
    rankBefore v i j = true ↔ v.getD i 0 < v.getD j 0 ∨ (v.getD i 0 = v.getD j 0 ∧ i ≤ j) := by
  simp [rankBefore]

theorem rankBefore_total (v : List Byte) : Std.Total fun i j => rankBefore v i j = true :=
  ⟨fun i j => by simp only [rankBefore_iff]; bv_omega⟩

theorem rankBefore_trans (v : List Byte) : IsTrans Nat fun i j => rankBefore v i j = true :=
  ⟨fun i j k hij hjk => by simp only [rankBefore_iff] at hij hjk ⊢; bv_omega⟩

/-- The model's sort order is the strict one between different positions of the tile. -/
theorem keyBelow_of_rankBefore {hv : List Byte} {n p q : Nat} (hp : p < n) (hq : q < n) (hne : p ≠ q)
    (h : rankBefore (tile hv n) p q = true) : keyBelow hv p q = true := by
  rw [rankBefore_iff, getD_tile hv hp, getD_tile hv hq] at h
  rw [keyBelow_iff]
  exact h.imp_right fun ⟨heq, hle⟩ => ⟨heq, lt_of_le_of_ne hle hne⟩

/-! ### The permutation is sorted (R102) -/

theorem permutation_pairwise_rankBefore (hv : List Byte) (n : Nat) :
    (permutation hv n).Pairwise fun i j => rankBefore (tile hv n) i j = true :=
  have := rankBefore_total (tile hv n)
  have := rankBefore_trans (tile hv n)
  List.pairwise_insertionSort _ _

/-- No position occurs twice, so the keys rise strictly. -/
theorem permutation_pairwise_keyBelow (hv : List Byte) (n : Nat) :
    (permutation hv n).Pairwise fun p q => keyBelow hv p q = true :=
  ((permutation_pairwise_rankBefore hv n).and (nodup_permutation hv n)).imp_of_mem
    fun hp hq ⟨hle, hne⟩ =>
      keyBelow_of_rankBefore (lt_of_mem_permutation hp) (lt_of_mem_permutation hq) hne hle

/-- Settles O24: an insertion sort by a total transitive order is sorted, and strictly as nothing occurs twice. -/
theorem permutationIsStableSort : Obligations.PermutationIsStableSort := fun hv n =>
  ⟨permutation_perm hv n, (permutation_pairwise_keyBelow hv n).imp fun {p q} => (keyBelow_iff hv p q).1⟩

/-! ### The rank form (R103) -/

/-- In a list that rises strictly, an element stands after exactly the elements below it. -/
theorem getElem?_countP_of_pairwise {r : Nat → Nat → Bool} (hasymm : ∀ {a b}, r a b = true → r b a = false)
    {l : List Nat} (hl : l.Pairwise fun a b => r a b = true) {p : Nat} (hp : p ∈ l) :
    l[l.countP (r · p)]? = some p := by
  induction l with
  | nil => cases hp
  | cons x l ih =>
    obtain ⟨hx, hl⟩ := List.pairwise_cons.1 hl
    rcases List.mem_cons.1 hp with rfl | hmem
    · have hself : r p p = false := by
        cases h : r p p
        · rfl
        · exact h.symm.trans (hasymm h)
      have hcount : (p :: l).countP (r · p) = 0 := by
        refine List.countP_eq_zero.2 (List.forall_mem_cons.2 ⟨by simp [hself], fun a ha => ?_⟩)
        simp [hasymm (hx a ha)]
      rw [hcount, List.getElem?_cons_zero]
    · rw [List.countP_cons_of_pos (p := (r · p)) (hx p hmem), List.getElem?_cons_succ]
      exact ih hl hmem

theorem countP_or_of_disjoint {f g : Nat → Bool} (h : ∀ x, f x = true → g x = false) (l : List Nat) :
    l.countP (fun x => f x || g x) = l.countP f + l.countP g := by
  induction l with
  | nil => rfl
  | cons x l ih =>
    cases hf : f x
    · cases hg : g x <;> simp [hf, hg, ih, Nat.add_assoc]
    · simp [hf, h x hf, ih, Nat.add_right_comm]

/-- Counting the positions before `p` in a longer range is counting in `range p`. -/
theorem countP_range_and_lt (f : Nat → Bool) {p n : Nat} (h : p ≤ n) :
    (List.range n).countP (fun q => f q && decide (q < p)) = (List.range p).countP f := by
  obtain ⟨k, rfl⟩ := Nat.exists_eq_add_of_le h
  have hbelow : (List.range p).countP (fun q => f q && decide (q < p)) = (List.range p).countP f :=
    List.countP_congr fun q hq => by simp [List.mem_range.1 hq]
  have habove : ((List.range k).map (p + ·)).countP (fun q => f q && decide (q < p)) = 0 :=
    List.countP_eq_zero.2 fun q hq => by
      obtain ⟨i, -, rfl⟩ := List.mem_map.1 hq
      simp
  rw [List.range_add, List.countP_append, hbelow, habove, Nat.add_zero]

/-- The keys below that of `p` are the smaller values and the equal values before it. -/
theorem countP_keyBelow (hv : List Byte) {n p : Nat} (h : p < n) :
    (List.range n).countP (keyBelow hv · p) =
      (List.range n).countP (fun q => decide (tiledValue hv q < tiledValue hv p)) +
        (List.range p).countP (fun q => tiledValue hv q == tiledValue hv p) := by
  rw [← countP_range_and_lt _ h.le]
  refine countP_or_of_disjoint (fun q hlt => ?_) _
  have hne : tiledValue hv q ≠ tiledValue hv p := BitVec.ne_of_lt (of_decide_eq_true hlt)
  simp [hne]

/-- R103: position `p` stands at the rank that counts the keys below its own. -/
theorem getElem?_permutation_countP (hv : List Byte) {n p : Nat} (h : p < n) :
    (permutation hv n)[(List.range n).countP (keyBelow hv · p)]? = some p := by
  have hperm := permutation_perm hv n
  rw [← hperm.countP_eq]
  exact getElem?_countP_of_pairwise keyBelow_asymm (permutation_pairwise_keyBelow hv n)
    (hperm.mem_iff.2 (List.mem_range.2 h))

theorem tiledValue_of_forall_eq {hv : List Byte} {c : Byte} (h : ∀ x ∈ hv, x = c) (p q : Nat) :
    tiledValue hv p = tiledValue hv q := by
  rcases eq_or_ne hv [] with rfl | hne
  · rfl
  · have hvalue (i : Nat) : tiledValue hv i = c := by
      rw [tiledValue, List.getD_eq_getElem _ _ (Nat.mod_lt i (List.length_pos_of_ne_nil hne))]
      exact h _ (List.getElem_mem _)
    rw [hvalue, hvalue]

/-- With equal entries the index alone orders the positions, so `range(N)` is sorted already. -/
theorem permutation_of_forall_eq {hv : List Byte} {c : Byte} (h : ∀ x ∈ hv, x = c) (n : Nat) :
    permutation hv n = List.range n := by
  refine List.Pairwise.insertionSort_eq (List.pairwise_lt_range.imp_of_mem fun {p q} hp hq hlt => ?_)
  rw [rankBefore_iff, getD_tile hv (List.mem_range.1 hp), getD_tile hv (List.mem_range.1 hq)]
  exact .inr ⟨tiledValue_of_forall_eq h p q, hlt.le⟩

/-- Settles O25: the permutation rises strictly by the key, so the rank of a position is the number of keys below. -/
theorem permutationHasRankForm : Obligations.PermutationHasRankForm := fun hv n =>
  ⟨fun _ hp => (congrArg ((permutation hv n)[·]?) (countP_keyBelow hv hp)).symm.trans
      (getElem?_permutation_countP hv hp),
    nodup_permutation hv n, length_permutation hv n, fun _ h => permutation_of_forall_eq h n⟩

/-! ### PERMUTE (R104) -/

theorem exec_permute_of_fits {n : Nat} {s : State} (h0 : hashSize s ≠ 0) (hn : n ≤ s.params.permDepth) :
    exec (.permute n) s = .next (complete (storePermutation (permutation (hashVector s) n) n s)) := by
  have hexec : exec (.permute n) s = execPermute n s := rfl
  rw [hexec, execPermute, if_neg h0, if_neg (Nat.not_lt.2 hn), completed_eq]

/-- The entries that PERMUTE, ENCRYPT and DECRYPT leave in PERM. -/
theorem permEntry_storePermutation (hv : List Byte) {n r : Nat} (h : r < n) (s : State) :
    permEntry (storePermutation (permutation hv n) n s) r = BitVec.ofNat 16 ((permutation hv n).getD r 0) := by
  have hr : r < (permutation hv n).length := by rwa [length_permutation]
  rw [List.getD_eq_getElem _ _ hr]
  exact permEntry_setPerm (permutation hv n) _ hr

theorem getD_permutation_lt (hv : List Byte) {n r : Nat} (h : r < n) : (permutation hv n).getD r 0 < n := by
  rw [List.getD_eq_getElem _ _ (by rwa [length_permutation])]
  exact lt_of_mem_permutation (List.getElem_mem _)

/-- A number that fits its register is stored as it is. -/
theorem toNat_ofNat_of_lt {w n : Nat} (h : n < 2 ^ w) : (BitVec.ofNat w n).toNat = n := by
  rw [BitVec.toNat_ofNat, Nat.mod_eq_of_lt h]

/-- Settles O12: PERM takes the permutation, whose positions fit their entries, and the rest is PERMUTE's own frame. -/
theorem permuteWritesPermutation : Obligations.PermuteWritesPermutation := by
  intro n s h65535 hsize hn
  have hexec := exec_permute_of_fits (Nat.ne_of_gt hsize) hn
  obtain ⟨hcontrol, -, -, hhash, hout, -⟩ := commandsLeaveTheRestUnchanged _ s _ hexec
  refine ⟨_, hexec, ⟨rfl, rfl⟩, ?_, fun r hr => ?_, fun a ha => ?_, hcontrol, hhash, hout⟩
  · exact toNat_ofNat_of_lt (by omega)
  · have hlt := getD_permutation_lt (hashVector s) hr
    have hentry := permEntry_storePermutation (hashVector s) hr s
    exact (congrArg BitVec.toNat hentry).trans (toNat_ofNat_of_lt (by omega))
  · refine (readByte_setPerm _ _ a).trans (if_neg ?_)
    rwa [length_permutation]

/-! ### ENCRYPT and DECRYPT leave the same permutation (R105) -/

/-- `t` is the end of a command in `s` that leaves an output, and the permutation of the hash vector in use of a
length within PERM_DEPTH. -/
def LeavesPermutation (s t : State) : Prop :=
  hashSize s ≠ 0 ∧ ∃ out n, n ≤ s.params.permDepth ∧
    t = complete (storePermutation (permutation (hashVector s) n) n (storeOutput out s))

/-- R117: the permutation is that of the output size. -/
theorem encryptPoints_leavesPermutation {cps : List Nat} {s t : State} (hhs : hashSize s ≠ 0)
    (h : encryptPoints cps s = .next t) (hok : t.status.err = false) : LeavesPermutation s t := by
  rcases encryptPoints_cases h with ⟨-, rfl⟩ | ⟨-, -, rfl⟩ | ⟨-, hn, -, rfl⟩
  · cases hok
  · cases hok
  · rw [← length_hashVector] at hn
    exact ⟨hhs, _, _, hn, rfl⟩

/-- R118: the permutation is that of the length of the decoded text. -/
theorem decryptBytes_leavesPermutation {d : List Byte} {s t : State} (hhs : hashSize s ≠ 0)
    (h : decryptBytes d s = .next t) (hok : t.status.err = false) : LeavesPermutation s t := by
  rcases decryptBytes_cases h with ⟨-, rfl⟩ | ⟨-, -, rfl⟩ | ⟨-, -, -, rfl⟩ | ⟨hmod, hn, -, rfl⟩
  · cases hok
  · cases hok
  · cases hok
  · rw [← length_hashVector] at hmod
    have hpos : 0 < (hashVector s).length := by rw [length_hashVector]; exact Nat.pos_of_ne_zero hhs
    refine ⟨hhs, utf8Encode (decipher d (hashVector s)).bytes, d.length, hn, ?_⟩
    rw [storeCipher, decipher_perm hpos hmod, decipher_size hpos hmod, storeOutput]

theorem exec_encrypt_leavesPermutation {s t : State} (h : exec .encrypt s = .next t)
    (hok : t.status.err = false) : LeavesPermutation s t := by
  rcases execEncrypt_cases h with ⟨-, rfl⟩ | ⟨-, -, rfl⟩ | ⟨-, -, -, rfl⟩ | ⟨hhs, -, cps, -, hpoints⟩
  · cases hok
  · cases hok
  · cases hok
  · exact encryptPoints_leavesPermutation hhs hpoints hok

theorem exec_decrypt_leavesPermutation {s t : State} (h : exec .decrypt s = .next t)
    (hok : t.status.err = false) : LeavesPermutation s t := by
  rcases execDecrypt_cases h with ⟨-, rfl⟩ | ⟨-, -, rfl⟩ | ⟨-, -, -, rfl⟩ | ⟨hhs, -, -, -, -, hbytes⟩
  · cases hok
  · cases hok
  · cases hok
  · exact decryptBytes_leavesPermutation hhs hbytes hok

/-- Settles O34: both commands store the permutation that PERMUTE computes from the HV that they leave alone. -/
theorem permuteReproducesCipherPermutation : Obligations.PermuteReproducesCipherPermutation := by
  intro i s t hi hlegal h hok _
  have hleaves : LeavesPermutation s t := by
    rcases hi with rfl | rfl
    · exact exec_encrypt_leavesPermutation h hok
    · exact exec_decrypt_leavesPermutation h hok
  obtain ⟨hhs, out, n, hn, rfl⟩ := hleaves
  obtain ⟨-, -, -, hdepth⟩ := hlegal
  have hlen : (BitVec.ofNat 32 n).toNat = n := toNat_ofNat_of_lt (by omega)
  have hexec := exec_permute_of_fits (s := complete
    (storePermutation (permutation (hashVector s) n) n (storeOutput out s))) hhs hn
  refine ⟨_, (congrArg (fun k => exec (.permute k) _) hlen).trans hexec, rfl, rfl, fun r hr => ?_⟩
  have hrn : r < n := lt_of_lt_of_eq hr hlen
  exact (permEntry_storePermutation (hashVector s) hrn _).trans
    (permEntry_storePermutation (hashVector s) hrn _).symm

end Sys2Proof.Machine
end

section
/-! PROOFS. The text codec (R110, R111): a decodable byte string is a row of well-formed sequences, each with its code
point, and the sequence of a code point up to 0xFF is the one that the encoder writes. -/

namespace Sys2Proof.Machine

/-! ### The well-formed sequences (R110) -/

/-- The bytes form one well-formed sequence, which yields the code point. -/
inductive Utf8Sequence : List Byte → Nat → Prop where
  | one {b1 : Byte} (h : isOne b1 = true) : Utf8Sequence [b1] b1.toNat
  | two {b1 b2 : Byte} (h : isTwo b1 b2 = true) : Utf8Sequence [b1, b2] (codePoint2 b1 b2)
  | three {b1 b2 b3 : Byte} (h : isThree b1 b2 b3 = true) : Utf8Sequence [b1, b2, b3] (codePoint3 b1 b2 b3)
  | four {b1 b2 b3 b4 : Byte} (h : isFour b1 b2 b3 b4 = true) :
    Utf8Sequence [b1, b2, b3, b4] (codePoint4 b1 b2 b3 b4)

theorem isOne_iff (b1 : Byte) : isOne b1 = true ↔ b1.toNat ≤ 0x7F := by
  simp [isOne, inRange_iff]

theorem isContinuation_iff (b : Byte) : isContinuation b = true ↔ 0x80 ≤ b.toNat ∧ b.toNat ≤ 0xBF := by
  simp [isContinuation, inRange_iff]

theorem isTwo_iff (b1 b2 : Byte) :
    isTwo b1 b2 = true ↔ (0xC2 ≤ b1.toNat ∧ b1.toNat ≤ 0xDF) ∧ (0x80 ≤ b2.toNat ∧ b2.toNat ≤ 0xBF) := by
  simp [isTwo, inRange_iff, isContinuation_iff]

theorem isThree_iff (b1 b2 b3 : Byte) :
    isThree b1 b2 b3 = true ↔
      ((b1.toNat = 0xE0 ∧ 0xA0 ≤ b2.toNat ∧ b2.toNat ≤ 0xBF) ∨
        ((0xE1 ≤ b1.toNat ∧ b1.toNat ≤ 0xEC) ∧ 0x80 ≤ b2.toNat ∧ b2.toNat ≤ 0xBF) ∨
        ((0xEE ≤ b1.toNat ∧ b1.toNat ≤ 0xEF) ∧ 0x80 ≤ b2.toNat ∧ b2.toNat ≤ 0xBF) ∨
        (b1.toNat = 0xED ∧ 0x80 ≤ b2.toNat ∧ b2.toNat ≤ 0x9F)) ∧
      (0x80 ≤ b3.toNat ∧ b3.toNat ≤ 0xBF) := by
  simp [isThree, inRange_iff, isContinuation_iff, BitVec.toNat_eq, or_assoc]

theorem isFour_iff (b1 b2 b3 b4 : Byte) :
    isFour b1 b2 b3 b4 = true ↔
      ((b1.toNat = 0xF0 ∧ 0x90 ≤ b2.toNat ∧ b2.toNat ≤ 0xBF) ∨
        ((0xF1 ≤ b1.toNat ∧ b1.toNat ≤ 0xF3) ∧ 0x80 ≤ b2.toNat ∧ b2.toNat ≤ 0xBF) ∨
        (b1.toNat = 0xF4 ∧ 0x80 ≤ b2.toNat ∧ b2.toNat ≤ 0x8F)) ∧
      (0x80 ≤ b3.toNat ∧ b3.toNat ≤ 0xBF) ∧ (0x80 ≤ b4.toNat ∧ b4.toNat ≤ 0xBF) := by
  simp [isFour, inRange_iff, isContinuation_iff, BitVec.toNat_eq, or_assoc, and_assoc]

/-- The first byte of a sequence of two or more bytes is no sequence by itself. -/
theorem isOne_eq_false {b1 : Byte} (h : 0x7F < b1.toNat) : isOne b1 = false := by
  rw [Bool.eq_false_iff, ne_eq, isOne_iff]
  omega

/-- The first two bytes of a sequence of three or four bytes are no sequence by themselves. -/
theorem isTwo_eq_false {b1 : Byte} (h : 0xDF < b1.toNat) (b2 : Byte) : isTwo b1 b2 = false := by
  rw [Bool.eq_false_iff, ne_eq, isTwo_iff]
  omega

theorem isThree_eq_false {b1 : Byte} (h : 0xEF < b1.toNat) (b2 b3 : Byte) : isThree b1 b2 b3 = false := by
  rw [Bool.eq_false_iff, ne_eq, isThree_iff]
  omega

/-! ### Decoding sequence by sequence (R110) -/

/-- The decoder takes a sequence off the front and goes on with the tail. -/
theorem utf8Decode_append {q : List Byte} {c : Nat} (h : Utf8Sequence q c) (tail : List Byte) :
    utf8Decode (q ++ tail) = (utf8Decode tail).map (c :: ·) := by
  cases h with
  | one h1 =>
    rw [List.singleton_append, utf8Decode.eq_def]
    simp [consPoint, h1]
  | @two b1 b2 h2 =>
    have hone : isOne b1 = false := isOne_eq_false (by rw [isTwo_iff] at h2; omega)
    rw [utf8Decode.eq_def]
    simp [consPoint, hone, h2]
  | @three b1 b2 b3 h3 =>
    have hlead : 0xDF < b1.toNat := by rw [isThree_iff] at h3; omega
    have hone : isOne b1 = false := isOne_eq_false (by omega)
    rw [utf8Decode.eq_def]
    simp [consPoint, hone, isTwo_eq_false hlead, h3]
  | @four b1 b2 b3 b4 h4 =>
    have hlead : 0xEF < b1.toNat := by rw [isFour_iff] at h4; omega
    have hone : isOne b1 = false := isOne_eq_false (by omega)
    have htwo : isTwo b1 b2 = false := isTwo_eq_false (by omega) b2
    rw [utf8Decode.eq_def]
    simp [consPoint, hone, htwo, isThree_eq_false hlead, h4]

/-- A byte string is empty, begins with a sequence, or is malformed. -/
theorem utf8Decode_cases (b : List Byte) :
    b = [] ∨ (∃ q c tail, Utf8Sequence q c ∧ b = q ++ tail) ∨ utf8Decode b = none := by
  fun_cases utf8Decode b with
  | case1 => exact .inl rfl
  | case2 b1 tail h => exact .inr (.inl ⟨[b1], _, tail, .one h, rfl⟩)
  | case4 b1 _ b2 tail h => exact .inr (.inl ⟨[b1, b2], _, tail, .two h, rfl⟩)
  | case6 b1 _ b2 _ b3 tail h => exact .inr (.inl ⟨[b1, b2, b3], _, tail, .three h, rfl⟩)
  | case8 b1 _ b2 _ b3 _ b4 tail h => exact .inr (.inl ⟨[b1, b2, b3, b4], _, tail, .four h, rfl⟩)
  | case3 | case5 | case7 | case9 => exact .inr (.inr rfl)

/-- A decodable byte string is empty, or a sequence before a decodable tail. -/
theorem utf8Decode_eq_some {b : List Byte} {cps : List Nat} (h : utf8Decode b = some cps) :
    (b = [] ∧ cps = []) ∨
      ∃ q c tail rest, Utf8Sequence q c ∧ b = q ++ tail ∧ utf8Decode tail = some rest ∧ cps = c :: rest := by
  rcases utf8Decode_cases b with rfl | ⟨q, c, tail, hq, rfl⟩ | hnone
  · exact .inl ⟨rfl, (Option.some.inj h).symm⟩
  · rw [utf8Decode_append hq, Option.map_eq_some_iff] at h
    obtain ⟨rest, htail, rfl⟩ := h
    exact .inr ⟨q, c, tail, rest, hq, rfl, htail, rfl⟩
  · rw [hnone] at h
    cases h

/-- What holds of the empty string, and of a sequence before a tail when it holds of the tail, holds of every
decodable byte string with its code points. -/
theorem utf8Decode_induction {motive : List Byte → List Nat → Prop} (nil : motive [] [])
    (append : ∀ {q c tail cps}, Utf8Sequence q c → motive tail cps → motive (q ++ tail) (c :: cps))
    {b : List Byte} {cps : List Nat} (h : utf8Decode b = some cps) : motive b cps := by
  induction cps generalizing b with
  | nil =>
    obtain ⟨rfl, -⟩ | ⟨q, c, tail, rest, -, -, -, hcps⟩ := utf8Decode_eq_some h
    · exact nil
    · cases hcps
  | cons c cps ih =>
    obtain ⟨-, hcps⟩ | ⟨q, c, tail, rest, hq, rfl, htail, hcps⟩ := utf8Decode_eq_some h
    · cases hcps
    · cases hcps
      exact append hq (ih htail)

/-! ### The table of R110 -/

theorem length_eq_of_fitsRow {row : List (Nat × Nat)} {q : List Byte} (h : fitsRow row q = true) :
    row.length = q.length := by
  fun_induction fitsRow row q with
  | case1 => rfl
  | case2 r row b q ih =>
    rw [Bool.and_eq_true] at h
    rw [List.length_cons, List.length_cons, ih h.2]
  | case3 | case4 => cases h

/-- The rows of the table are the sequences of one to four bytes that the decoder looks for. -/
theorem exists_row_one (b1 : Byte) : (∃ row ∈ utf8Rows, fitsRow row [b1] = true) ↔ isOne b1 = true := by
  simp [utf8Rows, fitsRow, isOne_iff]

theorem exists_row_two (b1 b2 : Byte) :
    (∃ row ∈ utf8Rows, fitsRow row [b1, b2] = true) ↔ isTwo b1 b2 = true := by
  simp [utf8Rows, fitsRow, isTwo_iff]

theorem exists_row_three (b1 b2 b3 : Byte) :
    (∃ row ∈ utf8Rows, fitsRow row [b1, b2, b3] = true) ↔ isThree b1 b2 b3 = true := by
  simp only [utf8Rows, fitsRow, isThree_iff, List.exists_mem_cons_iff, Bool.and_eq_true, decide_eq_true_eq,
    List.not_mem_nil, Bool.false_eq_true, and_false, false_and, exists_false, or_false, false_or, and_true]
  omega

theorem exists_row_four (b1 b2 b3 b4 : Byte) :
    (∃ row ∈ utf8Rows, fitsRow row [b1, b2, b3, b4] = true) ↔ isFour b1 b2 b3 b4 = true := by
  simp only [utf8Rows, fitsRow, isFour_iff, List.exists_mem_cons_iff, Bool.and_eq_true, decide_eq_true_eq,
    List.not_mem_nil, Bool.false_eq_true, and_false, false_and, exists_false, or_false, false_or, and_true]
  omega

/-- The table's sequences with its last column are the well-formed sequences with their code points. -/
theorem utf8Sequence_iff_row (q : List Byte) (c : Nat) :
    Utf8Sequence q c ↔ (∃ row ∈ utf8Rows, fitsRow row q = true) ∧ rowPoint q = c := by
  constructor
  · intro h
    cases h with
    | one h => exact ⟨(exists_row_one _).2 h, rfl⟩
    | two h => exact ⟨(exists_row_two ..).2 h, rfl⟩
    | three h => exact ⟨(exists_row_three ..).2 h, rfl⟩
    | four h => exact ⟨(exists_row_four ..).2 h, rfl⟩
  · rintro ⟨hrow, rfl⟩
    match q with
    | [] => simp [utf8Rows, fitsRow] at hrow
    | [b1] => exact .one ((exists_row_one b1).1 hrow)
    | [b1, b2] => exact .two ((exists_row_two b1 b2).1 hrow)
    | [b1, b2, b3] => exact .three ((exists_row_three b1 b2 b3).1 hrow)
    | [b1, b2, b3, b4] => exact .four ((exists_row_four b1 b2 b3 b4).1 hrow)
    | _ :: _ :: _ :: _ :: _ :: _ => simp [utf8Rows, fitsRow] at hrow

/-- Settles O59: the decoder takes off a sequence of the table, and answers `Malformed` when there is none. -/
theorem utf8DecodeFollowsItsTable : Obligations.Utf8DecodeFollowsItsTable := by
  refine ⟨rfl, fun row hrow q tail hfits => ?_, fun b hne hnofit => ?_⟩
  · exact utf8Decode_append ((utf8Sequence_iff_row q _).2 ⟨⟨row, hrow, hfits⟩, rfl⟩) tail
  · rcases utf8Decode_cases b with rfl | ⟨q, c, tail, hq, rfl⟩ | hnone
    · exact absurd rfl hne
    · obtain ⟨⟨row, hrow, hfits⟩, -⟩ := (utf8Sequence_iff_row q c).1 hq
      have hno := hnofit row hrow
      rw [length_eq_of_fitsRow hfits, List.take_left, hfits] at hno
      cases hno
    · exact hnone

/-! ### Code points as numbers -/

/-- The last six bits of a code point are those of its last byte. -/
theorem or_sixBits (x : Nat) (b : Byte) : x <<< 6 ||| (b.toNat &&& 0x3F) = 64 * x + b.toNat % 64 := by
  rw [Nat.and_two_pow_sub_one_eq_mod _ 6, ← Nat.shiftLeft_add_eq_or_of_lt (Nat.mod_lt _ (by decide)),
    Nat.shiftLeft_eq, Nat.mul_comm]

theorem codePoint2_eq (b1 b2 : Byte) : codePoint2 b1 b2 = 64 * (b1.toNat % 32) + b2.toNat % 64 := by
  rw [codePoint2, or_sixBits, Nat.and_two_pow_sub_one_eq_mod _ 5]

theorem codePoint3_eq (b1 b2 b3 : Byte) :
    codePoint3 b1 b2 b3 = 64 * (64 * (b1.toNat % 16) + b2.toNat % 64) + b3.toNat % 64 := by
  rw [codePoint3, Nat.shiftLeft_add _ 6 6, ← Nat.shiftLeft_or_distrib, or_sixBits, or_sixBits,
    Nat.and_two_pow_sub_one_eq_mod _ 4]

theorem codePoint4_eq (b1 b2 b3 b4 : Byte) :
    codePoint4 b1 b2 b3 b4 =
      64 * (64 * (64 * (b1.toNat % 8) + b2.toNat % 64) + b3.toNat % 64) + b4.toNat % 64 := by
  rw [codePoint4, Nat.shiftLeft_add _ 12 6, Nat.shiftLeft_add (b2.toNat &&& 0x3F) 6 6,
    ← Nat.shiftLeft_or_distrib, ← Nat.shiftLeft_or_distrib, Nat.shiftLeft_add _ 6 6,
    ← Nat.shiftLeft_or_distrib, or_sixBits, or_sixBits, or_sixBits, Nat.and_two_pow_sub_one_eq_mod _ 3]

/-- R110: a sequence yields a scalar value. -/
theorem Utf8Sequence.isScalar {q : List Byte} {c : Nat} (h : Utf8Sequence q c) :
    c < 0x110000 ∧ ¬ (0xD800 ≤ c ∧ c ≤ 0xDFFF) := by
  cases h with
  | one h =>
    rw [isOne_iff] at h
    omega
  | two h =>
    rw [isTwo_iff] at h
    rw [codePoint2_eq]
    omega
  | three h =>
    rw [isThree_iff] at h
    rw [codePoint3_eq]
    omega
  | four h =>
    rw [isFour_iff] at h
    rw [codePoint4_eq]
    omega

theorem Utf8Sequence.length_pos {q : List Byte} {c : Nat} (h : Utf8Sequence q c) : 0 < q.length := by
  cases h <;> exact Nat.succ_pos _

/-- Settles O28, sequence by sequence. -/
theorem utf8DecodeYieldsScalarValues : Obligations.Utf8DecodeYieldsScalarValues := by
  refine fun b cps h => utf8Decode_induction
    (motive := fun b cps => cps.length ≤ b.length ∧ ∀ c ∈ cps, c < 0x110000 ∧ ¬ (0xD800 ≤ c ∧ c ≤ 0xDFFF))
    (by simp) (fun {q c tail cps} hq ih => ?_) h
  obtain ⟨hlen, hscalar⟩ := ih
  refine ⟨?_, List.forall_mem_cons.2 ⟨hq.isScalar, hscalar⟩⟩
  have hpos := hq.length_pos
  rw [List.length_append, List.length_cons]
  omega

/-! ### The encoder (R111) -/

theorem utf8Char_eq (c : Byte) :
    utf8Char c = if c.toNat ≤ 0x7F then [c] else [0xC0 ||| (c >>> 6), 0x80 ||| (c &&& 0x3F)] := rfl

theorem toNat_leadByte (c : Byte) : (0xC0 ||| (c >>> 6)).toNat = 0xC0 + c.toNat / 64 := by
  have hsmall : c.toNat / 64 < 2 ^ 6 := by have := c.isLt; omega
  rw [BitVec.toNat_or, BitVec.toNat_ushiftRight, Nat.shiftRight_eq_div_pow]
  exact (Nat.shiftLeft_add_eq_or_of_lt hsmall 3).symm

theorem toNat_lastByte (c : Byte) : (0x80 ||| (c &&& 0x3F)).toNat = 0x80 + c.toNat % 64 := by
  have hsmall : c.toNat % 64 < 2 ^ 6 := Nat.mod_lt _ (by decide)
  rw [BitVec.toNat_or, BitVec.toNat_and]
  exact (congrArg _ (Nat.and_two_pow_sub_one_eq_mod _ 6)).trans
    (Nat.shiftLeft_add_eq_or_of_lt hsmall 2).symm

/-- The encoding of a code point up to 0xFF is its sequence. -/
theorem utf8Sequence_utf8Char (c : Byte) : Utf8Sequence (utf8Char c) c.toNat := by
  rw [utf8Char_eq]
  split_ifs with hsmall
  · exact .one ((isOne_iff c).2 hsmall)
  · have hc := c.isLt
    have hpoint : codePoint2 (0xC0 ||| (c >>> 6)) (0x80 ||| (c &&& 0x3F)) = c.toNat := by
      rw [codePoint2_eq, toNat_leadByte, toNat_lastByte]
      omega
    have hseq : isTwo (0xC0 ||| (c >>> 6)) (0x80 ||| (c &&& 0x3F)) = true := by
      rw [isTwo_iff, toNat_leadByte, toNat_lastByte]
      omega
    exact hpoint ▸ .two hseq

/-- A sequence of a code point up to 0xFF is the encoding of that code point. -/
theorem Utf8Sequence.eq_utf8Char {q : List Byte} {c : Nat} (h : Utf8Sequence q c) (hc : c ≤ 0xFF) :
    utf8Char (BitVec.ofNat 8 c) = q := by
  have hval : (BitVec.ofNat 8 c).toNat = c := toNat_ofNat_of_lt (by omega)
  cases h with
  | one h => rw [utf8Char_eq, hval, if_pos ((isOne_iff _).1 h), BitVec.ofNat_toNat, BitVec.setWidth_eq]
  | @two b1 b2 h =>
    rw [codePoint2_eq] at hc hval ⊢
    rw [isTwo_iff] at h
    have hlead : 0xC0 ||| (BitVec.ofNat 8 (64 * (b1.toNat % 32) + b2.toNat % 64) >>> 6) = b1 :=
      BitVec.eq_of_toNat_eq (by rw [toNat_leadByte, hval]; omega)
    have hlast : 0x80 ||| (BitVec.ofNat 8 (64 * (b1.toNat % 32) + b2.toNat % 64) &&& 0x3F) = b2 :=
      BitVec.eq_of_toNat_eq (by rw [toNat_lastByte, hval]; omega)
    rw [utf8Char_eq, hval, if_neg (by omega), hlead, hlast]
  | three h =>
    rw [isThree_iff] at h
    rw [codePoint3_eq] at hc
    omega
  | four h =>
    rw [isFour_iff] at h
    rw [codePoint4_eq] at hc
    omega

@[simp] theorem utf8Encode_cons (c : Byte) (cs : List Byte) :
    utf8Encode (c :: cs) = utf8Char c ++ utf8Encode cs := rfl

/-- Settles O27, code point by code point. -/
theorem utf8DecodeInvertsEncode : Obligations.Utf8DecodeInvertsEncode := by
  intro cs
  induction cs with
  | nil => rfl
  | cons c cs ih => rw [utf8Encode_cons, utf8Decode_append (utf8Sequence_utf8Char c), ih]; rfl

/-- R111: encoding what was decoded gives the bytes back. -/
theorem utf8Encode_of_utf8Decode {b : List Byte} {cps : List Nat} (h : utf8Decode b = some cps)
    (hle : ∀ c ∈ cps, c ≤ 0xFF) : utf8Encode (cps.map (BitVec.ofNat 8)) = b := by
  revert hle
  refine utf8Decode_induction
    (motive := fun b cps => (∀ c ∈ cps, c ≤ 0xFF) → utf8Encode (cps.map (BitVec.ofNat 8)) = b)
    (fun _ => rfl) (fun {q c tail cps} hq ih hle => ?_) h
  obtain ⟨hc, htail⟩ := List.forall_mem_cons.1 hle
  rw [List.map_cons, utf8Encode_cons, hq.eq_utf8Char hc, ih htail]

/-- Settles O26: a decodable string is made of the encodings of its code points. -/
theorem utf8EncodeInvertsDecode : Obligations.Utf8EncodeInvertsDecode :=
  ⟨fun c => (List.append_nil _).trans (utf8Char_eq c), fun _ _ => List.flatMap_append,
    fun _ _ => utf8Encode_of_utf8Decode⟩

end Sys2Proof.Machine
end

section
/-! PROOFS. The cipher as functions of its inputs (R112, R116): the XOR pass acts on one slot for each rank, deciphering
undoes it slot by slot, and the padding comes back as trailing zeros. -/

namespace Sys2Proof.Machine

/-! ### The XOR pass (R112) -/

theorem xorPass_nil_points (v : List Byte) (pm : List Nat) : xorPass v pm [] = v := by
  rw [xorPass, List.zip_nil_right, List.foldl_nil]

theorem xorPass_cons (v : List Byte) (p c : Nat) (pm cps : List Nat) :
    xorPass v (p :: pm) (c :: cps) = xorPass (xorAt v p c) pm cps := rfl

theorem getD_xorAt_self {v : List Byte} {p : Nat} (h : p < v.length) (c : Nat) :
    (xorAt v p c).getD p 0 = BitVec.ofNat 8 c ^^^ v.getD p 0 := by
  rw [xorAt, List.getD_eq_getElem _ _ (by simpa using h), List.getElem_set_self]

theorem getD_xorAt_of_ne (v : List Byte) {p q : Nat} (h : q ≠ p) (c : Nat) :
    (xorAt v p c).getD q 0 = v.getD q 0 := by
  rw [xorAt, List.getD_eq_getElem?_getD, List.getElem?_set_ne h.symm, List.getD_eq_getElem?_getD]

theorem getD_xorPass_of_notMem {pm : List Nat} {q : Nat} (h : q ∉ pm) (v : List Byte) (cps : List Nat) :
    (xorPass v pm cps).getD q 0 = v.getD q 0 := by
  induction pm generalizing v cps with
  | nil => rfl
  | cons p pm ih =>
    obtain ⟨hne, hmem⟩ := not_or.1 (mt List.mem_cons.2 h)
    cases cps with
    | nil => rw [xorPass_nil_points]
    | cons c cps => rw [xorPass_cons, ih hmem, getD_xorAt_of_ne v hne]

/-- Each rank acts on its own slot only, and the pass ends with the last code point. -/
theorem getD_xorPass {pm : List Nat} (hnodup : pm.Nodup) {v : List Byte} (hpm : ∀ p ∈ pm, p < v.length)
    (cps : List Nat) {r p : Nat} (hr : pm[r]? = some p) :
    (xorPass v pm cps).getD p 0 =
      if r < cps.length then BitVec.ofNat 8 (cps.getD r 0) ^^^ v.getD p 0 else v.getD p 0 := by
  induction pm generalizing v cps r with
  | nil => cases hr
  | cons p₀ pm ih =>
    obtain ⟨hfresh, hnodup⟩ := List.nodup_cons.1 hnodup
    obtain ⟨hp₀, hpm⟩ := List.forall_mem_cons.1 hpm
    cases cps with
    | nil => rw [xorPass_nil_points, List.length_nil, if_neg (Nat.not_lt_zero r)]
    | cons c cps =>
      rw [xorPass_cons]
      cases r with
      | zero =>
        cases hr
        rw [getD_xorPass_of_notMem hfresh, getD_xorAt_self hp₀, List.length_cons,
          if_pos (Nat.succ_pos _), List.getD_cons_zero]
      | succ r =>
        have hmem : p ∈ pm := List.mem_of_getElem? hr
        have hne : p ≠ p₀ := ne_of_mem_of_not_mem hmem hfresh
        rw [ih hnodup (by simpa using hpm) cps hr, getD_xorAt_of_ne v hne]
        simp only [List.length_cons, Nat.add_lt_add_iff_right, List.getD_cons_succ]

/-! ### Enciphering (R112) -/

/-- R121: there is always a padding rank. -/
theorem lt_outputSize {hs : Nat} (h : 0 < hs) (len : Nat) : len < outputSize hs len := by
  rw [outputSize, Nat.add_comm 1]
  exact Nat.lt_mul_div_succ len h

theorem outputSize_mod (hs len : Nat) : outputSize hs len % hs = 0 := Nat.mul_mod_right ..

/-- The slot of each rank. -/
theorem getD_encipher (cps : List Nat) (len : Nat) (hv : List Byte) {r pos : Nat}
    (h : (permutation hv (outputSize hv.length len))[r]? = some pos) :
    (encipher cps len hv).bytes.getD pos 0 =
      if r < cps.length then BitVec.ofNat 8 (cps.getD r 0) ^^^ tiledValue hv pos else tiledValue hv pos := by
  have hpos : pos < outputSize hv.length len := lt_of_mem_permutation (List.mem_of_getElem? h)
  have hslot := getD_xorPass (v := tile hv (outputSize hv.length len)) (nodup_permutation ..)
    (fun p hp => by simpa using lt_of_mem_permutation hp) cps h
  rwa [getD_tile hv hpos] at hslot

/-- Settles O29: the XOR pass over the tile, rank by rank. -/
theorem encipherFillsSlotsByRank : Obligations.EncipherFillsSlotsByRank := by
  intro cps len hv hne hlen
  have hfits := lt_outputSize (List.length_pos_of_ne_nil hne) len
  exact ⟨hlen.trans_lt hfits, fun r _ pos h => getD_encipher cps len hv h⟩

/-! ### Deciphering (R116) -/

theorem stripNuls_eq (dv : List Byte) : stripNuls dv = (dv.reverse.dropWhile (· == 0)).reverse := rfl

/-- The value of each rank before the zeros are stripped: the slot at its position xor the tile value there. -/
def rankValues (d hv : List Byte) : List Byte :=
  (permutation hv d.length).map fun pos => d.getD pos 0 ^^^ tiledValue hv pos

theorem length_rankValues (d hv : List Byte) : (rankValues d hv).length = d.length := by
  rw [rankValues, List.length_map, length_permutation]

theorem getD_rankValues {d hv : List Byte} {r pos : Nat} (h : (permutation hv d.length)[r]? = some pos) :
    (rankValues d hv).getD r 0 = d.getD pos 0 ^^^ tiledValue hv pos := by
  rw [rankValues, List.getD_eq_getElem?_getD, List.getElem?_map, h]
  rfl

theorem decipher_bytes {d hv : List Byte} (hne : hv ≠ []) (h : d.length % hv.length = 0) :
    (decipher d hv).bytes = stripNuls (rankValues d hv) := by
  have hsize := mul_ceilDiv_of_mod_eq_zero (List.length_pos_of_ne_nil hne) h
  simp only [decipher, rankValues, hsize]
  congr 1
  exact List.map_congr_left fun pos hpos => by rw [getD_tile hv (lt_of_mem_permutation hpos)]

theorem exists_position (hv : List Byte) {n r : Nat} (h : r < n) : ∃ pos, (permutation hv n)[r]? = some pos :=
  ⟨_, List.getElem?_eq_getElem (by rwa [length_permutation])⟩

/-- Settles O60: the values of the ranks, whose trailing zeros are stripped. -/
theorem decipherReadsSlotsByRank : Obligations.DecipherReadsSlotsByRank := by
  intro d hv hne hmod
  have hpos := List.length_pos_of_ne_nil hne
  refine ⟨decipher_size hpos hmod, decipher_perm hpos hmod, rankValues d hv, length_rankValues d hv,
    fun r hr => ?_, decipher_bytes hne hmod⟩
  obtain ⟨pos, hr⟩ := exists_position hv hr
  exact ⟨pos, hr, getD_rankValues hr⟩

/-! ### The round trip (R119) -/

theorem stripNuls_append_zeros (l : List Byte) (k : Nat) : stripNuls (l ++ List.replicate k 0) = stripNuls l := by
  rw [stripNuls_eq, List.reverse_append, List.reverse_replicate,
    List.dropWhile_append_of_pos (by simp [List.mem_replicate]), stripNuls_eq]

/-- The ranks of an enciphered text hold its code points, and the padding ranks hold 0. -/
theorem rankValues_encipher {cps : List Nat} {len : Nat} (hv : List Byte)
    (hlen : cps.length ≤ outputSize hv.length len) :
    rankValues (encipher cps len hv).bytes hv =
      cps.map (BitVec.ofNat 8) ++ List.replicate (outputSize hv.length len - cps.length) 0 := by
  refine List.ext_getElem (by simp [length_rankValues, hlen]) fun r hr hr' => ?_
  rw [← List.getD_eq_getElem _ 0 hr, ← List.getD_eq_getElem _ 0 hr']
  rw [length_rankValues, length_encipher_bytes] at hr
  obtain ⟨pos, hpos⟩ := exists_position hv hr
  rw [getD_rankValues (by rwa [length_encipher_bytes]), getD_encipher cps len hv hpos]
  split_ifs with hcps
  · rw [BitVec.xor_assoc, BitVec.xor_self, BitVec.xor_zero, List.getD_append _ _ _ _ (by simpa using hcps)]
    exact (List.getD_map ..).symm
  · rw [List.getD_append_right _ _ _ _ (by simpa using hcps), List.getD_eq_getElem?_getD,
      List.getElem?_getD_replicate_default_eq]
    exact BitVec.xor_self

/-- R119: deciphering with the same hash vector gives the code points without their trailing zeros. -/
theorem decipher_encipher {cps : List Nat} {len : Nat} {hv : List Byte} (hne : hv ≠ []) (hlen : cps.length ≤ len) :
    (decipher (encipher cps len hv).bytes hv).bytes = stripNuls (cps.map (BitVec.ofNat 8)) := by
  have hfits := lt_outputSize (List.length_pos_of_ne_nil hne) len
  rw [decipher_bytes hne (by rw [length_encipher_bytes, outputSize_mod]),
    rankValues_encipher hv (hlen.trans hfits.le), stripNuls_append_zeros]

/-- Settles O30: the slots decipher to the code points and to zeros at the padding ranks. -/
theorem decipherInvertsEncipher : Obligations.DecipherInvertsEncipher :=
  fun _ _ _ hne hlen _ => decipher_encipher hne hlen

end Sys2Proof.Machine
end

section
/-! PROOFS. ENCRYPT and DECRYPT (R117 to R120, R123): the checks that pass leave the cipher's results in place, and what
ENCRYPT renders DECRYPT reads back. -/

namespace Sys2Proof.Machine

/-! ### What both commands leave on success (R117, R118) -/

/-- The command ends well with `out` in OUT_BUF and OUT_LEN and the permutation of length `n` in PERM and PERM_LEN,
and changes nothing else. -/
def LeavesCipher (s t : State) (out : List Byte) (n : Nat) : Prop :=
  endsWell s t ∧ t.outLen.toNat = out.length ∧ outBytes t out.length = out ∧ t.permLen.toNat = n ∧
    (∀ r < n, (permEntry t r).toNat = (permutation (hashVector s) n).getD r 0) ∧
    sameBytes (fun a => ¬ (outBase ≤ a ∧ a < outBase + out.length) ∧
      ¬ (permBase ≤ a ∧ a < permBase + 4 * n ∧ (a - permBase) % 4 < 2)) s t ∧
    sameControl s t ∧ sameHash s t

theorem outBytes_storePermutation (pm : List Nat) (n : Nat) (s : State) {len : Nat} (h : outBase + len ≤ permBase) :
    outBytes (storePermutation pm n s) len = outBytes s len :=
  outBytes_congr fun _ hk => readByte_storePermutation_of_lt pm n s (by omega)

theorem outBytes_storeOutput (bs : List Byte) (s : State) : outBytes (storeOutput bs s) bs.length = bs := by
  refine List.ext_getElem (length_outBytes _ _) fun k _ hk => ?_
  rw [← List.getD_eq_getElem bs 0 hk, ← outByte_setOut bs { s with outLen := BitVec.ofNat 32 bs.length } hk]
  simp [outBytes, storeOutput]

theorem cipher_apply (out : List Byte) (pm : List Nat) (s : State) :
    (Effect.cipher out pm).apply s = complete (storePermutation pm pm.length (storeOutput out s)) := rfl

/-- A cipher effect within the depths is stored without loss. -/
theorem leavesCipher_apply {s : State} {out : List Byte} {n : Nat} (hlegal : s.params.Legal)
    (hn : n ≤ s.params.permDepth) (hout : out.length ≤ s.params.outDepth) :
    LeavesCipher s ((Effect.cipher out (permutation (hashVector s) n)).apply s) out n := by
  obtain ⟨-, ⟨-, hdepth⟩, -, hperm⟩ := hlegal
  have hfits : outBase + out.length ≤ permBase := by
    have hgap : permBase = outBase + 131072 := rfl
    omega
  have hlen := length_permutation (hashVector s) n
  have hcontrol := Effect.apply_sameControl (.cipher out (permutation (hashVector s) n)) s
  rw [cipher_apply, hlen] at hcontrol ⊢
  refine ⟨⟨rfl, rfl⟩, toNat_ofNat_of_lt (by omega), ?_, toNat_ofNat_of_lt (by omega), fun r hr => ?_, fun a ha => ?_,
    hcontrol, ⟨rfl, rfl⟩⟩
  · exact (outBytes_storePermutation _ n _ hfits).trans (outBytes_storeOutput out s)
  · have hlt := getD_permutation_lt (hashVector s) hr
    have hentry := permEntry_storePermutation (hashVector s) hr (storeOutput out s)
    exact (congrArg BitVec.toNat hentry).trans (toNat_ofNat_of_lt (by omega))
  · obtain ⟨houtside, hperm⟩ := ha
    refine (readByte_setPerm _ _ a).trans ((if_neg (by rwa [hlen])).trans ?_)
    exact readByte_storeOutput_of_outside out s (by omega)

/-! ### ENCRYPT (R117) -/

/-- R117: when all its checks pass, ENCRYPT leaves the rendering of the enciphered text. -/
theorem exec_encrypt_leavesCipher {s : State} {cps : List Nat} {n : Nat} (hlegal : s.params.Legal)
    (hsize : 0 < s.hvSize.toNat) (hlen : s.inLen.toNat ≤ s.params.inDepth)
    (hdecode : utf8Decode (inBytes s s.inLen.toNat) = some cps) (hrange : ∀ c ∈ cps, c ≤ 0xFF)
    (hn : n = outputSize s.hvSize.toNat s.inLen.toNat) (hperm : n ≤ s.params.permDepth)
    (hout : 2 * n ≤ s.params.outDepth) :
    ∃ t, exec .encrypt s = .next t ∧
      LeavesCipher s t (hexStr (encipher cps s.inLen.toNat (hashVector s)).bytes) n := by
  have hvec : (hashVector s).length = s.hvSize.toNat := length_hashVector s
  have htext : (inputBytes s).length = s.inLen.toNat := length_inputBytes s
  have hpoints : ¬ ∃ c ∈ cps, 0xFF < c := fun ⟨c, hc, hlt⟩ => absurd (hrange c hc) (Nat.not_le.2 hlt)
  have heffect : effect .encrypt s = .cipher (hexStr (encipher cps s.inLen.toNat (hashVector s)).bytes)
      (permutation (hashVector s) n) := by
    have hdecode' : utf8Decode (inputBytes s) = some cps := hdecode
    simp only [effect, encryptEffect, hdecode', encryptPointsEffect, hvec, htext, encipher_perm, ← hn]
    rw [if_neg (by omega), if_neg (by omega), if_neg hpoints, if_neg (by omega)]
  refine ⟨_, exec_eq_effect .encrypt s, ?_⟩
  rw [heffect]
  refine leavesCipher_apply hlegal hperm ?_
  rwa [length_hexStr, length_encipher_bytes, hvec, ← hn]

/-- Settles O13: the rendering of `n` slots has `2 * n` characters. -/
theorem encryptWritesCiphertext : Obligations.EncryptWritesCiphertext := by
  intro s cps n hlegal hsize hlen hdecode hrange hn hperm hout
  obtain ⟨t, hexec, hleaves⟩ := exec_encrypt_leavesCipher hlegal hsize hlen hdecode hrange hn hperm hout
  have hchars : (hexStr (encipher cps s.inLen.toNat (hashVector s)).bytes).length = 2 * n := by
    rw [length_hexStr, length_encipher_bytes, length_hashVector, hn]
    rfl
  rw [LeavesCipher, hchars] at hleaves
  exact ⟨t, hexec, hleaves⟩

/-- Settles O33: an ENCRYPT without error passed the checks of R117, and stored the rendering of all slots. -/
theorem encryptLengthRelation : Obligations.EncryptLengthRelation := by
  intro s t hlegal h hok
  rcases execEncrypt_cases h with ⟨-, rfl⟩ | ⟨-, -, rfl⟩ | ⟨-, -, -, rfl⟩ | ⟨hhs, hlen, cps, hdecode, hpoints⟩
  · cases hok
  · cases hok
  · cases hok
  · rcases encryptPoints_cases hpoints with ⟨-, rfl⟩ | ⟨-, -, rfl⟩ | ⟨hrange, hperm, hout, -⟩
    · cases hok
    · cases hok
    · obtain ⟨t', hexec, -, houtLen, -⟩ := exec_encrypt_leavesCipher hlegal (Nat.pos_of_ne_zero hhs)
        (Nat.not_lt.1 (of_decide_eq_false hlen)) hdecode hrange rfl hperm hout
      obtain rfl := Host.Outcome.next.inj (h.symm.trans hexec)
      rw [houtLen, length_hexStr, length_encipher_bytes, length_hashVector, Nat.mul_assoc]
      rfl

/-! ### DECRYPT (R118) -/

/-- R118: when all its checks pass, DECRYPT leaves the encoding of the deciphered text. -/
theorem exec_decrypt_leavesCipher {s : State} {d : List Byte} (hlegal : s.params.Legal) (hsize : 0 < s.hvSize.toNat)
    (hlen : s.inLen.toNat ≤ s.params.inDepth) (hpos : 0 < d.length) (heven : s.inLen.toNat = 2 * d.length)
    (hhex : allHex (inBytes s s.inLen.toNat) = true) (hd : d = hexDecode (inBytes s s.inLen.toNat))
    (hmod : d.length % s.hvSize.toNat = 0) (hperm : d.length ≤ s.params.permDepth)
    (hout : (utf8Encode (decipher d (hashVector s)).bytes).length ≤ s.params.outDepth) :
    ∃ t, exec .decrypt s = .next t ∧
      LeavesCipher s t (utf8Encode (decipher d (hashVector s)).bytes) d.length := by
  have hvec : (hashVector s).length = s.hvSize.toNat := length_hashVector s
  have htext : (inputBytes s).length = s.inLen.toNat := length_inputBytes s
  have heffect : effect .decrypt s =
      .cipher (utf8Encode (decipher d (hashVector s)).bytes) (permutation (hashVector s) d.length) := by
    have hhex' : allHex (inputBytes s) = true := hhex
    have hd' : hexDecode (inputBytes s) = d := hd.symm
    simp only [effect, decryptEffect, decryptBytesEffect, hd', hvec, htext, hhex']
    rw [if_neg (by omega), if_neg (by omega), if_neg (by omega), if_neg (by decide), if_neg (by omega),
      if_neg (by omega), if_neg (by omega), decipher_perm (by omega) (by rwa [hvec])]
  refine ⟨_, exec_eq_effect .decrypt s, ?_⟩
  rw [heffect]
  exact leavesCipher_apply hlegal hperm hout

/-- Settles O14: two characters stand for each of the `n` slots. -/
theorem decryptWritesPlaintext : Obligations.DecryptWritesPlaintext := by
  intro s n out hlegal hsize hlen hpos heven hhex hmod hperm hout hdepth
  subst hout
  have hcount : (hexDecode (inBytes s s.inLen.toNat)).length = n := by
    rw [length_hexDecode, length_inBytes, heven, Nat.mul_div_cancel_left n two_pos]
  subst hcount
  exact exec_decrypt_leavesCipher hlegal hsize hlen hpos heven hhex rfl hmod hperm hdepth

/-! ### The round trip (R119, R123) -/

/-- `s2` is ready for the DECRYPT of what an ENCRYPT in `s` with end `t` left: its output is copied into IN_BUF, with
the same HV. -/
structure CopiesOutput (s t s2 : State) : Prop where
  params : s2.params = s.params
  hv : s2.hv = s.hv
  hvSize : s2.hvSize = s.hvSize
  inLen : s2.inLen = t.outLen
  bytes : inBytes s2 t.outLen.toNat = outBytes t t.outLen.toNat

theorem CopiesOutput.hashVector_eq {s t s2 : State} (h : CopiesOutput s t s2) : hashVector s2 = hashVector s := by
  rw [hashVector, hashVector, hashSize, hashSize, h.hv, h.hvSize]

/-- DECRYPT reads back the code points that ENCRYPT rendered, without their trailing zeros. -/
theorem exec_decrypt_of_copiesOutput {s t s2 : State} {cps : List Nat} {n : Nat} (hlegal : s.params.Legal)
    (hsize : 0 < s.hvSize.toNat) (hcps : cps.length ≤ s.inLen.toNat)
    (hn : n = outputSize s.hvSize.toNat s.inLen.toNat) (hperm : n ≤ s.params.permDepth)
    (hin : 2 * n ≤ s.params.inDepth)
    (hout : (utf8Encode (stripNuls (cps.map (BitVec.ofNat 8)))).length ≤ s.params.outDepth)
    (ht : LeavesCipher s t (hexStr (encipher cps s.inLen.toNat (hashVector s)).bytes) n)
    (hcopy : CopiesOutput s t s2) :
    ∃ u, exec .decrypt s2 = .next u ∧ LeavesCipher s2 u (utf8Encode (stripNuls (cps.map (BitVec.ofNat 8)))) n := by
  obtain ⟨-, houtLen, houtBytes, -⟩ := ht
  have hvec : (hashVector s).length = s.hvSize.toNat := length_hashVector s
  have hne : hashVector s ≠ [] := List.ne_nil_of_length_pos (by omega)
  have hslots : (encipher cps s.inLen.toNat (hashVector s)).bytes.length = n := by
    rw [length_encipher_bytes, hvec, hn]
  have hpos : s.inLen.toNat < n := hn ▸ lt_outputSize hsize _
  have hmod : n % s.hvSize.toNat = 0 := hn ▸ outputSize_mod ..
  have hinLen : s2.inLen.toNat = 2 * n := by rw [hcopy.inLen, houtLen, length_hexStr, hslots]
  have hbytes : inBytes s2 s2.inLen.toNat = hexStr (encipher cps s.inLen.toNat (hashVector s)).bytes := by
    rw [hcopy.inLen, hcopy.bytes, houtLen, houtBytes]
  have hplain := decipher_encipher (cps := cps) hne hcps
  have hdecrypt := exec_decrypt_leavesCipher (s := s2) (d := (encipher cps s.inLen.toNat (hashVector s)).bytes)
  rw [hcopy.hashVector_eq, hcopy.params, hcopy.hvSize, hslots, hplain, hbytes] at hdecrypt
  exact hdecrypt hlegal hsize (by omega) (by omega) hinLen (allHex_hexStr _) (hexDecode_hexStr _).symm hmod hperm hout

theorem stripNuls_eq_self {dv : List Byte} (h : dv.getLast? ≠ some 0) : stripNuls dv = dv :=
  List.rdropWhile_eq_self_iff.2 fun hne hlast => h (by
    rw [List.getLast?_eq_some_getLast hne, eq_of_beq hlast])

/-- A text whose last code point is not 0 loses none of them. -/
theorem stripNuls_points {cps : List Nat} (hrange : ∀ c ∈ cps, c ≤ 0xFF) (hlast : cps.getLast? ≠ some 0) :
    stripNuls (cps.map (BitVec.ofNat 8)) = cps.map (BitVec.ofNat 8) := by
  refine stripNuls_eq_self fun hzero => hlast ?_
  rw [List.getLast?_map, Option.map_eq_some_iff] at hzero
  obtain ⟨c, hc, hzero⟩ := hzero
  have hle := hrange c (List.mem_of_getLast? hc)
  have hval : (BitVec.ofNat 8 c).toNat = c := toNat_ofNat_of_lt (by omega)
  rw [hzero] at hval
  rw [hc, ← hval]
  rfl

/-- Settles O31: DECRYPT gives the code points of the text, and their encoding is the text. -/
theorem encryptThenDecryptGivesTextBack : Obligations.EncryptThenDecryptGivesTextBack := by
  intro s cps n hlegal hsize hdecode hrange hlast hn hlen hperm hout hin
  obtain ⟨t, hexec, ht⟩ := exec_encrypt_leavesCipher hlegal hsize hlen hdecode hrange hn hperm hout
  have hcps : cps.length ≤ s.inLen.toNat := by
    simpa using (utf8DecodeYieldsScalarValues _ _ hdecode).1
  have htext : utf8Encode (stripNuls (cps.map (BitVec.ofNat 8))) = inBytes s s.inLen.toNat := by
    rw [stripNuls_points hrange hlast, utf8Encode_of_utf8Decode hdecode hrange]
  have hshort : s.inLen.toNat < n := hn ▸ lt_outputSize hsize _
  refine ⟨t, hexec, by rw [ht.1.1], fun s2 hp hhv hhs hlen2 hbytes => ?_⟩
  obtain ⟨u, hu, ⟨hstatus, -⟩, houtLen, houtBytes, -⟩ := exec_decrypt_of_copiesOutput hlegal hsize hcps hn hperm hin
    (by rw [htext, length_inBytes]; omega) ht ⟨hp, hhv, hhs, hlen2, hbytes⟩
  rw [htext, length_inBytes] at houtLen houtBytes
  exact ⟨u, hu, by rw [hstatus], BitVec.eq_of_toNat_eq houtLen, houtBytes⟩

theorem tile_length_self (hv : List Byte) : tile hv hv.length = hv := by
  refine List.ext_getElem (length_tile ..) fun p hp hp' => ?_
  rw [getElem_tile, Nat.mod_eq_of_lt hp', List.getD_eq_getElem _ _ hp']

/-- R123: the empty text leaves the tile of one hash vector as it is. -/
theorem encipher_empty (hv : List Byte) : (encipher [] 0 hv).bytes = hv := by
  rw [encipher, xorPass_nil_points, outputSize, Nat.zero_div, Nat.mul_one, tile_length_self]

/-- Settles O32: with no code points only the tile is rendered, and all its ranks decipher to zeros. -/
theorem emptyTextRoundTrip : Obligations.EmptyTextRoundTrip := by
  intro s hlegal hsize hempty hperm
  have hlen : s.inLen.toNat = 0 := by rw [hempty]; rfl
  have hn : s.hvSize.toNat = outputSize s.hvSize.toNat s.inLen.toNat := by
    rw [hlen, outputSize, Nat.zero_div, Nat.mul_one]
  have hdecode : utf8Decode (inBytes s s.inLen.toNat) = some [] := by rw [hlen]; rfl
  have hout : 2 * s.hvSize.toNat ≤ s.params.outDepth := by
    obtain ⟨-, ⟨hdepth, -⟩, -⟩ := hlegal
    have hbyte := s.hvSize.isLt
    omega
  obtain ⟨t, hexec, ht⟩ := exec_encrypt_leavesCipher hlegal hsize (by omega) hdecode (by simp) hn hperm hout
  have ht' := ht
  rw [hlen, encipher_empty] at ht'
  obtain ⟨⟨hstatus, -⟩, houtLen, houtBytes, -⟩ := ht'
  rw [length_hexStr_hashVector] at houtLen houtBytes
  refine ⟨t, hexec, by rw [hstatus], houtLen, houtBytes, fun s2 hp hhv hhs hlen2 hin hbytes => ?_⟩
  obtain ⟨u, hu, ⟨hstatus, -⟩, houtLen, -⟩ := exec_decrypt_of_copiesOutput hlegal hsize (Nat.zero_le _) hn hperm hin
    (Nat.zero_le _) ht ⟨hp, hhv, hhs, hlen2, hbytes⟩
  exact ⟨u, hu, by rw [hstatus], BitVec.eq_of_toNat_eq houtLen⟩

end Sys2Proof.Machine
end

section
/-! PROOFS. How a completion step ends (R128 to R131): the error code is that of the first check that fails, because the
code of each command's effect is the chain of its checks; every effect leaves the engine idle with a legal STATUS; and
an error stores what its column of R45 says. -/

namespace Sys2Proof.Machine

/-! ### The flags after a completion step (R128 to R130) -/

/-- The error code that an effect reports, 0 when it ends with `complete()` (R126). -/
def Effect.code : Effect → BitVec 4
  | .fail _ c => errorBits c
  | _ => 0

@[simp] theorem Effect.apply_errCode (e : Effect) (s : State) : (e.apply s).status.errCode = e.code := by
  cases e <;> rfl

@[simp] theorem Effect.apply_busy (e : Effect) (s : State) : (e.apply s).status.busy = false := by
  cases e <;> rfl

@[simp] theorem Effect.apply_done (e : Effect) (s : State) : (e.apply s).status.done = true := by
  cases e <;> rfl

@[simp] theorem Effect.apply_irqDone (e : Effect) (s : State) : (e.apply s).irqDone = true := by
  cases e <;> rfl

theorem errorBits_ne_zero (c : ErrorCode) : errorBits c ≠ 0 := by
  cases c <;> decide

/-- ERR is set exactly with a code, and only by a failing effect. -/
theorem Effect.apply_err_iff (e : Effect) (s : State) : (e.apply s).status.err = true ↔ e.code ≠ 0 := by
  cases e with
  | fail w c => exact ⟨fun _ => errorBits_ne_zero c, fun _ => rfl⟩
  | _ => exact ⟨fun h => Bool.noConfusion h, fun h => absurd rfl h⟩

theorem eq_apply_of_exec {i : Instr} {s t : State} (h : exec i s = .next t) : t = (effect i s).apply s := by
  simpa [exec_eq_effect] using h.symm

theorem exec_errCode {i : Instr} {s t : State} (h : exec i s = .next t) : t.status.errCode = (effect i s).code := by
  rw [eq_apply_of_exec h, Effect.apply_errCode]

/-- Settles O18: every meaning is an effect that is stored, and each effect leaves these flags. -/
theorem everyCommandCompletes : Obligations.EveryCommandCompletes := fun i s =>
  ⟨_, exec_eq_effect i s, Effect.apply_busy _ s, Effect.apply_done _ s, Effect.apply_irqDone _ s,
    Effect.apply_wbusy _ s, Effect.apply_legalStatus _ s⟩

/-! ### The first check that fails (R131)

The code of each effect as the chain of its checks, in the order of the pseudocode. -/

theorem completionEffect_of_illegal {s : State} {e : DecodeError} (h : decode s.cmd = .error e) :
    completionEffect s = .fail .nothing .illegalCommand := by
  rw [completionEffect, h]

theorem hashEffect_code (p : Config.Params) (text : List Byte) (size : Nat) :
    (hashEffect p text size).code = if size = 0 then 1 else if p.inDepth < text.length then 7 else 0 := by
  unfold hashEffect
  split_ifs <;> rfl

theorem permuteEffect_code (p : Config.Params) (hv : List Byte) (n : Nat) :
    (permuteEffect p hv n).code = if hv.length = 0 then 2 else if p.permDepth < n then 7 else 0 := by
  unfold permuteEffect
  split_ifs <;> rfl

theorem encryptPointsEffect_code (p : Config.Params) (cps : List Nat) (len : Nat) (hv : List Byte) :
    (encryptPointsEffect p cps len hv).code =
      if ∃ c ∈ cps, 0xFF < c then 6
      else if p.permDepth < outputSize hv.length len ∨ p.outDepth < 2 * outputSize hv.length len then 7
      else 0 := by
  unfold encryptPointsEffect
  split_ifs <;> rfl

theorem allHex_eq_false_iff (text : List Byte) : allHex text = false ↔ ∃ c ∈ text, hexVal c = none := by
  rw [← Bool.not_eq_true, allHex_iff]
  push Not
  rfl

theorem decryptEffect_code (p : Config.Params) (text hv : List Byte) :
    (decryptEffect p text hv).code =
      if hv.length = 0 then 2 else if p.inDepth < text.length then 7
      else if text.length = 0 ∨ text.length % 2 = 1 then 3
      else if ∃ c ∈ text, hexVal c = none then 3
      else if text.length / 2 % hv.length ≠ 0 then 4
      else if p.permDepth < text.length / 2 then 7
      else if p.outDepth < (utf8Encode (decipher (hexDecode text) hv).bytes).length then 7
      else 0 := by
  simp only [decryptEffect, decryptBytesEffect, length_hexDecode, allHex_eq_false_iff]
  split_ifs <;> rfl

theorem encryptEffect_code (p : Config.Params) (text hv : List Byte) :
    (encryptEffect p text hv).code =
      if hv.length = 0 then 2 else if p.inDepth < text.length then 7
      else (utf8Decode text).elim 5 fun cps => (encryptPointsEffect p cps text.length hv).code := by
  unfold encryptEffect
  split_ifs
  · rfl
  · rfl
  · cases utf8Decode text <;> rfl

/-- Settles O15: the code that a command leaves is that of its effect, the chain of its checks. -/
theorem firstFailingCheckIsReported : Obligations.FirstFailingCheckIsReported := by
  refine fun s t => ⟨fun e he h => ?_, fun size h => ?_, fun n h => ?_, fun h => ?_, fun h => ?_, exec_errCode,
    exec_errCode, fun i h => ?_⟩
  · obtain rfl : (completionEffect s).apply s = t := by simpa [completionStep_eq_effect] using h
    rw [Effect.apply_errCode, completionEffect_of_illegal he]
    rfl
  · rw [exec_errCode h, effect, hashEffect_code, length_inputBytes, inputLength]
  · simp only [exec_errCode h, effect, permuteEffect_code, length_hashVector_eq_zero_iff]
  · simp only [exec_errCode h, effect, encryptEffect_code, length_hashVector_eq_zero_iff, inputBytes, length_inBytes,
      inputLength]
    cases utf8Decode (inBytes s s.inLen.toNat) with
    | none => rfl
    | some cps => simp only [Option.elim, encryptPointsEffect_code, length_hashVector, hashSize, outputSize]
  · simp only [exec_errCode h, effect, decryptEffect_code, length_hashVector_eq_zero_iff, inputBytes, length_inBytes,
      inputLength]
    simp only [length_hashVector, hashSize]
  · rw [exec_errCode h, eq_apply_of_exec h]
    exact Effect.apply_err_iff ..

/-! ### What an error leaves (R45, R130) -/

/-- A command that ends with ERR has failed, and writes what its column says. -/
theorem effect_of_err {i : Instr} {s : State} (h : ((effect i s).apply s).status.err = true) :
    ∃ c, effect i s = .fail (errorColumn i) c := by
  cases he : effect i s with
  | fail w c => exact ⟨c, by rw [effect_fail_column he]⟩
  | _ => rw [he] at h; exact Bool.noConfusion h

/-- A failing PERMUTE leaves the free values of a fresh draw in PERM. -/
theorem readByte_raiseError_perm (c : ErrorCode) (s : State) {a : Nat} (hlo : permBase ≤ a) (hhi : a < offsetEnd) :
    readByte (raiseError .perm c s) a = Config.freeByte s.draws a := by
  have hread := readByte_unspecifyPerm { s with permLen := 0 } hhi
  rwa [if_pos hlo] at hread

/-- A failing ENCRYPT or DECRYPT leaves the free values of one fresh draw in OUT_BUF, and of the next one in PERM. -/
theorem readByte_raiseError_outAndPerm (c : ErrorCode) (s : State) {a : Nat} (hlo : outBase ≤ a)
    (hhi : a < offsetEnd) :
    readByte (raiseError .outAndPerm c s) a = Config.freeByte (if a < permBase then s.draws else s.draws + 1) a := by
  have hout := readByte_unspecifyOut { s with outLen := 0, permLen := 0 } a
  have hperm := readByte_unspecifyPerm (unspecifyOut { s with outLen := 0, permLen := 0 }) hhi
  by_cases h : a < permBase
  · rw [if_neg (Nat.not_le.2 h), hout, if_pos ⟨hlo, h⟩] at hperm
    rw [if_pos h]
    exact hperm
  · rw [if_pos (Nat.not_lt.1 h)] at hperm
    rw [if_neg h]
    exact hperm

/-- Settles O16: the frame is that of every error, and each column of R45 says which lengths and bytes go with it. -/
theorem errorsLeaveInputsAndClearLengths : Obligations.ErrorsLeaveInputsAndClearLengths := by
  intro i s t h herr
  obtain rfl := eq_apply_of_exec h
  have hcontrol := Effect.apply_sameControl (effect i s) s
  have hinput := Effect.apply_sameInput (effect i s) s
  obtain ⟨c, he⟩ := effect_of_err herr
  rw [he] at hcontrol hinput ⊢
  refine ⟨hcontrol, raiseError_sameHash .., hinput, ?_⟩
  cases i with
  | nop | hexhv => simp [effect] at he
  | hash size => exact ⟨rfl, rfl, fun _ _ => rfl⟩
  | permute n =>
    exact ⟨rfl, rfl, fun _ ha => readByte_raiseError_perm_of_lt c s ha, fun _ => readByte_raiseError_perm c s⟩
  | encrypt | decrypt =>
    have hperm : permBase < offsetEnd := by decide
    have hbase : outBase ≤ permBase := by decide
    refine ⟨rfl, rfl, fun a hlo hhi => ?_, fun a hlo hhi => ?_⟩
    · exact (readByte_raiseError_outAndPerm c s hlo (hhi.trans hperm)).trans (by rw [if_pos hhi])
    · exact (readByte_raiseError_outAndPerm c s (hbase.trans hlo) hhi).trans (by rw [if_neg (Nat.not_lt.2 hlo)])

end Sys2Proof.Machine
end

section
/-! PROOFS. The step event by event (R62, R128, R151), and what the host's writes do to the command engine: acceptance
(R127), the dropped writes of the busy window (R44, R136), and the interrupt output (R139). -/

namespace Sys2Proof.Machine

/-! ### The step by the first event (R62, log 2) -/

theorem step_of_nil {s : State} (h : s.schedule = []) : step s = engineTurn s := by
  rw [step, stepEvent, h]

theorem step_of_cons {s : State} {e : Event} {rest : List Event} (h : s.schedule = e :: rest) :
    step s = perform e { s with schedule := rest } := by
  rw [step, stepEvent, h]

/-- R128: while BUSY = 0 the engine has no completion step. -/
theorem engineTurn_of_idle {s : State} (h : s.status.busy = false) : engineTurn s = .next s := by
  simp [engineTurn, engineEnabled, h]

/-- R128: the completion step is that of the command in CMD. -/
theorem engineTurn_of_command {s : State} {i : Instr} (hr : s.rstN = true) (hb : s.status.busy = true)
    (hi : decode s.cmd = .ok i) : engineTurn s = exec i s := by
  simp [engineTurn, engineEnabled, hr, hb, completionStep, hi]

/-- R163: the engine's turn always answers a next state. -/
theorem exists_engineTurn (s : State) : ∃ t, engineTurn s = .next t := by
  unfold engineTurn
  split_ifs
  · exact ⟨_, completionStep_eq_effect s⟩
  · exact ⟨s, rfl⟩

/-- R137: a transaction is performed, or it is a bus error. -/
theorem busStep_next_or_fault (x : Transaction) (s : State) :
    (∃ t, busStep x s = .next t) ∨ busStep x s = .fault (.busError (transactionOffset x) (transactionSize x)) ∨
      busStep x s = .fault (.busErrorInReset (transactionOffset x) (transactionSize x)) := by
  unfold busStep
  split_ifs
  · exact .inr (.inr rfl)
  · cases accessRow s.params (transactionOffset x).toNat (transactionSize x) with
    | none => exact .inr (.inl rfl)
    | some row => exact .inl ⟨_, rfl⟩

/-- Settles O56: of the events only a transaction can stop, and it stops with one of the two bus errors. -/
theorem onlyBusErrorsStopTheMachine : Obligations.OnlyBusErrorsStopTheMachine := by
  intro s
  cases hs : s.schedule with
  | nil => exact .inl (step_of_nil hs ▸ exists_engineTurn s)
  | cons e rest =>
    rw [step_of_cons hs]
    cases e with
    | bus x =>
      obtain hnext | hfault := busStep_next_or_fault x { s with schedule := rest }
      · exact .inl hnext
      · exact .inr ⟨x, rest, rfl, hfault⟩
    | engine => exact .inl (exists_engineTurn _)
    | resetLow | resetHigh => exact .inl ⟨_, rfl⟩

/-- Settles O6: the step by its first event. -/
theorem stepRunsDecodedCommand : Obligations.StepRunsDecodedCommand :=
  ⟨fun _ _ hr hb hi => ⟨fun hs => (step_of_nil hs).trans (engineTurn_of_command hr hb hi),
      fun _ hs => (step_of_cons hs).trans (engineTurn_of_command hr hb hi)⟩,
    fun _ _ _ hs => step_of_cons hs, fun _ _ hs => step_of_cons hs⟩

/-- Settles O8: the engine's turn while BUSY = 0, on its own and as an event. -/
theorem engineIdleWithoutBusy : Obligations.EngineIdleWithoutBusy := fun _ hb =>
  ⟨fun hs => (step_of_nil hs).trans (engineTurn_of_idle hb),
    fun _ hs => (step_of_cons hs).trans (engineTurn_of_idle hb)⟩

/-! ### Acceptance and the busy window (R44, R127) -/

theorem guardedWrite_of_busy {s : State} (h : s.status.busy = true) (f : State → State) :
    guardedWrite f s = dropWrite s := by
  simp [guardedWrite, h]

/-- Settles O43: the write is accepted, and these are the fields that acceptance sets. -/
theorem commandWriteIsAccepted : Obligations.CommandWriteIsAccepted :=
  fun _ w hr hb => busStep_write_cmd hr hb w

theorem writeReg_of_busy {r : Reg} (h : r = .cmd ∨ r = .inLen ∨ r = .hvSize) {s : State}
    (hb : s.status.busy = true) (v : Word) : writeReg r v s = dropWrite s := by
  obtain rfl | rfl | rfl := h <;> simp only [writeReg, guardedWrite_of_busy hb]

/-- The write targets of R44 are guarded in whichever region they lie. -/
theorem performWrite_of_isBusyWriteTarget {s : State} {g : Region} {a : Nat} (hg : g.spans s.params a)
    (h : isBusyWriteTarget a) (hb : s.status.busy = true) (n : Nat) (v : Word) :
    performWrite g a n v s = dropWrite s := by
  unfold isBusyWriteTarget at h
  cases g <;> simp only [Region.spans] at hg
  case registers =>
    obtain rfl | rfl | rfl : a = 0x008 ∨ a = 0x010 ∨ a = 0x018 := by omega
    · exact writeReg_of_busy (.inl rfl) hb v
    · exact writeReg_of_busy (.inr (.inl rfl)) hb v
    · exact writeReg_of_busy (.inr (.inr rfl)) hb v
  case hv | inBuf => exact guardedWrite_of_busy hb _
  all_goals omega

/-- Settles O45: an accepted write of a guarded target is dropped. -/
theorem busyWindowDropsWrites : Obligations.BusyWindowDropsWrites := by
  intro s off n v _ hr hb hacc htarget
  obtain ⟨row, hrow⟩ := accessRow_of_isAccepted hacc
  have hdrop := performWrite_of_isBusyWriteTarget (spans_of_accessRow hrow) htarget hb n v
  simp [busStep, hr, hrow, performTransaction, hdrop, dropWrite, droppedStatus]

/-! ### The interrupt output (R139) -/

theorem irq_iff (s : State) : irq s = true ↔ (s.irqEn = true ∧ s.irqDone = true) := by
  rw [irq, Bool.and_eq_true]

/-- A completion sets IRQ_STATUS.DONE, so `irq` is then the enable. -/
theorem Effect.irq_apply (e : Effect) (s : State) : irq (e.apply s) = s.irqEn := by
  obtain ⟨-, -, hen, -⟩ := e.apply_sameControl s
  rw [irq, hen, e.apply_irqDone, Bool.and_true]

/-- Settles O50: a completion by its effect, the writes by the rules of IRQ_EN and IRQ_STATUS. -/
theorem irqFollowsEnableAndDone : Obligations.IrqFollowsEnableAndDone := by
  refine ⟨irq_iff, fun s t h => ?_, fun s hr hdone => ?_, fun s hr => ?_⟩
  · obtain rfl : (completionEffect s).apply s = t := by simpa [completionStep_eq_effect] using h
    exact ⟨Effect.apply_irqDone _ s, Effect.irq_apply _ s⟩
  · exact ⟨_, busStep_write_reg hr .irqEn 1, (irq_iff _).2 ⟨rfl, hdone⟩⟩
  · exact ⟨_, busStep_write_reg hr .irqStatus 1, by simp [irq, writeReg, writtenIrqDone]⟩

end Sys2Proof.Machine
end

section
/-! PROOFS. Reset and hazards: reset abandons what was running (R151), only a busy-window write of the host sets
WBUSY (R156, R158), and an accepted command completes once the host's transactions are performed (R163). -/

namespace Sys2Proof.Machine

/-! ### Reset (R151) -/

theorem holdsReset_assertReset (s : State) : holdsReset (assertReset s) :=
  ⟨rfl, rfl, rfl, rfl, rfl, rfl, rfl, rfl, rfl, rfl⟩

/-- Releasing reset changes the level of `rst_n` only. -/
theorem holdsReset_releaseReset {s : State} (h : holdsReset s) : holdsReset (releaseReset s) := h

/-- Nothing is stored, and the three buffers share one fresh draw. -/
theorem readByte_assertReset (s : State) (a : Nat) : readByte (assertReset s) a = Config.freeByte s.draws a := by
  simp [readByte, drawAt]

/-- R151: while `rst_n` is low every transaction is a bus error. -/
theorem busStep_of_rstN_low {s : State} (h : s.rstN = false) (x : Transaction) :
    busStep x s = .fault (.busErrorInReset (transactionOffset x) (transactionSize x)) := by
  rw [busStep, if_pos h]

/-- Settles O52: the reset state has BUSY = 0, so the engine has no step; when reset is released it takes a CMD
write. -/
theorem resetAbandonsTheCommand : Obligations.ResetAbandonsTheCommand := by
  intro s rest hs
  have hheld := holdsReset_assertReset { s with schedule := rest }
  exact ⟨_, step_of_cons hs, hheld, rfl, rfl, rfl, engineTurn_of_idle rfl, busStep_of_rstN_low rfl,
    readByte_assertReset _, _, rfl, holdsReset_releaseReset hheld, rfl,
    fun w => ⟨_, busStep_write_cmd rfl rfl w, rfl, rfl⟩⟩

/-! ### Only a busy-window write sets WBUSY (R44, R156, R158) -/

/-- Where WBUSY comes from: it was set before, or the write of a guarded register was dropped. -/
theorem writeReg_wbusy_origin {r : Reg} {v : Word} {s : State} (h : (writeReg r v s).status.wbusy = true) :
    s.status.wbusy = true ∨ (s.status.busy = true ∧ (r = .cmd ∨ r = .inLen ∨ r = .hvSize)) := by
  rcases writeReg_cases r v s with
    ⟨hb, hr, -⟩ | ⟨-, -, h'⟩ | ⟨-, -, h'⟩ | ⟨-, -, h'⟩ | ⟨-, h'⟩ | ⟨-, h'⟩ | ⟨-, h'⟩ | h'
  case inl => exact .inr ⟨hb, hr⟩
  case inr.inr.inr.inr.inl =>
    rw [h', writtenStatus_wbusy] at h
    exact .inl (Bool.and_elim_left h)
  all_goals exact .inl (by rwa [h'] at h)

/-- The guarded registers are write targets of R44. -/
theorem isBusyWriteTarget_of_regAt {a : Nat} {r : Reg} (h4 : a % 4 = 0) (ha : a < 0x40) (hreg : regAt a = some r)
    (hr : r = .cmd ∨ r = .inLen ∨ r = .hvSize) : isBusyWriteTarget a := by
  obtain ⟨hcmd, -, hin, -, hhv, -⟩ := regAt_offset h4 ha hreg
  rcases hr with h | h | h
  · exact .inl (hcmd.1 h)
  · exact .inr (.inl (hin.1 h))
  · exact .inr (.inr (.inl (hhv.1 h)))

/-- Where WBUSY comes from: it was set before, or a write target of R44 was written while BUSY = 1. -/
theorem performWrite_wbusy_origin {g : Region} {p : Config.Params} {a n : Nat} {v : Word} {s : State}
    (hp : p.Legal) (hg : g.spans p a) (h4 : g = .registers → a % 4 = 0)
    (h : (performWrite g a n v s).status.wbusy = true) :
    s.status.wbusy = true ∨ (s.status.busy = true ∧ isBusyWriteTarget a) := by
  rcases performWrite_cases g a n v s with
    ⟨hb, hguarded, -⟩ | ⟨-, -, h'⟩ | ⟨-, -, h'⟩ | ⟨rfl, r, hreg, h'⟩ | h'
  case inl =>
    refine .inr ⟨hb, ?_⟩
    unfold isBusyWriteTarget
    obtain rfl | rfl := hguarded <;> simp only [Region.spans] at hg <;> omega
  case inr.inr.inr.inl =>
    rw [h'] at h
    exact (writeReg_wbusy_origin h).imp_right fun ⟨hb, hr⟩ =>
      ⟨hb, isBusyWriteTarget_of_regAt (h4 rfl) hg hreg hr⟩
  all_goals exact .inl (by rwa [h'] at h)

/-- The registers take aligned 4-byte accesses only (R54, R55). -/
theorem mod_four_of_registers_access {p : Config.Params} {a n : Nat} {row : MapRow}
    (h : accessRow p a n = some row) (hg : row.region = .registers) : a % 4 = 0 := by
  obtain ⟨-, halign, -, hrow, hwidth⟩ := accessRow_some h
  have hany : row.anyWidth = false := by
    rcases rowAt_region hrow with ⟨-, h', -⟩ | ⟨h', -⟩ | ⟨h', -⟩ | ⟨h', -⟩ | ⟨h', -⟩ | ⟨h', -⟩
    case inl => exact h'
    all_goals simp [hg] at h'
  obtain rfl : n = 4 := by simpa [widthAllowed, hany] using hwidth
  exact halign

/-- R158: a transaction that keeps the busy rule does not set WBUSY. -/
theorem busStep_wbusy_origin {x : Transaction} {s t : State} (hp : s.params.Legal) (h : busStep x s = .next t)
    (hx : s.status.busy = true → keepsBusyRule x) (hw : t.status.wbusy = true) : s.status.wbusy = true := by
  obtain ⟨-, row, hrow, rfl⟩ := busStep_cases h
  cases x with
  | read off n =>
    rw [performTransaction] at hw
    rcases performRead_cases row.region off.toNat n s with ⟨-, -, h'⟩ | ⟨-, h'⟩ <;> rwa [h'] at hw
  | write off n v =>
    obtain hset | ⟨hb, htarget⟩ :=
      performWrite_wbusy_origin hp (spans_of_accessRow hrow) (mod_four_of_registers_access hrow) hw
    · exact hset
    · exact absurd htarget (hx hb)

/-- Settles O48, along what a step can do: of the events only a dropped write sets WBUSY. -/
theorem busyRuleKeepsWbusyClear : Obligations.BusyRuleKeepsWbusyClear := by
  intro s t hp h hrule hw
  rcases step_cases h with ⟨-, hturn⟩ | ⟨rest, ⟨-, hturn⟩ | ⟨x, hs, hbus⟩ | ⟨-, rfl⟩ | ⟨-, rfl⟩⟩
  · exact (engineTurn_wbusy hturn).symm.trans hw
  · exact (engineTurn_wbusy hturn).symm.trans hw
  · exact busStep_wbusy_origin (s := { s with schedule := rest }) hp hbus (hrule x rest hs) hw
  · simp [Status.reset] at hw
  · exact hw

/-! ### Progress (R163) -/

theorem engineTurn_schedule {s t : State} (h : engineTurn s = .next t) : t.schedule = s.schedule := by
  obtain rfl | ⟨-, -, rfl⟩ := engineTurn_effect h
  · rfl
  · obtain ⟨-, -, -, -, -, hsched, -⟩ := (completionEffect s).apply_sameControl s
    exact hsched

/-- A step takes the first event and adds none (R62, log 2). -/
theorem step_schedule {s t : State} (h : step s = .next t) : t.schedule = s.schedule.tail := by
  rcases step_cases h with ⟨hs, hturn⟩ | ⟨rest, ⟨hs, hturn⟩ | ⟨x, hs, hbus⟩ | ⟨hs, rfl⟩ | ⟨hs, rfl⟩⟩ <;>
    rw [hs, List.tail]
  · exact (engineTurn_schedule hturn).trans hs
  · exact engineTurn_schedule hturn
  · exact (busStep_setting hbus).2
  · rfl
  · rfl

theorem exists_step_of_run_succ {k : Nat} {s u : State} (h : Sys2Proof.core.run (k + 1) s = .next u) :
    ∃ t, step s = .next t ∧ Sys2Proof.core.run k t = .next u := by
  cases hstep : step s with
  | next t => exact ⟨t, rfl, run_succ_of_next hstep k ▸ h⟩
  | fault r | refused r =>
    have hstep' : Sys2Proof.core.step s = _ := hstep
    simp [Host.Core.run, hstep'] at h

/-- A run of `k` steps takes the first `k` events of the schedule. -/
theorem run_schedule {k : Nat} {s t : State} (h : Sys2Proof.core.run k s = .next t) :
    t.schedule = s.schedule.drop k := by
  induction k generalizing s with
  | zero =>
    obtain rfl : s = t := Host.Outcome.next.inj h
    rfl
  | succ k ih =>
    obtain ⟨s', hstep, hrun⟩ := exists_step_of_run_succ h
    rw [ih hrun, step_schedule hstep, List.drop_tail]

/-- Settles O57: the traffic leaves the command running, so the engine's turn after it is the completion step. -/
theorem acceptedCommandCompletes : Obligations.AcceptedCommandCompletes := by
  intro s _ hr hb hl
  obtain ⟨s', hsame, hturn⟩ := run_busyWindow s.schedule rfl hr hb hl
  have hrun := hturn.trans (engineTurn_of_busy (hsame.rstN.trans hr) (hsame.busy.trans hb))
  refine ⟨_, hrun, Effect.apply_busy _ s', Effect.apply_done _ s', Effect.apply_irqDone _ s', ?_⟩
  rw [run_schedule hrun]
  exact List.drop_of_length_le (Nat.le_succ _)

end Sys2Proof.Machine
end
